-- ==== Sys2Proof/Word.lean ====
section
/-! DEFINITION. The word types of HUFFCORE: the widths that 10_state.md rules R11 to R21 give its registers and
table entries. All integers of the block are unsigned (00_scope.md R5). -/

namespace Sys2Proof

/-- A byte; also a Symbol, "one byte value, range 0–255" (00_scope.md R4, R9). -/
abbrev Byte := BitVec 8

/-- A 32-bit word: CMD, STATUS, TOTAL, EMIT, a FREQ entry, a node's freq. -/
abbrev Word := BitVec 32

/-- A 64-bit word: IN_LEN, OUT_LEN, IPTR, OPTR. -/
abbrev Word64 := BitVec 64

/-- An arena index, 0 to 510 (10_state.md R20: NODE has 511 entries). -/
abbrev NodeIx := Fin 511

/-- A bit sequence, first bit at index 0 (00_scope.md R6); a code word, or a path from the root. -/
abbrev Bits := List Bool

end Sys2Proof
end

