-- ==== Sys2Proof/Machine/Scratch.lean ====
section
/-! DEFINITION. The scratch state of HUFFCORE (10_state.md R24): the working registers of R18 and the tables
FREQ, NODE and CODE of R19 to R21, as plain data. -/

namespace Sys2Proof.Machine

/-- An entry of the NODE arena (10_state.md R20). The constructor is the `leaf` bit. The fields the rule leaves
unspecified (sym of an internal node, left and right of a leaf) are not held (log entry 6). -/
inductive Node where
  | leaf (freq : Word) (sym : Byte) (live : Bool)
  | internal (freq : Word) (left right : NodeIx) (live : Bool)
  deriving DecidableEq, Repr, Inhabited

/-- FREQ, 256 counts of 32 bits (10_state.md R19). -/
abbrev FreqTable := Vector Word 256

/-- NODE, 511 entries (10_state.md R20). -/
abbrev Arena := Vector Node 511

/-- CODE, 256 entries (10_state.md R21): the entry of s is its code word `bits[0 .. len)`; `len` is the list's length,
0 when s has no code. The positions at and above len, which the rule leaves unspecified, are not held (log entry 7). -/
abbrev CodeTable := Vector Bits 256

/-- The working registers (10_state.md R18, widths of 92_eei_decisions.md D26) and the tables. -/
structure Scratch where
  /-- K: distinct_symbol_count, 0 to 256. -/
  k : BitVec 9
  /-- TOTAL: total_symbol_count. -/
  total : Word
  /-- SUM: running sum of record counts in HDRR. -/
  sum : BitVec 40
  /-- NNODE: number of arena entries in use. -/
  nnode : BitVec 10
  /-- ROOT: arena index of the root. -/
  root : NodeIx
  /-- IPTR: next IN address the decoder reads. -/
  iptr : Word64
  /-- OPTR: next OUT address to write. -/
  optr : Word64
  /-- ACC: the bit packer's partial byte. -/
  acc : Byte
  /-- NACC: number of real bits in ACC. -/
  nacc : BitVec 3
  /-- RBYTE: the bit reader's current byte, unread bits in the high positions. -/
  rbyte : Byte
  /-- NREM: number of unread bits in RBYTE. -/
  nrem : BitVec 4
  /-- CUR: the traversal's current node. -/
  cur : NodeIx
  /-- EMIT: the emitted-symbol counter. -/
  emit : Word
  freq : FreqTable
  node : Arena
  code : CodeTable
  deriving DecidableEq, Repr, Inhabited

end Sys2Proof.Machine
end

