-- ==== Sys2Proof/Config.lean ====
section
/-! DEFINITION. The parameters of HUFFCORE (00_scope.md R4) and the model's free values: constants without a body
for what 93_implementation_defined.md lists as `any value`. -/

namespace Sys2Proof

/-- The two OPEN parameters of 00_scope.md R4. They are configuration: State carries them so that every claim is
about every value of them, and no step writes them (10_state.md R24, log entry 1). -/
structure Config where
  /-- IN_CAP: capacity of IN in bytes, 0 ≤ IN_CAP < 2^64. -/
  inCap : Word64
  /-- OUT_CAP: capacity of OUT in bytes, 0 ≤ OUT_CAP < 2^64. -/
  outCap : Word64
  deriving DecidableEq, Repr

namespace Config

/-- NSYM, the alphabet size (00_scope.md R4). -/
abbrev nsym : Nat := 256
/-- CW, the bytes of every integer field of the container (00_scope.md R4, D1). -/
abbrev cw : Nat := 4
/-- MAXN, the largest input length COMPRESS accepts (00_scope.md R4, D11). -/
abbrev maxn : Nat := 2 ^ 32 - 1
/-- MAXK, the largest legal distinct_symbol_count (00_scope.md R4). -/
abbrev maxk : Nat := 256
/-- MAXNODE, the nodes of the arena (00_scope.md R4). -/
abbrev maxnode : Nat := 511
/-- MAXLEN, the longest code word in bits (00_scope.md R4). -/
abbrev maxlen : Nat := 255
/-- HDR_MAX, the longest header in bytes (00_scope.md R4). -/
abbrev hdrMax : Nat := 1288

/-- The capacities of the machine that `State.reset` describes. DESIGN CHOICE (log entry 1): the spec leaves both
OPEN; 2^33 is at least MAXN + HDR_MAX, so R4's total-function contract holds of it, and IN_CAP + 1 is a
length the 64-bit IN_LEN can hold. -/
def atReset : Config := ⟨2 ^ 33, 2 ^ 33⟩

/-- U1 (20_memory.md R43, 70_reset_and_hazards.md R164): the byte a host read of OUT returns where the spec calls it
unspecified, one for every draw (log entry 4). -/
opaque freeByte : Nat → Byte

/-- U2 (10_state.md R25): the byte IN holds at an address the host has not written since reset number `epoch`
(log entry 3). -/
opaque unwrittenByte (epoch : Nat) : Nat → Byte

/-- The scratch state after reset, `Accept`, `Finish` and `raise Err`, where it is unspecified (U3, 10_state.md R24,
R25; log entry 5). -/
opaque freeScratch : Nat → Machine.Scratch

/-- An arena index the spec states no value for: ROOT when no node is live, the child of a leaf. Only states outside
the phases' preconditions reach it (log entry 8). -/
opaque freeIndex : Nat → NodeIx

end Config

end Sys2Proof
end

