-- ==== Sys2Proof/Syntax.lean ====
section
/-! DEFINITION. The syntax of HUFFCORE: its instructions (the two commands and the seven phases, opcode_table.json), the
words they are fetched from, the enumerated fields of STATUS, the container's header, and the host's moves. -/

namespace Sys2Proof

/-- The commands and phases that "stand where a processor manual has instructions" (00_scope.md R1). None has an
operand field: the operands are implicit (30_encoding.md R61). -/
inductive Instr where
  /-- COMPRESS, a command (45_compressor.md R120). -/
  | compress
  /-- DECOMPRESS, a command (46_decompressor.md R130). -/
  | decompress
  /-- FREQ, a phase (40_frequency_analyzer.md R80). -/
  | freq
  /-- TREE, a phase (41_tree_builder.md R85). -/
  | tree
  /-- CODE, a phase (42_code_table_generator.md R95). -/
  | code
  /-- HDRW, a phase (43_header_codec.md R100). -/
  | hdrw
  /-- PACK, a phase (44_bit_packer_reader.md R112). -/
  | pack
  /-- HDRR, a phase (43_header_codec.md R102). -/
  | hdrr
  /-- TRAV, a phase (44_bit_packer_reader.md R114). -/
  | trav
  deriving DecidableEq, Repr

/-- What an instruction is read from: a 32-bit word written to CMD (30_encoding.md R61) or the 4-bit PHASE code
(30_encoding.md R73). -/
inductive FetchWord where
  | cmd (w : BitVec 32)
  | phase (p : BitVec 4)
  deriving DecidableEq, Repr

/-- Why a fetch word is no instruction. -/
inductive DecodeError where
  /-- A command word other than 1 and 2 (30_encoding.md R63). -/
  | illegalCommand
  /-- PHASE code 0: the engine is idle and has no step (10_state.md R17). -/
  | idlePhase
  /-- PHASE codes 8 to 15, reserved and never held (30_encoding.md R73). -/
  | reservedPhase
  deriving DecidableEq, Repr

/-- The values PHASE takes (10_state.md R17, 30_encoding.md R73). -/
inductive Phase where
  | idle | freq | tree | code | hdrw | pack | hdrr | trav
  deriving DecidableEq, Repr, Inhabited

/-- The values OP takes (10_state.md R14): none or invalid selector, COMPRESS, DECOMPRESS. -/
inductive Op where
  | noOp | compress | decompress
  deriving DecidableEq, Repr, Inhabited

/-- The values ERRCODE takes (60_exceptions.md R141). -/
inductive ErrCode where
  | noError | cmd | len | hdrTrunc | hdrBad | payloadTrunc | outOvf
  deriving DecidableEq, Repr, Inhabited

/-- Format REC: a symbol and its count (30_encoding.md R66). -/
structure Record where
  sym : Byte
  count : Word
  deriving DecidableEq, Repr

/-- Format HDR (30_encoding.md R65): the records and total_symbol_count; distinct_symbol_count is the number of
records. -/
structure Header where
  records : List Record
  total : Word
  deriving DecidableEq, Repr

/-- One line of the host notation (30_encoding.md R71, R72). -/
inductive HostMove where
  /-- `RESET`. -/
  | reset
  /-- `WR IN[a], v`. -/
  | wrIn (a : Nat) (v : Byte)
  /-- A host write of v to OUT[a], which 20_memory.md R43 says is ignored. -/
  | wrOut (a : Nat) (v : Byte)
  /-- A write of a register: byte offset in REG, width in bits, value (20_memory.md R41). -/
  | wrReg (off width : Nat) (v : Word64)
  /-- A read of a register: byte offset in REG, width in bits. -/
  | rdReg (off width : Nat)
  /-- `RD IN[a]`. -/
  | rdIn (a : Nat)
  /-- `RD OUT[a]`. -/
  | rdOut (a : Nat)
  /-- `WAIT` (R72). -/
  | wait
  /-- `DUMP` (R72). -/
  | dump
  /-- `COPYBACK` (R72). -/
  | copyback
  /-- The last line of `y = compress(X)` and `y = decompress(C)` (R72): the DUMP, or the error code. -/
  | result
  deriving DecidableEq, Repr

/-- Whose turn it is: "between two lines the engine may take any number of steps" (30_encoding.md R71). A list of turns
is one interleaving of the host's moves with the engine's steps (log entry 2). -/
inductive Turn where
  | engine
  | host (m : HostMove)
  deriving DecidableEq, Repr

end Sys2Proof
end

