-- ==== Sys2Proof/WellFormed.lean ====
section
/-! DEFINITION. Well-formedness of what HUFFCORE is given: fetch words (30_encoding.md R61 to R63, R73), instructions,
and container headers (30_encoding.md R66, R70). -/

namespace Sys2Proof

/-- A fetch word that stands for an instruction: OPC is 1 or 2 and bits 31:8 are 0 (R61 to R63); a PHASE code 1 to 7
(R73). -/
def FetchWord.wellFormed : FetchWord → Bool
  | .cmd w => w.extractLsb 31 8 == 0 && (w.extractLsb 7 0 == 1 || w.extractLsb 7 0 == 2)
  | .phase p => 1 ≤ p.toNat && p.toNat ≤ 7

/-- An instruction has no operand field (R61), so none can be ill formed. -/
def Instr.wellFormed : Instr → Bool
  | .compress | .decompress | .freq | .tree | .code | .hdrw | .pack | .hdrr | .trav => true

namespace Header

/-- At least one record: a header with none is the empty container's (43_header_codec.md R105). -/
def nonEmpty (h : Header) : Bool := 1 ≤ h.records.length

/-- At most MAXK records (30_encoding.md R70). -/
def fits (h : Header) : Bool := h.records.length ≤ Config.maxk

/-- Every count is at least 1 (30_encoding.md R66). -/
def countsPositive (h : Header) : Bool := h.records.all fun r => r.count != 0

/-- No symbol repeats (30_encoding.md R66). -/
def symbolsDistinct (h : Header) : Bool := (h.records.map Record.sym).Nodup

/-- The exact sum of the counts. -/
def sum (h : Header) : Nat := (h.records.map fun r => r.count.toNat).sum

/-- The counts sum to total_symbol_count (30_encoding.md R66). -/
def sumMatches (h : Header) : Bool := h.sum == h.total.toNat

/-- A header DECOMPRESS accepts (43_header_codec.md R103); record order is free (R104). -/
def wellFormed (h : Header) : Bool :=
  h.nonEmpty && h.fits && h.countsPositive && h.symbolsDistinct && h.sumMatches

/-- The records stand in strictly ascending symbol order, as COMPRESS writes them (30_encoding.md R66). -/
def ascending (h : Header) : Bool := (h.records.map fun r => r.sym.toNat).Pairwise (· < ·)

end Header

end Sys2Proof
end

