-- ==== Sys2Proof/Decode.lean ====
section
/-! DEFINITION. The encodings of 30_encoding.md: command words and PHASE codes to instructions and back, the codes of
STATUS's fields, integer fields, and the container's header, each with its decoder and encoder. -/

namespace Sys2Proof

/-! ### Instructions -/

/-- The instruction a fetch word stands for (30_encoding.md R62, R73), or why it is none (R63, R73). -/
def decode : FetchWord → Except DecodeError Instr
  | .cmd w =>
    if w = 0x00000001 then .ok .compress
    else if w = 0x00000002 then .ok .decompress
    else .error .illegalCommand
  | .phase p =>
    if p = 0x1 then .ok .freq
    else if p = 0x2 then .ok .tree
    else if p = 0x3 then .ok .code
    else if p = 0x4 then .ok .hdrw
    else if p = 0x5 then .ok .pack
    else if p = 0x6 then .ok .hdrr
    else if p = 0x7 then .ok .trav
    else if p = 0x0 then .error .idlePhase
    else .error .reservedPhase

/-- The fetch word of an instruction: format CMD with OPC in bits 7:0 and zeros above (30_encoding.md R61, R62), or
format PHASE (R73). -/
def encode : Instr → FetchWord
  | .compress => .cmd (0#24 ++ 0x01#8)
  | .decompress => .cmd (0#24 ++ 0x02#8)
  | .freq => .phase 1
  | .tree => .phase 2
  | .code => .phase 3
  | .hdrw => .phase 4
  | .pack => .phase 5
  | .hdrr => .phase 6
  | .trav => .phase 7

/-- The fetch word whose bits are `w` in a row of `nbits` bits: a PHASE code fills its one byte's low half, a CMD word
has 32 bits. -/
def FetchWord.ofTable (nbits w : Nat) : Option FetchWord :=
  if nbits ≤ 8 then (if w < 2 ^ 4 then some (.phase (BitVec.ofNat 4 w)) else none)
  else if w < 2 ^ 32 then some (.cmd (BitVec.ofNat 32 w)) else none

/-- The instruction the decoder reads from a row of spec/opcode_table.json whose bits are `w`. -/
def decodeTableWord (nbits w : Nat) : Option Instr :=
  match FetchWord.ofTable nbits w with
  | none => none
  | some f =>
    match decode f with
    | .ok i => some i
    | .error _ => none

/-! ### Codes of STATUS's fields -/

/-- PHASE codes (30_encoding.md R73). -/
def Phase.bits : Phase → BitVec 4
  | .idle => 0 | .freq => 1 | .tree => 2 | .code => 3 | .hdrw => 4 | .pack => 5 | .hdrr => 6 | .trav => 7

/-- The phase an instruction is, if it is one. -/
def Instr.phase : Instr → Option Phase
  | .compress | .decompress => none
  | .freq => some .freq
  | .tree => some .tree
  | .code => some .code
  | .hdrw => some .hdrw
  | .pack => some .pack
  | .hdrr => some .hdrr
  | .trav => some .trav

/-- OP codes (10_state.md R14). -/
def Op.bits : Op → BitVec 2
  | .noOp => 0 | .compress => 1 | .decompress => 2

/-- ERRCODE values (60_exceptions.md R141). -/
def ErrCode.bits : ErrCode → BitVec 4
  | .noError => 0 | .cmd => 1 | .len => 2 | .hdrTrunc => 3 | .hdrBad => 4 | .payloadTrunc => 5 | .outOvf => 6

/-! ### Integer fields -/

/-- `BE(v)`, CW = 4 bytes, most significant first (00_scope.md R7). -/
def be (v : Nat) : List Byte :=
  [BitVec.ofNat 8 (v / 2 ^ 24), BitVec.ofNat 8 (v / 2 ^ 16), BitVec.ofNat 8 (v / 2 ^ 8), BitVec.ofNat 8 v]

/-- `UBE(B)`: the value of a byte sequence, most significant byte first (00_scope.md R7, 30_encoding.md R67). -/
def ube (B : List Byte) : Nat := B.foldl (fun n b => n * 256 + b.toNat) 0

/-! ### The container's header -/

/-- Format REC (30_encoding.md R66). -/
def encodeRecord (r : Record) : List Byte := r.sym :: be r.count.toNat

/-- Format HDR (30_encoding.md R65). -/
def encodeHeader (h : Header) : List Byte :=
  be h.records.length ++ h.records.flatMap encodeRecord ++ be h.total.toNat

/-- `n` records from the front of a byte sequence, with the checks of 43_header_codec.md R102 in its order; `seen` holds
the symbols that already had a record. -/
def decodeRecords : Nat → List Byte → List Byte → Except ErrCode (List Record × List Byte)
  | 0, C, _ => .ok ([], C)
  | n + 1, s :: b0 :: b1 :: b2 :: b3 :: C, seen =>
    if ube [b0, b1, b2, b3] = 0 then .error .hdrBad
    else if s ∈ seen then .error .hdrBad
    else
      match decodeRecords n C (s :: seen) with
      | .ok (rs, rest) => .ok (⟨s, BitVec.ofNat 32 (ube [b0, b1, b2, b3])⟩ :: rs, rest)
      | .error e => .error e
  | _ + 1, _, _ => .error .hdrTrunc

/-- The header at the front of a container and the bytes after it, as 43_header_codec.md R102 reads it: a container whose
first field is 0 has no records and nothing after that field is read (R105). -/
def decodeHeader : List Byte → Except ErrCode (Header × List Byte)
  | b0 :: b1 :: b2 :: b3 :: C =>
    if ube [b0, b1, b2, b3] = 0 then .ok (⟨[], 0⟩, C)
    else if ube [b0, b1, b2, b3] > Config.maxk then .error .hdrBad
    else
      match decodeRecords (ube [b0, b1, b2, b3]) C [] with
      | .error e => .error e
      | .ok (rs, t0 :: t1 :: t2 :: t3 :: payload) =>
        if (rs.map fun r => r.count.toNat).sum ≠ ube [t0, t1, t2, t3] then .error .hdrBad
        else .ok (⟨rs, BitVec.ofNat 32 (ube [t0, t1, t2, t3])⟩, payload)
      | .ok (_, _) => .error .hdrTrunc
  | _ => .error .hdrTrunc

/-! ### The payload -/

/-- The byte whose bits, most significant first, are the first 8 of `bs`, zeros where `bs` is shorter
(30_encoding.md R68, 20_memory.md R45). -/
def packByte (bs : Bits) : Byte :=
  BitVec.ofNat 8 ((List.range 8).foldl (fun n j => 2 * n + (bs.getD j false).toNat) 0)

/-- Format PAYLOAD (30_encoding.md R68): `ceil(B / 8)` bytes, byte q holding bits 8q .. 8q+7, zeros beyond the last. -/
def packBits (bs : Bits) : List Byte :=
  (List.range ((bs.length + 7) / 8)).map fun q => packByte (bs.drop (8 * q))

/-- The payload bits of a byte sequence: bit number t is bit `7 − (t mod 8)` of byte `t div 8` (20_memory.md R45). -/
def unpackBits (B : List Byte) : Bits :=
  B.flatMap fun b => (List.range 8).map fun j => b.getLsbD (7 - j)

end Sys2Proof
end

