-- ==== Sys2Proof/Machine/State.lean ====
section
/-! DEFINITION. The state of HUFFCORE (10_state.md), the reasons a step can stop, and the state after reset. -/

namespace Sys2Proof.Machine

/-- A byte memory: the cells that hold a byte, addresses strictly rising. An unlisted address has no value
(10_state.md R25: unspecified; log entry 3). -/
abbrev Memory := List Host.Cell

/-- The canonical form of a memory. No cell can equal what an unlisted address reads as, since that is no value. -/
abbrev Memory.wf (m : Memory) : Prop := m.Pairwise fun c d => c.1 < d.1

/-- The fields of STATUS (10_state.md R14), PHASE and OP being the sequencer's two registers (R17). The reserved bits
hold nothing: they read 0 (log entry 12). -/
structure Status where
  busy : Bool
  done : Bool
  err : Bool
  errcode : ErrCode
  phase : Phase
  op : Op
  deriving DecidableEq, Repr, Inhabited

/-- The machine and, as plain data, the host that acts on it (10_state.md R10). -/
structure State where
  /-- IN_CAP and OUT_CAP (00_scope.md R4): configuration, written by no step. -/
  cfg : Config
  /-- STATUS, with OP and PHASE (10_state.md R14, R17). -/
  status : Status
  /-- IN_LEN (10_state.md R15). -/
  inLen : Word64
  /-- OUT_LEN (10_state.md R16). -/
  outLen : Word64
  /-- IN (10_state.md R12). -/
  inMem : Memory
  /-- OUT (10_state.md R12). -/
  outMem : Memory
  /-- The working registers and tables (10_state.md R18 to R21, R24). -/
  work : Scratch
  /-- The model's own: the turns still to come, first one first (30_encoding.md R71; log entry 2). -/
  turns : List Turn
  /-- The model's own: the values the host's reads returned, zero-extended to 64 bits, the newest first (log entry 13). -/
  heard : List Word64
  /-- The model's own: how many free values have been drawn (log entry 4). -/
  draws : Nat
  /-- The model's own: how many times reset has been applied since the first (log entry 3). -/
  epoch : Nat
  deriving DecidableEq, Repr

/-- The reasons a step stops with a fault. No state that `State.Inv` holds of raises one; stopping is safe. -/
inductive Fault where
  /-- `MemRead` beyond IN_CAP, where no byte exists (00_scope.md R8's precondition, guarded by `Accept`). Raised by the
  phases that read IN. Safe. -/
  | inRange
  /-- `MemWrite` beyond OUT_CAP, where no byte exists (00_scope.md R8's precondition, guarded by the caller). Raised by
  HDRW, PACK and TRAV. Safe. -/
  | outRange
  /-- BUSY = 1 with PHASE = IDLE, a combination no rule produces (10_state.md R17). Raised by the engine's step. Safe. -/
  | noPhase
  deriving DecidableEq, Repr

/-- The reasons a step is refused (log entry 15). -/
inductive Refusal where
  /-- An instruction the model gives no meaning. Raised by `exec` alone; no arm raises it. Safe. -/
  | notModelled (mnemonic : String)
  /-- A host write to IN while BUSY = 1, forbidden by 20_memory.md R42 and 70_reset_and_hazards.md R163 (W1). Raised by
  the host's move `WR IN`. Safe. -/
  | inWriteWhileBusy
  /-- A host register access of the wrong width or at an undefined offset below 0x18 (20_memory.md R41, W2). Raised by
  the host's register moves. Safe. -/
  | badRegAccess
  /-- `COPYBACK` when not (BUSY = 0, DONE = 1, ERR = 0) (30_encoding.md R72, W3). Raised by that move. Safe. -/
  | copybackWithoutResult
  deriving DecidableEq, Repr

/-- STATUS after reset: 0x0000_0000 (10_state.md R25). -/
def Status.reset : Status := ⟨false, false, false, .noError, .idle, .noOp⟩

/-- Zero in every working register and table entry. DESIGN CHOICE (log entry 5): 10_state.md R25 leaves them
unspecified after reset; `Accept` replaces them by a free value before any phase runs. -/
def Scratch.zero : Scratch where
  k := 0
  total := 0
  sum := 0
  nnode := 0
  root := 0
  iptr := 0
  optr := 0
  acc := 0
  nacc := 0
  rbyte := 0
  nrem := 0
  cur := 0
  emit := 0
  freq := Vector.replicate 256 0
  node := Vector.replicate 511 (.leaf 0 0 false)
  code := Vector.replicate 256 []

/-- The machine right after reset (10_state.md R25, 70_reset_and_hazards.md R160): idle, no turn pending. -/
def State.reset : State where
  cfg := Config.atReset
  status := Status.reset
  inLen := 0
  outLen := 0
  inMem := []
  outMem := []
  work := Scratch.zero
  turns := []
  heard := []
  draws := 0
  epoch := 0

end Sys2Proof.Machine
end

