-- ==== Sys2Proof/Machine/Flags.lean ====
section
/-! DEFINITION. STATUS: the word the host reads, and what each event does to its flags BUSY, DONE and ERR and to its
fields ERRCODE, PHASE and OP (10_state.md R14, R22). -/

namespace Sys2Proof.Machine.Status

/-- Format STATUS (30_encoding.md R64): OP at 17:16, PHASE at 11:8, ERRCODE at 7:4, ERR, DONE, BUSY at 2, 1, 0, every
other bit 0. -/
def word (t : Status) : Word :=
  0#14 ++ t.op.bits ++ 0#4 ++ t.phase.bits ++ t.errcode.bits ++ 0#1 ++ BitVec.ofBool t.err ++ BitVec.ofBool t.done ++
    BitVec.ofBool t.busy

/-- What `Accept` clears first (10_state.md R13). BUSY is 0 already. -/
def cleared (t : Status) : Status := { t with done := false, err := false, errcode := .noError, phase := .idle }

/-- The acceptance of a command that passes the length checks: BUSY set, PHASE at its first phase (10_state.md R13). -/
def started (t : Status) (p : Phase) : Status := { t with busy := true, phase := p }

/-- `raise Err(code)` (60_exceptions.md R143): PHASE and OP keep their values. -/
def raised (t : Status) (e : ErrCode) : Status := { t with busy := false, done := true, err := true, errcode := e }

/-- `Finish` (60_exceptions.md R144): OP keeps its value. -/
def finished (t : Status) : Status :=
  { t with busy := false, done := true, err := false, errcode := .noError, phase := .idle }

end Sys2Proof.Machine.Status
end

