-- ==== Sys2Proof/Machine/Ops.lean ====
section
/-! DEFINITION. The named operations every rule shares: byte memories, `raise Err` and `Finish` (60_exceptions.md R143,
R144), `Accept` (10_state.md R13), and the pseudocode primitives `MemRead` and `MemWrite` (00_scope.md R8). -/

namespace Sys2Proof.Machine

/-! ### Memories -/

namespace Memory

/-- The byte at an address, if one is held. -/
def get : Memory → Nat → Option Byte
  | [], _ => none
  | (b, v) :: m, a => if a = b then some v else get m a

/-- Writes one byte, keeping the addresses strictly rising. -/
def put : Memory → Nat → Byte → Memory
  | [], a, v => [(a, v)]
  | (b, w) :: m, a, v =>
    if a < b then (a, v) :: (b, w) :: m
    else if a = b then (a, v) :: m
    else (b, w) :: put m a v

/-- Writes a byte sequence at ascending addresses (20_memory.md R48). -/
def putAll : Memory → Nat → List Byte → Memory
  | m, _, [] => m
  | m, a, v :: B => putAll (put m a v) (a + 1) B

/-- The cells below an address: what stays specified of OUT after `Finish` (60_exceptions.md R144). -/
def below (m : Memory) (len : Nat) : Memory := m.filter fun c => c.1 < len

end Memory

namespace State

/-- The byte IN holds at an address (10_state.md R12): what the host wrote there, else a free value (U2). -/
def inByte (s : State) (a : Nat) : Byte := (s.inMem.get a).getD (Config.unwrittenByte s.epoch a)

/-- The bytes IN[a .. a+n). -/
def inBytes (s : State) (a n : Nat) : List Byte := (List.range n).map fun i => s.inByte (a + i)

/-- `X = IN[0 .. IN_LEN)`, the operation's input (10_state.md R12). -/
def input (s : State) : List Byte := s.inBytes 0 s.inLen.toNat

/-- PHASE <- p (00_scope.md R8). -/
def setPhase (s : State) (p : Phase) : State := { s with status := { s.status with phase := p } }

/-- The scratch state becomes unspecified (10_state.md R24): a free value. -/
def discard (s : State) : State := { s with work := Config.freeScratch s.draws, draws := s.draws + 1 }

/-- `raise Err(code)`, the block's one way of taking an exception (60_exceptions.md R143): STATUS reports it, OUT_LEN
becomes 0, OUT and the scratch state become unspecified, nothing is saved and control goes nowhere. -/
def raise (e : ErrCode) (s : State) : State :=
  { s.discard with status := s.status.raised e, outLen := 0, outMem := [] }

/-- `Finish(len)`, normal completion (60_exceptions.md R144): OUT[0 .. len) stays, the rest of OUT and the scratch state
become unspecified. -/
def finish (len : Word64) (s : State) : State :=
  { s.discard with status := s.status.finished, outLen := len, outMem := s.outMem.below len.toNat }

/-- The two lengths checks of `Accept` and the start of the operation `op` (10_state.md R13). -/
def begin (op : Op) (s : State) : State :=
  let s := { s with status := { s.status with op := op } }
  if s.inLen > s.cfg.inCap then s.raise .len
  else if op = .compress ∧ s.inLen.toNat > Config.maxn then s.raise .len
  else { s with status := s.status.started (if op = .compress then .freq else .hdrr) }

/-- `Accept(w)`, the effect of a host write of w to CMD (10_state.md R13). The first command that follows an error or a
success leaves it (60_exceptions.md R145): there is no other return. -/
def accept (w : Word) (s : State) : State :=
  if s.status.busy then s
  else
    let s := { s.discard with status := s.status.cleared, outLen := 0, outMem := [] }
    if w = 0x00000001 then s.begin .compress
    else if w = 0x00000002 then s.begin .decompress
    else State.raise .cmd { s with status := { s.status with op := .noOp } }

end State

/-! ### The course of a rule -/

/-- Where a rule's pseudocode stands: it goes on, or `Finish` or `raise Err` has ended it ("nothing after it
executes", 00_scope.md R8), or a precondition of `MemRead` or `MemWrite` does not hold. -/
inductive Run where
  | going (s : State)
  | ended (s : State)
  | broken (f : Fault)

namespace Run

/-- The rest of a rule: it runs only where the rule goes on. -/
def andThen : Run → (State → Run) → Run
  | going s, k => k s
  | ended s, _ => ended s
  | broken f, _ => broken f

/-- The outcome of a whole rule. -/
def outcome : Run → Host.Outcome State Fault Refusal
  | going s => .next s
  | ended s => .next s
  | broken f => .fault f

end Run

/-- `MemRead(IN, a, n)` (00_scope.md R8), the rest of the rule given the bytes. -/
def memRead (s : State) (a n : Nat) (k : List Byte → Run) : Run :=
  if a + n ≤ s.cfg.inCap.toNat then k (s.inBytes a n) else .broken .inRange

/-- `MemRead(IN, a, 1)`, one byte. -/
def memReadByte (s : State) (a : Nat) (k : Byte → Run) : Run :=
  if a + 1 ≤ s.cfg.inCap.toNat then k (s.inByte a) else .broken .inRange

/-- `MemWrite(OUT, a, |B|, B)` (00_scope.md R8). -/
def memWrite (s : State) (a : Nat) (B : List Byte) : Run :=
  if a + B.length ≤ s.cfg.outCap.toNat then .going { s with outMem := s.outMem.putAll a B } else .broken .outRange

/-! ### What the host sees -/

namespace State

/-- What the host's next read returns is recorded. -/
def hear (s : State) (v : Word64) : State := { s with heard := v :: s.heard }

/-- A host read of OUT[a] returns the byte the operation wrote there (20_memory.md R43, 70_reset_and_hazards.md R164). -/
def outValid (s : State) (a : Nat) : Bool := s.status.done && !s.status.err && decide (a < s.outLen.toNat)

/-- The value of a host read of OUT[a]: outside `outValid` a free draw (U1). -/
def outByte (s : State) (a : Nat) : Byte :=
  if s.outValid a then (s.outMem.get a).getD (Config.freeByte s.draws) else Config.freeByte s.draws

/-- `Y = OUT[0 .. OUT_LEN)`, the result of a successful operation (10_state.md R12). -/
def output (s : State) : List Byte := (List.range s.outLen.toNat).map s.outByte

/-- The value of a host read of IN[a]: 0 at and above IN_CAP (20_memory.md R42). -/
def inRead (s : State) (a : Nat) : Byte := if a < s.cfg.inCap.toNat then s.inByte a else 0

end State

end Sys2Proof.Machine
end

