-- ==== Sys2Proof/Machine/Operands.lean ====
section
/-! DEFINITION. The operands of the phases: entries of the tables FREQ, NODE and CODE, single bits of a byte, and updates
of the working registers. Commands have implicit operands only (30_encoding.md R61). -/

namespace Sys2Proof.Machine

/-- `FREQ[s]` (10_state.md R19). -/
def freqAt (f : FreqTable) (s : Byte) : Word := f[s.toNat]'(s.isLt)

/-- `FREQ[s] <- v`. -/
def freqPut (f : FreqTable) (s : Byte) (v : Word) : FreqTable := f.set s.toNat v s.isLt

/-- FREQ with every entry 0. -/
def freqZero : FreqTable := Vector.replicate 256 0

/-- The pairs (s, FREQ[s]) "for s ascending with FREQ[s] > 0" (00_scope.md R8). -/
def present (f : FreqTable) : List (Byte × Word) :=
  f.toList.zipIdx.filterMap fun (c, i) => if c = 0 then none else some (BitVec.ofNat 8 i, c)

/-- `CODE[s]`, its code word (10_state.md R21). -/
def codeAt (t : CodeTable) (s : Byte) : Bits := t[s.toNat]'(s.isLt)

/-- `CODE[s] <- p`. -/
def codePut (t : CodeTable) (s : Byte) (p : Bits) : CodeTable := t.set s.toNat p s.isLt

/-- CODE with every `len` 0. -/
def codeEmpty : CodeTable := Vector.replicate 256 []

namespace Node

/-- The field `freq` of an entry (10_state.md R20). -/
def freq : Node → Word
  | leaf f _ _ => f
  | internal f _ _ _ => f

/-- The field `live`. -/
def live : Node → Bool
  | leaf _ _ l => l
  | internal _ _ _ l => l

/-- The field `leaf`. -/
def isLeaf : Node → Bool
  | leaf .. => true
  | internal .. => false

/-- `live <- 0`. -/
def kill : Node → Node
  | leaf f s _ => leaf f s false
  | internal f l r _ => internal f l r false

/-- The child reached by a bit: left on 0, right on 1 (41_tree_builder.md R89). A leaf's children are unspecified
(10_state.md R20): the free value. -/
def child (free : NodeIx) : Node → Bool → NodeIx
  | leaf .., _ => free
  | internal _ l r _, b => if b then r else l

end Node

/-- `B[i] <- b`, i from 0 (least significant) to 7 (00_scope.md R5). -/
def setBit (B : Byte) (i : Nat) (b : Bool) : Byte := if b then B ||| (1#8 <<< i) else B &&& ~~~(1#8 <<< i)

/-- Writes of working registers and tables. -/
def State.setWork (s : State) (w : Scratch) : State := { s with work := w }

/-- IPTR <- v. -/
def State.setIptr (s : State) (v : Nat) : State := s.setWork { s.work with iptr := BitVec.ofNat 64 v }

end Sys2Proof.Machine
end

