-- ==== Sys2Proof/Machine/Code.lean ====
section
/-! DEFINITION. Phase CODE, the code table generator (42_code_table_generator.md). -/

namespace Sys2Proof.Machine

/-- The leaves below node `i` with their paths, where `p` is the path of `i` (R95): 0 to the left, 1 to the right. The
walk is depth-bounded (R98). -/
def leafPaths (A : Arena) : Nat → NodeIx → Bits → List (Byte × Bits)
  | 0, _, _ => []
  | d + 1, i, p =>
    match A.get i with
    | .leaf _ sym _ => [(sym, p)]
    | .internal _ l r _ => leafPaths A d l (p ++ [false]) ++ leafPaths A d r (p ++ [true])

/-- The code table of the tree with a given root (R95); one artificial bit 0 when the root is a leaf (R96). A leaf is at
most MAXLEN edges deep (41_tree_builder.md R91 (e)), so a walk of MAXLEN + 1 nodes reaches every leaf. -/
def codeTable (A : Arena) (root : NodeIx) : CodeTable :=
  match A.get root with
  | .leaf _ sym _ => codePut codeEmpty sym [false]
  | .internal .. => (leafPaths A (Config.maxlen + 1) root []).foldl (fun c e => codePut c e.1 e.2) codeEmpty

/-- The rule of phase CODE (R95). -/
def codeRule (s : State) : State :=
  (s.setWork { s.work with code := codeTable s.work.node s.work.root }).setPhase .hdrw

/-- CODE (42_code_table_generator.md R95). -/
def execCode (s : State) : Host.Outcome State Fault Refusal := .next (codeRule s)

end Sys2Proof.Machine
end

