-- ==== Sys2Proof/Machine/Commands.lean ====
section
/-! DEFINITION. The commands COMPRESS and DECOMPRESS: what the host's write of their word to CMD does
(45_compressor.md R120, R121, 46_decompressor.md R130, R131). The engine's steps that follow are the phases. -/

namespace Sys2Proof.Machine

/-- COMPRESS (45_compressor.md R120, R121). -/
def execCompress (s : State) : Host.Outcome State Fault Refusal := .next (s.accept 0x00000001)

/-- DECOMPRESS (46_decompressor.md R130, R131). -/
def execDecompress (s : State) : Host.Outcome State Fault Refusal := .next (s.accept 0x00000002)

end Sys2Proof.Machine
end

