-- ==== Sys2Proof/Machine/Frequency.lean ====
section
/-! DEFINITION. Phase FREQ, the frequency analyzer (40_frequency_analyzer.md). -/

namespace Sys2Proof.Machine

/-- The counting loop of R80: how often each byte value occurs. -/
def countBytes (X : List Byte) : FreqTable := X.foldl (fun f s => freqPut f s (freqAt f s + 1)) freqZero

/-- The rule of phase FREQ (R80, R82). -/
def freqRule (s : State) : Run :=
  memRead s 0 s.inLen.toNat fun X =>
    let f := countBytes X
    let k := (present f).length
    let s := s.setWork { s.work with freq := f, k := BitVec.ofNat 9 k, total := s.inLen.setWidth 32 }
    if k = 0 then .ended (s.finish 0) else .going (s.setPhase .tree)

/-- FREQ (40_frequency_analyzer.md R80). -/
def execFreq (s : State) : Host.Outcome State Fault Refusal := (freqRule s).outcome

end Sys2Proof.Machine
end

