-- ==== Sys2Proof/Machine/Header.lean ====
section
/-! DEFINITION. Phases HDRW and HDRR, the header codec (43_header_codec.md). -/

namespace Sys2Proof.Machine

/-- The bytes HDRW writes (R100): K, the records in ascending symbol order, TOTAL. -/
def headerBytes (w : Scratch) : List Byte :=
  be w.k.toNat ++ (present w.freq).flatMap (fun r => r.1 :: be r.2.toNat) ++ be w.total.toNat

/-- The rule of phase HDRW (R100). -/
def hdrwRule (s : State) : Run :=
  if Config.cw + s.work.k.toNat * (1 + Config.cw) + Config.cw > s.cfg.outCap.toNat then .ended (s.raise .outOvf)
  else
    (memWrite s 0 (headerBytes s.work)).andThen fun s =>
      .going ((s.setWork { s.work with optr := BitVec.ofNat 64 (headerBytes s.work).length }).setPhase .pack)

/-- HDRW (43_header_codec.md R100). -/
def execHdrw (s : State) : Host.Outcome State Fault Refusal := (hdrwRule s).outcome

/-- `need(m)` (R102). -/
def need (m : Nat) (s : State) (k : Run) : Run :=
  if s.inLen.toNat - s.work.iptr.toNat < m then .ended (s.raise .hdrTrunc) else k

/-- One turn of HDRR's record loop (R102). -/
def readRecord (s : State) : Run :=
  need (1 + Config.cw) s <|
    memReadByte s s.work.iptr.toNat fun sym =>
      memRead s (s.work.iptr.toNat + 1) Config.cw fun B =>
        let s := s.setIptr (s.work.iptr.toNat + 1 + Config.cw)
        if ube B = 0 then .ended (s.raise .hdrBad)
        else if freqAt s.work.freq sym ≠ 0 then .ended (s.raise .hdrBad)
        else
          .going (s.setWork { s.work with
            freq := freqPut s.work.freq sym (BitVec.ofNat 32 (ube B))
            sum := BitVec.ofNat 40 (s.work.sum.toNat + ube B) })

/-- HDRR's record loop (R102): `n` records. -/
def readRecords : Nat → State → Run
  | 0, s => .going s
  | n + 1, s => (readRecord s).andThen (readRecords n)

/-- HDRR after its record loop (R102): total_symbol_count and the last two checks. -/
def readTotal (s : State) : Run :=
  need Config.cw s <|
    memRead s s.work.iptr.toNat Config.cw fun B =>
      let s := (s.setWork { s.work with total := BitVec.ofNat 32 (ube B) }).setIptr (s.work.iptr.toNat + Config.cw)
      if s.work.sum.toNat ≠ s.work.total.toNat then .ended (s.raise .hdrBad)
      else if s.work.total.toNat > s.cfg.outCap.toNat then .ended (s.raise .outOvf)
      else .going (s.setPhase .tree)

/-- The rule of phase HDRR (R102, R105). -/
def hdrrRule (s : State) : Run :=
  if s.inLen = 0 then .ended (s.finish 0)
  else
    let s := s.setIptr 0
    need Config.cw s <|
      memRead s 0 Config.cw fun B =>
        let s := s.setIptr Config.cw
        if ube B = 0 then .ended (s.finish 0)
        else if ube B > Config.maxk then .ended (s.raise .hdrBad)
        else
          (readRecords (ube B)
            (s.setWork { s.work with k := BitVec.ofNat 9 (ube B), freq := freqZero, sum := 0 })).andThen readTotal

/-- HDRR (43_header_codec.md R102). -/
def execHdrr (s : State) : Host.Outcome State Fault Refusal := (hdrrRule s).outcome

end Sys2Proof.Machine
end

