-- ==== Sys2Proof/Machine/Payload.lean ====
section
/-! DEFINITION. Phases PACK and TRAV: the bit packer, the bit reader and the tree traversal
(44_bit_packer_reader.md). -/

namespace Sys2Proof.Machine

/-! ### The packer -/

/-- ACC goes to OUT[OPTR]; ACC and NACC start again (R110, R111). -/
def flushByte (s : State) : Run :=
  if s.work.optr.toNat ≥ s.cfg.outCap.toNat then .ended (s.raise .outOvf)
  else
    (memWrite s s.work.optr.toNat [s.work.acc]).andThen fun s =>
      .going (s.setWork { s.work with optr := BitVec.ofNat 64 (s.work.optr.toNat + 1), acc := 0, nacc := 0 })

/-- `PutBit(b)` (R110). -/
def putBit (b : Bool) (s : State) : Run :=
  let s := s.setWork { s.work with acc := setBit s.work.acc (7 - s.work.nacc.toNat) b }
  if s.work.nacc = 7 then flushByte s else .going (s.setWork { s.work with nacc := s.work.nacc + 1 })

/-- `PutBit` of each bit in order. -/
def putBits : Bits → State → Run
  | [], s => .going s
  | b :: bs, s => (putBit b s).andThen (putBits bs)

/-- `Flush()` (R111). -/
def flush (s : State) : Run := if s.work.nacc = 0 then .going s else flushByte s

/-- The code bits of an input, in input order (30_encoding.md R68). -/
def codeBits (c : CodeTable) (X : List Byte) : Bits := X.flatMap (codeAt c)

/-- The rule of phase PACK (R112). -/
def packRule (s : State) : Run :=
  let s := s.setWork { s.work with acc := 0, nacc := 0 }
  memRead s 0 s.inLen.toNat fun X =>
    ((putBits (codeBits s.work.code X) s).andThen flush).andThen fun s => .ended (s.finish s.work.optr)

/-- PACK (44_bit_packer_reader.md R112). -/
def execPack (s : State) : Host.Outcome State Fault Refusal := (packRule s).outcome

/-! ### The reader and the traversal -/

/-- The next bit of RBYTE, most significant first (R113), and the rest of the rule given it. -/
def shiftBit (s : State) (k : Bool → State → Run) : Run :=
  k (s.work.rbyte.getLsbD 7)
    (s.setWork { s.work with rbyte := BitVec.ofNat 8 (s.work.rbyte.toNat * 2), nrem := s.work.nrem - 1 })

/-- `GetBit()` (R113): fetches a byte when the current one is used up; the decode failure when there is none. -/
def getBit (s : State) (k : Bool → State → Run) : Run :=
  if s.work.nrem = 0 then
    if s.work.iptr.toNat ≥ s.inLen.toNat then .ended (s.raise .payloadTrunc)
    else
      memReadByte s s.work.iptr.toNat fun B =>
        shiftBit (s.setWork { s.work with
          rbyte := B, iptr := BitVec.ofNat 64 (s.work.iptr.toNat + 1), nrem := 8 }) k
  else shiftBit s k

/-- `Emit(s)` (R114). -/
def emit (sym : Byte) (s : State) : Run :=
  (memWrite s s.work.optr.toNat [sym]).andThen fun s =>
    .going (s.setWork { s.work with optr := BitVec.ofNat 64 (s.work.optr.toNat + 1), emit := s.work.emit + 1 })

/-- What TRAV does with one bit (R114, R115): at a leaf it emits the symbol and goes back to the root. -/
def walkBit (b : Bool) (s : State) : Run :=
  match s.work.node.get s.work.root with
  | .leaf _ sym _ => emit sym s
  | .internal .. =>
    let s := s.setWork { s.work with cur := (s.work.node.get s.work.cur).child (Config.freeIndex s.draws) b }
    match s.work.node.get s.work.cur with
    | .leaf _ sym _ => (emit sym s).andThen fun s => .going (s.setWork { s.work with cur := s.work.root })
    | .internal .. => .going s

/-- The loop of TRAV (R114). Every turn takes one bit of IN[IPTR .. IN_LEN) or ends the operation, so one turn more than
there are bits is fuel enough. -/
def travLoop : Nat → State → Run
  | 0, s => .going s
  | fuel + 1, s =>
    if s.work.emit < s.work.total then getBit s fun b s => (walkBit b s).andThen (travLoop fuel) else .going s

/-- The rule of phase TRAV (R114 to R116). -/
def travRule (s : State) : Run :=
  let s := s.setWork { s.work with optr := 0, emit := 0, cur := s.work.root, nrem := 0 }
  (travLoop (8 * (s.inLen.toNat - s.work.iptr.toNat) + 1) s).andThen fun s => .ended (s.finish s.work.optr)

/-- TRAV (44_bit_packer_reader.md R114). -/
def execTrav (s : State) : Host.Outcome State Fault Refusal := (travRule s).outcome

end Sys2Proof.Machine
end

