-- ==== Sys2Proof/Machine/Tree.lean ====
section
/-! DEFINITION. Phase TREE, the Huffman tree builder (41_tree_builder.md). -/

namespace Sys2Proof.Machine

/-- The leaf step (R86): leaves at indices 0, 1, … in ascending order of symbol. -/
def leafStep (f : FreqTable) (A : Arena) : Arena :=
  (present f).zipIdx.foldl (fun A (r, j) => A.setIfInBounds j (.leaf r.2 r.1 true)) A

/-- The priority structure L of R87: the live entries below NNODE, in ascending order of index. -/
def liveSet (A : Arena) (n : Nat) : List NodeIx :=
  (List.range n).filterMap fun i => if h : i < 511 then (if (A.get ⟨i, h⟩).live then some ⟨i, h⟩ else none) else none

/-- The order of R88: the pairs (freq, arena index) compared lexicographically. -/
def keyLt (A : Arena) (i j : NodeIx) : Bool :=
  decide ((A.get i).freq < (A.get j).freq) || (decide ((A.get i).freq = (A.get j).freq) && decide (i < j))

/-- `argmin` of the key over a list of indices with first member `i` (00_scope.md R8). -/
def argmin (A : Arena) (i : NodeIx) (L : List NodeIx) : NodeIx := L.foldl (fun m j => if keyLt A j m then j else m) i

/-- Removes the least member of L: its index, and the arena with its `live` bit cleared (R87). -/
def removeMin (A : Arena) (n : Nat) : Option (NodeIx × Arena) :=
  match liveSet A n with
  | [] => none
  | i :: L => some (argmin A i L, A.set (argmin A i L) (A.get (argmin A i L)).kill)

/-- The merge loop of R87 on the arena and NNODE: the first node removed becomes the left child, the second the right
(R89). Every turn makes L one smaller, so |L| at entry is fuel enough. -/
def mergeLoop : Nat → Arena → Nat → Arena × Nat
  | 0, A, n => (A, n)
  | fuel + 1, A, n =>
    if (liveSet A n).length ≤ 1 then (A, n)
    else
      match removeMin A n with
      | none => (A, n)
      | some (a, A₁) =>
        match removeMin A₁ n with
        | none => (A, n)
        | some (b, A₂) =>
          mergeLoop fuel (A₂.setIfInBounds n (.internal ((A₂.get a).freq + (A₂.get b).freq) a b true)) (n + 1)

/-- The arena and NNODE at the end of the merge loop, from FREQ, K and the arena at entry (R86, R87). -/
def buildTree (f : FreqTable) (k : Nat) (A : Arena) : Arena × Nat :=
  mergeLoop (liveSet (leafStep f A) k).length (leafStep f A) k

/-- The rule of phase TREE (R85 to R87): ROOT is the one index left in L. -/
def treeRule (s : State) : State :=
  let t := buildTree s.work.freq s.work.k.toNat s.work.node
  let root := (liveSet t.1 t.2).headD (Config.freeIndex s.draws)
  (s.setWork { s.work with node := t.1, nnode := BitVec.ofNat 10 t.2, root := root }).setPhase
    (if s.status.op = .compress then .code else .trav)

/-- TREE (41_tree_builder.md R85). -/
def execTree (s : State) : Host.Outcome State Fault Refusal := .next (treeRule s)

end Sys2Proof.Machine
end

