-- ==== Sys2Proof/Machine/Dispatch.lean ====
section
/-! DEFINITION. The meaning of each instruction. -/

namespace Sys2Proof.Machine

def exec (i : Instr) (s : State) : Host.Outcome State Fault Refusal :=
  match i with
  | .compress => Sys2Proof.Machine.execCompress s
  | .decompress => Sys2Proof.Machine.execDecompress s
  | .freq => Sys2Proof.Machine.execFreq s
  | .tree => Sys2Proof.Machine.execTree s
  | .code => Sys2Proof.Machine.execCode s
  | .hdrw => Sys2Proof.Machine.execHdrw s
  | .pack => Sys2Proof.Machine.execPack s
  | .hdrr => Sys2Proof.Machine.execHdrr s
  | .trav => Sys2Proof.Machine.execTrav s

end Sys2Proof.Machine
end

