-- ==== Sys2Proof/Machine/HostMoves.lean ====
section
/-! DEFINITION. The engine's step (10_state.md R17) and the host's moves (20_memory.md R41 to R43, 30_encoding.md R71,
R72, 70_reset_and_hazards.md R160, R161). -/

namespace Sys2Proof.Machine

/-- The instruction a fetch word gives the block: it runs; a word that is none has the effect `otherwise`. -/
def runWord (f : FetchWord) (s : State) (otherwise : Host.Outcome State Fault Refusal) :
    Host.Outcome State Fault Refusal :=
  match decode f with
  | .ok i => exec i s
  | .error _ => otherwise

/-- The engine's step: while BUSY = 1 it executes the whole phase PHASE names; when BUSY = 0 it has none and all state is
retained (10_state.md R17, 60_exceptions.md R150). -/
def engineStep (s : State) : Host.Outcome State Fault Refusal :=
  if s.status.busy then runWord (.phase s.status.phase.bits) s (.fault .noPhase) else .next s

/-- A host write of w to CMD: the command runs, or `Accept` answers E_CMD (10_state.md R13, 60_exceptions.md R152). -/
def writeCmd (w : Word) (s : State) : Host.Outcome State Fault Refusal := runWord (.cmd w) s (.next (s.accept w))

/-- A host write of a register (10_state.md R11, 20_memory.md R41). -/
def writeReg (off width : Nat) (v : Word64) (s : State) : Host.Outcome State Fault Refusal :=
  if off ≥ 0x18 then .next s
  else if off = 0x00 ∧ width = 32 then writeCmd (v.setWidth 32) s
  else if off = 0x04 ∧ width = 32 then .next s
  else if off = 0x08 ∧ width = 64 then .next (if s.status.busy then s else { s with inLen := v })
  else if off = 0x10 ∧ width = 64 then .next s
  else .refused .badRegAccess

/-- A host read of a register, the value zero-extended to 64 bits (10_state.md R11, 20_memory.md R41). -/
def readReg (off width : Nat) (s : State) : Host.Outcome State Fault Refusal :=
  if off ≥ 0x18 then .next (s.hear 0)
  else if off = 0x00 ∧ width = 32 then .next (s.hear 0)
  else if off = 0x04 ∧ width = 32 then .next (s.hear (s.status.word.setWidth 64))
  else if off = 0x08 ∧ width = 64 then .next (s.hear s.inLen)
  else if off = 0x10 ∧ width = 64 then .next (s.hear s.outLen)
  else .refused .badRegAccess

/-- A host write of IN (20_memory.md R42): ignored at and above IN_CAP, forbidden while BUSY = 1 (the order is R42's, log
entry 9). -/
def writeIn (a : Nat) (v : Byte) (s : State) : Host.Outcome State Fault Refusal :=
  if a ≥ s.cfg.inCap.toNat then .next s
  else if s.status.busy then .refused .inWriteWhileBusy
  else .next { s with inMem := s.inMem.put a v }

/-- A host read of OUT (20_memory.md R43). Every read that the rule leaves unspecified draws afresh. -/
def readOut (a : Nat) (s : State) : State :=
  { s.hear ((s.outByte a).setWidth 64) with draws := if s.outValid a then s.draws else s.draws + 1 }

/-- Reset (70_reset_and_hazards.md R160, R161): STATUS, IN_LEN and OUT_LEN become 0, IN, OUT and the scratch state
unspecified; a running operation is abandoned. The configuration, the turns to come and what the host has read are not the
block's to change (log entry 11). -/
def applyReset (s : State) : State :=
  { s.discard with
    status := Status.reset, inLen := 0, outLen := 0, inMem := [], outMem := [], epoch := s.epoch + 1 }

/-! ### Pseudo-operations (30_encoding.md R72; log entry 17) -/

/-- The moves `LOAD b0 b1 …` stands for. -/
def load (B : List Byte) : List HostMove :=
  (B.zipIdx.map fun (v, a) => .wrIn a v) ++ [.wrReg 0x08 64 (BitVec.ofNat 64 B.length)]

/-- The moves `y = compress(X)` stands for. -/
def callCompress (X : List Byte) : List HostMove := load X ++ [.wrReg 0x00 32 0x1, .wait, .result]

/-- The moves `y = decompress(C)` stands for. -/
def callDecompress (C : List Byte) : List HostMove := load C ++ [.wrReg 0x00 32 0x2, .wait, .result]

/-- The moves `DUMP` stands for, L being the OUT_LEN its first read gives. -/
def dumpMoves (L : Nat) : List HostMove := .rdReg 0x10 64 :: (List.range L).map .rdOut

/-- The moves `COPYBACK` stands for: nothing can change OUT between a read and its write back, since BUSY = 0. -/
def copybackMoves (s : State) : List HostMove :=
  .rdReg 0x10 64 :: (List.range s.outLen.toNat).flatMap (fun a => [.rdOut a, .wrIn a (s.outByte a)])
    ++ [.wrReg 0x08 64 s.outLen]

/-- Puts moves before the turns to come. -/
def State.expand (s : State) (ms : List HostMove) : State := { s with turns := ms.map .host ++ s.turns }

/-- A host move, with the turns after it in `s`. `WAIT` with BUSY = 1 is a poll that does not end it: the engine, being
weakly fair (70_reset_and_hazards.md R170), takes its step and the host polls again (log entry 16). -/
def hostStep (m : HostMove) (s : State) : Host.Outcome State Fault Refusal :=
  match m with
  | .reset => .next (applyReset s)
  | .wrIn a v => writeIn a v s
  | .wrOut _ _ => .next s
  | .wrReg off width v => writeReg off width v s
  | .rdReg off width => readReg off width s
  | .rdIn a => .next (s.hear ((s.inRead a).setWidth 64))
  | .rdOut a => .next (readOut a s)
  | .wait => if s.status.busy then engineStep (s.expand [.wait]) else .next (s.hear (s.status.word.setWidth 64))
  | .dump => .next (s.expand (dumpMoves s.outLen.toNat))
  | .copyback =>
    if !s.status.busy && s.status.done && !s.status.err then .next (s.expand (copybackMoves s))
    else .refused .copybackWithoutResult
  | .result =>
    .next (if s.status.err then s.hear (s.status.errcode.bits.setWidth 64) else s.expand (dumpMoves s.outLen.toNat))

end Sys2Proof.Machine
end

