-- ==== Sys2Proof/Machine/Fetch.lean ====
section
/-! DEFINITION. Putting an instruction where the block takes its next one from (log entry 10): a command is the host's next
move, a phase is the value of PHASE while BUSY = 1. -/

namespace Sys2Proof.Machine

/-- The operation a phase belongs to (10_state.md R17): TREE belongs to both, and the one already latched stays. -/
def opRunning (p : Phase) (op : Op) : Op :=
  match p with
  | .idle => op
  | .freq | .code | .hdrw | .pack => .compress
  | .hdrr | .trav => .decompress
  | .tree => if op = .noOp then .compress else op

/-- STATUS while an operation stands before phase p. -/
def runningStatus (p : Phase) (t : Status) : Status := ⟨true, false, false, .noError, p, opRunning p t.op⟩

/-- The state whose very next step runs the instruction of a fetch word. -/
def placeWord (f : FetchWord) (s : State) : State :=
  match f with
  | .cmd w => { s with turns := .host (.wrReg 0x00 32 (w.setWidth 64)) :: s.turns }
  | .phase _ =>
    match decode f with
    | .ok i => { s with status := runningStatus (i.phase.getD .idle) s.status, turns := .engine :: s.turns }
    | .error _ => s

end Sys2Proof.Machine
end

