-- ==== Sys2Proof/Machine/Step.lean ====
section
/-! DEFINITION. The step of HUFFCORE and its host: the agent whose turn it is acts once. -/

namespace Sys2Proof.Machine

/-- One step. With no turn given the engine has it, which is its weak fairness (70_reset_and_hazards.md R170). -/
def step (s : State) : Host.Outcome State Fault Refusal :=
  match s.turns with
  | [] => engineStep s
  | .engine :: ts => engineStep { s with turns := ts }
  | .host m :: ts => hostStep m { s with turns := ts }

/-- `s` with an instruction of opcode_table.json placed so that the very next step runs it (log entry 10). -/
def State.withFetchWord (s : State) (nbits w : Nat) : State :=
  match FetchWord.ofTable nbits w with
  | some f => placeWord f s
  | none => s

end Sys2Proof.Machine
end

