-- ==== Sys2Proof/Safety.lean ====
section
/-! DEFINITION. The terms claims are stated in: legal STATUS values, the invariants of a run, the conditions the rules
state at the ends of phases, and what a command as a whole does. -/

namespace Sys2Proof.Machine

/-! ### STATUS -/

namespace Status

/-- The phases the operation `op` goes through (10_state.md R17, 45_compressor.md R122, 46_decompressor.md R132). -/
def runs (op : Op) (p : Phase) : Bool :=
  match op, p with
  | .compress, .freq | .compress, .tree | .compress, .code | .compress, .hdrw | .compress, .pack => true
  | .decompress, .hdrr | .decompress, .tree | .decompress, .trav => true
  | _, _ => false

/-- Where each error code can come from: the operation and the PHASE left in STATUS (60_exceptions.md R141). -/
def errorFrom (e : ErrCode) (p : Phase) (op : Op) : Bool :=
  match e, p, op with
  | .cmd, .idle, .noOp => true
  | .len, .idle, .compress | .len, .idle, .decompress => true
  | .hdrTrunc, .hdrr, .decompress | .hdrBad, .hdrr, .decompress => true
  | .payloadTrunc, .trav, .decompress => true
  | .outOvf, .hdrw, .compress | .outOvf, .pack, .compress | .outOvf, .hdrr, .decompress => true
  | _, _, _ => false

/-- The STATUS values a run can show: idle after reset, running, ended well, ended in error (10_state.md R14, R17,
60_exceptions.md R141). -/
def legal (t : Status) : Bool :=
  match t.busy, t.done, t.err with
  | false, false, false => t == Status.reset
  | true, false, false => t.errcode == .noError && runs t.op t.phase
  | false, true, false => t.errcode == .noError && t.phase == .idle && t.op != .noOp
  | false, true, true => errorFrom t.errcode t.phase t.op
  | _, _, _ => false

/-- STATUS of an operation that ended well. -/
def success (op : Op) : Status := ⟨false, true, false, .noError, .idle, op⟩

/-- STATUS of an operation that ended in an error. -/
def failure (op : Op) (e : ErrCode) (p : Phase) : Status := ⟨false, true, true, e, p, op⟩

end Status

/-! ### What a step leaves alone -/

/-- What no instruction touches: the configuration, IN, IN_LEN, the turns to come, what the host has read. -/
structure SameHostSide (s t : State) : Prop where
  cfg : t.cfg = s.cfg
  inLen : t.inLen = s.inLen
  inMem : t.inMem = s.inMem
  inByte : ∀ a, t.inByte a = s.inByte a
  turns : t.turns = s.turns
  heard : t.heard = s.heard

/-- The operation has ended with this STATUS and OUT_LEN, and has touched nothing on the host's side. -/
structure Ended (s t : State) (st : Status) (len : Nat) : Prop where
  status : t.status = st
  outLen : t.outLen.toNat = len
  host : SameHostSide s t

/-- OUT holds the bytes B from address a on. -/
def Holds (m : Memory) (a : Nat) (B : List Byte) : Prop := ∀ q, q < B.length → m.get (a + q) = B[q]?

/-! ### The tables at the ends of phases -/

/-- The precondition of TREE (41_tree_builder.md R85), which FREQ and HDRR establish (40_frequency_analyzer.md R81,
43_header_codec.md R103). -/
structure FreqOk (w : Scratch) : Prop where
  one_le : 1 ≤ w.k.toNat
  le_maxk : w.k.toNat ≤ Config.maxk
  distinct : (present w.freq).length = w.k.toNat
  sum : ((present w.freq).map fun r => r.2.toNat).sum = w.total.toNat

/-- `path(i) = p` (42_code_table_generator.md R95): the root has the empty path, a left child its parent's path and 0, a
right child its parent's path and 1. -/
inductive PathTo (A : Arena) (root : NodeIx) : NodeIx → Bits → Prop
  | root : PathTo A root root []
  | left {i p f l r v} : PathTo A root i p → A.get i = .internal f l r v → PathTo A root l (p ++ [false])
  | right {i p f l r v} : PathTo A root i p → A.get i = .internal f l r v → PathTo A root r (p ++ [true])

/-- Node c is a child of the internal node i. -/
def IsChild (A : Arena) (c i : NodeIx) : Prop := ∃ f l r v, A.get i = .internal f l r v ∧ (c = l ∨ c = r)

/-- The shape invariants at the end of TREE (41_tree_builder.md R91, with NNODE and ROOT of R87). -/
structure TreeOk (w : Scratch) : Prop where
  nnode : w.nnode.toNat = 2 * w.k.toNat - 1
  root : w.root.val = 2 * w.k.toNat - 2
  /-- (a), the leaves: one per symbol with FREQ[s] > 0, in ascending symbol order. -/
  leaves : ∀ j : NodeIx, j.val < w.k.toNat →
    ∃ r v, (present w.freq)[j.val]? = some r ∧ w.node.get j = .leaf r.2 r.1 v
  /-- (a) and (b), the internal nodes: both children stand below them and differ. -/
  inner : ∀ i : NodeIx, w.k.toNat ≤ i.val → i.val ≤ w.root.val →
    ∃ f l r v, w.node.get i = .internal f l r v ∧ l < i ∧ r < i ∧ l ≠ r
  /-- (c): every index but ROOT is the child of exactly one internal node. -/
  owned : ∀ c : NodeIx, c < w.root → ∃! i : NodeIx, i ≤ w.root ∧ IsChild w.node c i
  /-- (d): only ROOT is live. -/
  live : ∀ i : NodeIx, i ≤ w.root → (w.node.get i).live = decide (i = w.root)
  /-- (e): a leaf is at most K − 1 edges deep. -/
  depth : ∀ i p, PathTo w.node w.root i p → (w.node.get i).isLeaf = true → p.length ≤ w.k.toNat - 1

/-- The frequency invariants at the end of TREE (41_tree_builder.md R92). -/
structure TreeFreqOk (w : Scratch) : Prop where
  leaf : ∀ (i : NodeIx) f sym v, i ≤ w.root → w.node.get i = .leaf f sym v → f = freqAt w.freq sym
  inner : ∀ (i : NodeIx) f l r v, i ≤ w.root → w.node.get i = .internal f l r v →
    f.toNat = (w.node.get l).freq.toNat + (w.node.get r).freq.toNat
  root : (w.node.get w.root).freq = w.total
  range : ∀ i : NodeIx, i ≤ w.root → 1 ≤ (w.node.get i).freq.toNat ∧ (w.node.get i).freq.toNat ≤ w.total.toNat

/-- The header HDRW writes for the tables of `w` (43_header_codec.md R100). -/
def headerOf (w : Scratch) : Header := ⟨(present w.freq).map fun r => ⟨r.1, r.2⟩, w.total⟩

/-! ### Invariants -/

/-- What the scratch state holds while BUSY = 1, by the phase that runs next (the preconditions that R85, R95, R100, R112
and R114 state). -/
def WorkOk (s : State) : Prop :=
  match s.status.phase with
  | .idle | .freq | .hdrr => True
  | .tree =>
    FreqOk s.work ∧ (s.status.op = .decompress →
      s.work.total.toNat ≤ s.cfg.outCap.toNat ∧ s.work.iptr.toNat = 5 * s.work.k.toNat + 8 ∧
        s.work.iptr.toNat ≤ s.inLen.toNat)
  | .code | .hdrw => FreqOk s.work
  | .pack =>
    s.work.optr.toNat ≤ s.cfg.outCap.toNat ∧ ∀ a, a < s.work.optr.toNat → (s.outMem.get a).isSome
  | .trav =>
    FreqOk s.work ∧ s.work.total.toNat ≤ s.cfg.outCap.toNat ∧ s.work.iptr.toNat = 5 * s.work.k.toNat + 8 ∧
      s.work.iptr.toNat ≤ s.inLen.toNat

/-- The invariant of every run. -/
structure State.Inv (s : State) : Prop where
  inWf : s.inMem.wf
  outWf : s.outMem.wf
  /-- No cell lies beyond a buffer's capacity (10_state.md R12). -/
  inBound : ∀ c ∈ s.inMem, c.1 < s.cfg.inCap.toNat
  outBound : ∀ c ∈ s.outMem, c.1 < s.cfg.outCap.toNat
  /-- (10_state.md R14, R17, 60_exceptions.md R141.) -/
  legal : s.status.legal = true
  /-- OUT_LEN is 0 unless a command has ended well (10_state.md R16). -/
  outLenZero : (s.status.done && !s.status.err) = false → s.outLen = 0
  /-- A result lies within OUT and every byte of it was written (10_state.md R12, 20_memory.md R43). -/
  outLenFits : s.outLen.toNat ≤ s.cfg.outCap.toNat
  outWritten : ∀ a, a < s.outLen.toNat → (s.outMem.get a).isSome
  /-- `Accept` has checked IN_LEN (10_state.md R13). -/
  lengths : s.status.busy = true →
    s.inLen.toNat ≤ s.cfg.inCap.toNat ∧ (s.status.op = .compress → s.inLen.toNat ≤ Config.maxn)
  work : s.status.busy = true → WorkOk s

/-- What the tables hold while BUSY = 1: FREQ the counts of the input in COMPRESS, NODE a tree from TREE to the phases that
read it, CODE a code word for every input byte before PACK. -/
structure State.TablesInv (s : State) : Prop where
  counts : s.status.busy = true → s.status.op = .compress →
    (s.status.phase = .tree ∨ s.status.phase = .code ∨ s.status.phase = .hdrw) → s.work.freq = countBytes s.input
  tree : s.status.busy = true →
    (s.status.phase = .code ∨ s.status.phase = .hdrw ∨ s.status.phase = .trav) → TreeOk s.work ∧ TreeFreqOk s.work
  table : s.status.busy = true → s.status.phase = .hdrw → s.work.code = codeTable s.work.node s.work.root
  coded : s.status.busy = true → s.status.phase = .pack →
    ∀ b ∈ s.input, 1 ≤ (codeAt s.work.code b).length ∧ (codeAt s.work.code b).length ≤ Config.maxlen

/-! ### A command as a whole -/

/-- The state whose next turn is the host's write of w to CMD, no turn after it. -/
def issue (w : Word) (s : State) : State := { s with turns := [.host (.wrReg 0x00 32 (w.setWidth 64))] }

/-- `n` steps, stopping at the first fault or refusal. -/
def steps : Nat → State → Host.Outcome State Fault Refusal
  | 0, s => .next s
  | n + 1, s =>
    match step s with
    | .next t => steps n t
    | .fault f => .fault f
    | .refused r => .refused r

/-- A write of w to CMD and as many engine steps as any operation takes (70_reset_and_hazards.md R170). -/
def runCommand (w : Word) (s : State) : Host.Outcome State Fault Refusal := steps 6 (issue w s)

/-- The command has ended well with the result Y, and IN and IN_LEN are what they were. -/
def Succeeds (w : Word) (s : State) (op : Op) (Y : List Byte) : Prop :=
  ∃ t, runCommand w s = .next t ∧ t.status = Status.success op ∧ t.output = Y ∧ t.inMem = s.inMem ∧ t.inLen = s.inLen

/-- The command has ended in an error, nothing of a result is presented, and IN and IN_LEN are what they were. -/
def Fails (w : Word) (s : State) (op : Op) (e : ErrCode) (p : Phase) : Prop :=
  ∃ t, runCommand w s = .next t ∧ t.status = Status.failure op e p ∧ t.outLen = 0 ∧ t.inMem = s.inMem ∧
    t.inLen = s.inLen

/-- The arena and ROOT that TREE builds from FREQ, starting from a blank arena. -/
def treeOf (f : FreqTable) : Arena × NodeIx :=
  let t := buildTree f (present f).length Scratch.zero.node
  (t.1, (liveSet t.1 t.2).headD 0)

/-- The code table of FREQ (42_code_table_generator.md R97 (e)). -/
def codesOf (f : FreqTable) : CodeTable := codeTable (treeOf f).1 (treeOf f).2

/-- The closed form of `compress(X)` (45_compressor.md R123). -/
def compressed (X : List Byte) : List Byte :=
  if X = [] then []
  else
    be (present (countBytes X)).length
      ++ (present (countBytes X)).flatMap (fun r => r.1 :: be r.2.toNat)
      ++ be X.length
      ++ packBits (codeBits (codesOf (countBytes X)) X)

end Sys2Proof.Machine
end

