-- ==== Sys2Proof/Certificates/Slice0/Obligations.lean ====
section
/-! DEFINITION. The statements about HUFFCORE, each from the numbered rules of spec/. -/

section

open Sys2Proof Sys2Proof.Machine

/-! ### Encodings -/

/-- 30_encoding.md R62 and R73: the words of the commands and the PHASE codes stand for these instructions, PHASE 0 for
none, 8 to 15 are reserved. -/
def Obligations.TableWordsDecode : Prop :=
  decode (.cmd 0x00000001) = .ok .compress ∧ decode (.cmd 0x00000002) = .ok .decompress ∧
  decode (.phase 0x0) = .error .idlePhase ∧ decode (.phase 0x1) = .ok .freq ∧ decode (.phase 0x2) = .ok .tree ∧
  decode (.phase 0x3) = .ok .code ∧ decode (.phase 0x4) = .ok .hdrw ∧ decode (.phase 0x5) = .ok .pack ∧
  decode (.phase 0x6) = .ok .hdrr ∧ decode (.phase 0x7) = .ok .trav ∧
  ∀ p : BitVec 4, 8 ≤ p.toNat → decode (.phase p) = .error .reservedPhase

/-- 30_encoding.md R63, 60_exceptions.md R152: every other word is illegal. Written while BUSY = 0, whatever IN_LEN holds,
it starts no operation and ends at once with E_CMD, PHASE 0, OP 0 and OUT_LEN = 0; IN and IN_LEN stay. -/
def Obligations.IllegalCommandReportsECmd : Prop :=
  ∀ w : Word, w ≠ 0x00000001 → w ≠ 0x00000002 →
    decode (.cmd w) = .error .illegalCommand ∧
    ∀ s : State, s.status.busy = false →
      ∃ t, step (issue w s) = .next t ∧ Ended { s with turns := [] } t (Status.failure .noOp .cmd .idle) 0 ∧
        t.status.word = 0x00000016 ∧ ∀ a, t.outMem.get a = none

/-- 30_encoding.md R64: the places of STATUS's fields, every other bit 0, the ERRCODE values, and the rule's worked values. -/
def Obligations.StatusWordFields : Prop :=
  ∀ t : Status,
    t.word.extractLsb' 0 1 = BitVec.ofBool t.busy ∧ t.word.extractLsb' 1 1 = BitVec.ofBool t.done ∧
    t.word.extractLsb' 2 1 = BitVec.ofBool t.err ∧ t.word.extractLsb' 3 1 = 0 ∧
    t.word.extractLsb' 4 4 = t.errcode.bits ∧ t.word.extractLsb' 8 4 = t.phase.bits ∧
    t.word.extractLsb' 12 4 = 0 ∧ t.word.extractLsb' 16 2 = t.op.bits ∧ t.word.extractLsb' 18 14 = 0 ∧
    [ErrCode.noError, .cmd, .len, .hdrTrunc, .hdrBad, .payloadTrunc, .outOvf].map ErrCode.bits = [0, 1, 2, 3, 4, 5, 6] ∧
    Status.reset.word = 0x00000000 ∧ Status.word ⟨true, false, false, .noError, .pack, .compress⟩ = 0x00010501 ∧
    (Status.success .compress).word = 0x00010002 ∧ (Status.failure .decompress .payloadTrunc .trav).word = 0x00020756 ∧
    (Status.failure .noOp .cmd .idle).word = 0x00000016

/-- 00_scope.md R7: byte i of BE(v) is bits 8·(CW−1−i)+7 to 8·(CW−1−i) of v, and UBE is the inverse. -/
def Obligations.IntegerFieldsRoundTrip : Prop :=
  (∀ v, v < 2 ^ 32 → (be v).length = Config.cw ∧ ube (be v) = v ∧
    ∀ i, i < Config.cw →
      (be v)[i]? = some ((BitVec.ofNat 32 v).extractLsb' (8 * (Config.cw - 1 - i)) 8)) ∧
  (∀ B : List Byte, B.length = Config.cw → ube B < 2 ^ 32 ∧ be (ube B) = B ∧
    ube B = ((List.range Config.cw).map fun i => (B.getD i 0).toNat * 2 ^ (8 * (Config.cw - 1 - i))).sum) ∧
  be 11 = [0x00, 0x00, 0x00, 0x0b] ∧ ube [0x00, 0x00, 0x01, 0x00] = 256

/-- The header codec of 30_encoding.md R65 to R67 reads back every well-formed header, whatever its symbols, counts and
order, and leaves the payload. -/
def Obligations.DecodeHeaderOfEncodeHeader : Prop :=
  ∀ (h : Header) (payload : List Byte), h.wellFormed = true →
    decodeHeader (encodeHeader h ++ payload) = .ok (h, payload)

/-- The other direction: what decodes to a header with records is that header's encoding, and the header is well formed;
so each container has one reading. -/
def Obligations.EncodeHeaderOfDecodeHeader : Prop :=
  ∀ (C : List Byte) (h : Header) (payload : List Byte), decodeHeader C = .ok (h, payload) → h.records ≠ [] →
    h.wellFormed = true ∧ C = encodeHeader h ++ payload

/-- 43_header_codec.md R101: a header with K records has 5·K + 8 bytes; the payload starts there. -/
def Obligations.HeaderLength : Prop :=
  ∀ h : Header, (encodeHeader h).length = Config.cw + h.records.length * (1 + Config.cw) + Config.cw ∧
    (encodeHeader h).length = 5 * h.records.length + 8 ∧
    ∀ (payload : List Byte) q, (encodeHeader h ++ payload)[5 * h.records.length + 8 + q]? = payload[q]?

/-- 20_memory.md R45: bit t of the packed sequence is bit 7 − (t mod 8) of byte t div 8; 30_encoding.md R68: the rest of
the last byte is zeros, fewer than 8 of them; and unpacking gives the bits back. -/
def Obligations.PayloadBitsRoundTrip : Prop :=
  ∀ bs : Bits,
    (packBits bs).length = (bs.length + 7) / 8 ∧
    (∀ t, t < 8 * (packBits bs).length →
      ((packBits bs).getD (t / 8) 0).getLsbD (7 - t % 8) = bs.getD t false) ∧
    ∃ n, n < 8 ∧ unpackBits (packBits bs) = bs ++ List.replicate n false

/-! ### Commands, registers and the host -/

/-- 45_compressor.md R121: the acceptance of COMPRESS. While BUSY = 1 it is ignored; a length beyond IN_CAP or MAXN gives
E_LEN (STATUS 0x0001_0026, no phase runs); otherwise BUSY = 1 and PHASE = FREQ (STATUS 0x0001_0101). -/
def Obligations.CompressAcceptance : Prop :=
  ∀ s : State,
    (s.status.busy = true → exec .compress s = .next s) ∧
    (s.status.busy = false → (s.inLen.toNat > s.cfg.inCap.toNat ∨ s.inLen.toNat > Config.maxn) →
      ∃ t, exec .compress s = .next t ∧ Ended s t (Status.failure .compress .len .idle) 0 ∧
        t.status.word = 0x00010026) ∧
    (s.status.busy = false → s.inLen.toNat ≤ s.cfg.inCap.toNat → s.inLen.toNat ≤ Config.maxn →
      ∃ t, exec .compress s = .next t ∧ Ended s t ⟨true, false, false, .noError, .freq, .compress⟩ 0 ∧
        t.status.word = 0x00010101 ∧ ∀ a, t.outMem.get a = none)

/-- 46_decompressor.md R131: the acceptance of DECOMPRESS. The MAXN limit does not apply. -/
def Obligations.DecompressAcceptance : Prop :=
  ∀ s : State,
    (s.status.busy = true → exec .decompress s = .next s) ∧
    (s.status.busy = false → s.inLen.toNat > s.cfg.inCap.toNat →
      ∃ t, exec .decompress s = .next t ∧ Ended s t (Status.failure .decompress .len .idle) 0 ∧
        t.status.word = 0x00020026) ∧
    (s.status.busy = false → s.inLen.toNat ≤ s.cfg.inCap.toNat →
      ∃ t, exec .decompress s = .next t ∧ Ended s t ⟨true, false, false, .noError, .hdrr, .decompress⟩ 0 ∧
        t.status.word = 0x00020601 ∧ ∀ a, t.outMem.get a = none)

/-- 70_reset_and_hazards.md R165: a write to CMD while BUSY = 1 changes nothing, whatever the word; it is not queued. -/
def Obligations.CommandWhileBusyChangesNothing : Prop :=
  ∀ (s : State) (w : Word) (v : Word64) (ts : List Turn), s.status.busy = true → v.setWidth 32 = w →
    s.turns = .host (.wrReg 0x00 32 v) :: ts → step s = .next { s with turns := ts }

/-- 10_state.md R11 and 20_memory.md R41: what a host read of each register returns; no read changes anything but the
host's record (20_memory.md R48); any other access below 0x18 is refused; from 0x18 on reads give 0. -/
def Obligations.RegisterReads : Prop :=
  ∀ s : State,
    readReg 0x00 32 s = .next (s.hear 0) ∧
    readReg 0x04 32 s = .next (s.hear (s.status.word.setWidth 64)) ∧
    readReg 0x08 64 s = .next (s.hear s.inLen) ∧
    readReg 0x10 64 s = .next (s.hear s.outLen) ∧
    (∀ off width, 0x18 ≤ off → readReg off width s = .next (s.hear 0)) ∧
    ∀ off width, off < 0x18 → (off, width) ∉ [(0x00, 32), (0x04, 32), (0x08, 64), (0x10, 64)] →
      readReg off width s = .refused .badRegAccess ∧ ∀ v, writeReg off width v s = .refused .badRegAccess

/-- 10_state.md R11, R15: IN_LEN takes a host write while BUSY = 0 and ignores it while BUSY = 1; STATUS, OUT_LEN and the
reserved offsets ignore writes. -/
def Obligations.RegisterWrites : Prop :=
  ∀ (s : State) (v : Word64),
    (s.status.busy = false → writeReg 0x08 64 v s = .next { s with inLen := v }) ∧
    (s.status.busy = true → writeReg 0x08 64 v s = .next s) ∧
    writeReg 0x04 32 v s = .next s ∧ writeReg 0x10 64 v s = .next s ∧
    (∀ off width, 0x18 ≤ off → writeReg off width v s = .next s) ∧
    writeReg 0x00 32 v s = .next (s.accept (v.setWidth 32))

/-- 20_memory.md R42: a host write of IN at or above IN_CAP is ignored, below it is refused while BUSY = 1 and otherwise
sets that byte and no other; a read at or above IN_CAP gives 0. The order of the two checks on a write is the model's reading
(log entry 9). -/
def Obligations.InBufferAccess : Prop :=
  ∀ (s : State) (a : Nat) (v : Byte),
    (s.cfg.inCap.toNat ≤ a → writeIn a v s = .next s ∧ s.inRead a = 0) ∧
    (a < s.cfg.inCap.toNat → s.status.busy = true → writeIn a v s = .refused .inWriteWhileBusy) ∧
    (a < s.cfg.inCap.toNat → s.status.busy = false →
      ∃ t, writeIn a v s = .next t ∧ t = { s with inMem := t.inMem } ∧ t.inRead a = v ∧
        ∀ b, b ≠ a → t.inByte b = s.inByte b)

/-- 20_memory.md R43: a host read of OUT[a] returns the byte the operation wrote there when DONE = 1, ERR = 0 and
a < OUT_LEN; in every other case an unspecified byte, drawn afresh; it changes nothing but the host's record and, in that
case, the count of draws. A host write of OUT is ignored. The form of the draw is the model's (log entry 4). -/
def Obligations.OutBufferAccess : Prop :=
  ∀ (s : State) (a : Nat) (v : Byte),
    hostStep (.wrOut a v) s = .next s ∧
    ((s.status.done = true ∧ s.status.err = false ∧ a < s.outLen.toNat) → ∀ b, s.outMem.get a = some b →
      hostStep (.rdOut a) s = .next (s.hear (b.setWidth 64))) ∧
    (¬(s.status.done = true ∧ s.status.err = false ∧ a < s.outLen.toNat) →
      hostStep (.rdOut a) s =
        .next { s.hear ((Config.freeByte s.draws).setWidth 64) with draws := s.draws + 1 })

/-- 70_reset_and_hazards.md R160, R161: reset, at any moment, gives STATUS = 0, IN_LEN = 0, OUT_LEN = 0 and leaves no byte
of IN or OUT with a value; no Finish and no error happens, and the engine has no step. -/
def Obligations.ResetIdlesTheBlock : Prop :=
  ∀ s : State,
    ∃ t, hostStep .reset s = .next t ∧ t.status.word = 0 ∧ t.inLen = 0 ∧ t.outLen = 0 ∧ t.cfg = s.cfg ∧
      (∀ a, t.inMem.get a = none ∧ t.outMem.get a = none) ∧ engineStep t = .next t

/-- 60_exceptions.md R143: error entry. -/
def Obligations.RaiseErrReports : Prop :=
  ∀ (s : State) (e : ErrCode),
    Ended s (s.raise e) ⟨false, true, true, e, s.status.phase, s.status.op⟩ 0 ∧
      ∀ a, (s.raise e).outMem.get a = none

/-- 60_exceptions.md R144: normal completion. -/
def Obligations.FinishReports : Prop :=
  ∀ (s : State) (len : Word64),
    Ended s (s.finish len) ⟨false, true, false, .noError, .idle, s.status.op⟩ len.toNat ∧
      ∀ a, (s.finish len).outMem.get a = if a < len.toNat then s.outMem.get a else none

/-- 60_exceptions.md R148: BUSY goes from 0 to 1 only by a host write of a command word to CMD, and from 1 to 0 only in
an engine step or by reset. -/
def Obligations.OnlyCommandsStartOperations : Prop :=
  ∀ s t : State, step s = .next t →
    (s.status.busy = false → t.status.busy = true →
      ∃ v ts, s.turns = .host (.wrReg 0x00 32 v) :: ts ∧
        (v.setWidth 32 = (0x00000001 : Word) ∨ v.setWidth 32 = (0x00000002 : Word))) ∧
    (s.status.busy = true → t.status.busy = false →
      s.turns = [] ∨ ∃ ts, s.turns = .engine :: ts ∨ s.turns = .host .wait :: ts ∨ s.turns = .host .reset :: ts)

/-- The block's step runs what it fetches: while BUSY = 1 and the engine has the turn, the phase whose code PHASE holds
(10_state.md R17); at a host write of a command word to CMD, that command (10_state.md R13). That the engine has the turn when
the list of turns is empty is the model's choice (log entry 2). -/
def Obligations.StepRunsTheDecodedInstruction : Prop :=
  (∀ (s : State) (i : Instr), s.status.busy = true → decode (.phase s.status.phase.bits) = .ok i →
    (s.turns = [] → step s = exec i s) ∧
    ∀ ts, s.turns = .engine :: ts → step s = exec i { s with turns := ts }) ∧
  ∀ (s : State) (i : Instr) (v : Word64) (ts : List Turn), s.turns = .host (.wrReg 0x00 32 v) :: ts →
    decode (.cmd (v.setWidth 32)) = .ok i → step s = exec i { s with turns := ts }

/-- 30_encoding.md R72, `WAIT`: with BUSY = 0 it returns STATUS and ends; with BUSY = 1 the engine steps and the host polls
again, the model's form of weak fairness (log entry 16). -/
def Obligations.WaitPollsUntilIdle : Prop :=
  ∀ (s : State) (ts : List Turn), s.turns = .host .wait :: ts →
    (s.status.busy = false →
      step s = .next { s with turns := ts, heard := s.status.word.setWidth 64 :: s.heard }) ∧
    (s.status.busy = true → step s = engineStep s)

/-- No instruction touches the configuration, IN, IN_LEN, the host's turns or what the host has read, whatever state it
runs in (45_compressor.md R122 and 46_decompressor.md R132: IN and IN_LEN are unchanged by the operation).
For the states outside a phase's precondition it is the model's choice (log entries 8 and 14). -/
def Obligations.InstructionsLeaveTheHostSide : Prop :=
  ∀ (i : Instr) (s t : State), exec i s = .next t → SameHostSide s t ∧ t.epoch = s.epoch

/-! ### Phase FREQ -/

/-- 40_frequency_analyzer.md R80: FREQ counts the input. On a non-empty input only FREQ, K, TOTAL and PHASE change; on an
empty one the operation ends with Finish(0). -/
def Obligations.FreqCountsTheInput : Prop :=
  ∀ s : State, s.inLen.toNat ≤ s.cfg.inCap.toNat → s.inLen.toNat ≤ Config.maxn →
    (s.inLen ≠ 0 → ∃ f k n, exec .freq s =
        .next { s with
          status := { s.status with phase := .tree }
          work := { s.work with freq := f, k := k, total := n } } ∧
      (∀ b, (freqAt f b).toNat = s.input.count b) ∧ k.toNat = s.input.dedup.length ∧ n.toNat = s.inLen.toNat) ∧
    (s.inLen = 0 → ∃ t, exec .freq s = .next t ∧ Ended s t (Status.success s.status.op) 0 ∧
      ∀ a, t.outMem.get a = none)

/-- 40_frequency_analyzer.md R81: the FrequencyTable invariants when FREQ ends with PHASE = TREE. -/
def Obligations.FreqTableInvariants : Prop :=
  ∀ s t : State, s.inLen.toNat ≤ s.cfg.inCap.toNat → s.inLen.toNat ≤ Config.maxn →
    exec .freq s = .next t → t.status.phase = .tree →
    FreqOk t.work ∧ t.work.total.toNat = t.inLen.toNat ∧ t.work.k.toNat ≤ t.work.total.toNat ∧
      ∀ b, 1 ≤ (freqAt t.work.freq b).toNat ↔ b ∈ t.input

/-! ### Phase TREE -/

/-- TREE and CODE complete. TREE writes NODE, NNODE, ROOT and PHASE, CODE writes CODE and PHASE, and nothing else changes: the
operands 41_tree_builder.md R85 and 42_code_table_generator.md R95 list. The rules say so under their preconditions only. That
the two complete in EVERY state is the model's choice: outside the preconditions the loops are bounded by fuel and values cut to
their widths (log entry 14), and ROOT with no live node is a free value (log entry 8). -/
def Obligations.TreeAndCodeComplete : Prop :=
  ∀ s : State,
    (∃ A n r, exec .tree s =
      .next { s with
        status := { s.status with phase := if s.status.op = .compress then .code else .trav }
        work := { s.work with node := A, nnode := n, root := r } }) ∧
    ∃ c, exec .code s =
      .next { s with status := { s.status with phase := .hdrw }, work := { s.work with code := c } }

/-- 41_tree_builder.md R91: the shape of the tree at the end of TREE, (a) to (e), with NNODE and ROOT of R87. -/
def Obligations.TreeShape : Prop :=
  ∀ s : State, FreqOk s.work → ∃ t, exec .tree s = .next t ∧ TreeOk t.work

/-- 41_tree_builder.md R92: the frequencies of the tree at the end of TREE. -/
def Obligations.TreeFrequencies : Prop :=
  ∀ s : State, FreqOk s.work → ∃ t, exec .tree s = .next t ∧ TreeFreqOk t.work

/-- 41_tree_builder.md R93: NODE[0 .. 2K−2], NNODE and ROOT at the end of TREE are a function of FREQ alone: not of OP, nor
of the scratch state before. -/
def Obligations.TreeIsAFunctionOfFreq : Prop :=
  ∀ s s' : State, FreqOk s.work → FreqOk s'.work → s.work.freq = s'.work.freq →
    ∃ t t', exec .tree s = .next t ∧ exec .tree s' = .next t' ∧ t.work.nnode = t'.work.nnode ∧
      t.work.root = t'.work.root ∧
      ∀ i : NodeIx, i.val < t.work.nnode.toNat → t.work.node.get i = t'.work.node.get i

/-- 41_tree_builder.md R90: with one symbol the tree is its leaf: freq TOTAL, NNODE = 1, ROOT = 0. -/
def Obligations.TreeOfOneSymbol : Prop :=
  ∀ s : State, FreqOk s.work → s.work.k = 1 →
    ∃ t sym v, exec .tree s = .next t ∧ t.work.node.get 0 = .leaf s.work.total sym v ∧
      freqAt s.work.freq sym = s.work.total ∧ t.work.nnode = 1 ∧ t.work.root = 0

/-- 41_tree_builder.md R88, R89, one turn of R87's loop: the node removed first has the least (freq, index) of all live
nodes and becomes the left child, the one removed second the least of the rest and becomes the right child; both leave L,
the new node joins it, and no other entry changes. -/
def Obligations.MergeTakesTheTwoLeast : Prop :=
  ∀ (fuel n : Nat) (A : Arena), n < 511 → 2 ≤ (liveSet A n).length →
    ∃ a b : NodeIx, a ∈ liveSet A n ∧ b ∈ liveSet A n ∧ a ≠ b ∧
      (∀ j ∈ liveSet A n, j ≠ a → keyLt A a j = true) ∧
      (∀ j ∈ liveSet A n, j ≠ a → j ≠ b → keyLt A b j = true) ∧
      ∃ A' : Arena, mergeLoop (fuel + 1) A n = mergeLoop fuel A' (n + 1) ∧
        (∀ j : NodeIx, j.val = n → A'.get j = .internal ((A.get a).freq + (A.get b).freq) a b true) ∧
        (∀ j : NodeIx, j.val < n → A'.get j = if j = a ∨ j = b then (A.get j).kill else A.get j) ∧
        ∀ j : NodeIx, j ∈ liveSet A' (n + 1) ↔ j.val = n ∨ j ∈ liveSet A n ∧ j ≠ a ∧ j ≠ b

/-! ### Phase CODE -/

/-- 42_code_table_generator.md R95: in a tree of two symbols or more the code word of a symbol is the path of its leaf, and
a symbol with no leaf has none. -/
def Obligations.CodeWordsArePaths : Prop :=
  ∀ s t : State, FreqOk s.work → TreeOk s.work → 2 ≤ s.work.k.toNat → exec .code s = .next t →
    (∀ (i : NodeIx) f sym v p, i ≤ s.work.root → s.work.node.get i = .leaf f sym v → PathTo s.work.node s.work.root i p →
      codeAt t.work.code sym = p) ∧
    ∀ sym, freqAt s.work.freq sym = 0 → codeAt t.work.code sym = []

/-- 42_code_table_generator.md R96: the one symbol of a single-leaf tree gets the code word 0, no other symbol any. -/
def Obligations.CodeOfOneSymbol : Prop :=
  ∀ (s t : State) f sym v, s.work.node.get s.work.root = .leaf f sym v → exec .code s = .next t →
    ∀ u, codeAt t.work.code u = if u = sym then [false] else []

/-- 42_code_table_generator.md R97 (a) to (c): exactly the K symbols present have a code word, of 1 to max(1, K−1) ≤ 255
bits, and no code word is a prefix of another. -/
def Obligations.CodeIsPrefixFree : Prop :=
  ∀ s t : State, FreqOk s.work → TreeOk s.work → exec .code s = .next t →
    (∀ sym, 1 ≤ (codeAt t.work.code sym).length ↔ freqAt s.work.freq sym ≠ 0) ∧
    (∀ sym, (codeAt t.work.code sym).length ≤ max 1 (s.work.k.toNat - 1) ∧
      (codeAt t.work.code sym).length ≤ Config.maxlen) ∧
    ∀ sym sym', sym ≠ sym' → freqAt s.work.freq sym ≠ 0 → freqAt s.work.freq sym' ≠ 0 →
      ¬ (codeAt t.work.code sym).IsPrefix (codeAt t.work.code sym')

/-- 42_code_table_generator.md R97 (d): for K ≥ 2 every infinite bit sequence has exactly one code word as a prefix. -/
def Obligations.CodeIsComplete : Prop :=
  ∀ s t : State, FreqOk s.work → TreeOk s.work → 2 ≤ s.work.k.toNat → exec .code s = .next t →
    ∀ f : Nat → Bool, ∃! sym : Byte, freqAt s.work.freq sym ≠ 0 ∧
      codeAt t.work.code sym = (List.range (codeAt t.work.code sym).length).map f

/-- 42_code_table_generator.md R97 (e): TREE and then CODE leave a table that is a function of FREQ alone. -/
def Obligations.CodeIsAFunctionOfFreq : Prop :=
  ∀ s s' : State, FreqOk s.work → FreqOk s'.work → s.work.freq = s'.work.freq →
    ∃ t t' u u', exec .tree s = .next t ∧ exec .tree s' = .next t' ∧ exec .code t = .next u ∧ exec .code t' = .next u' ∧
      u.work.code = u'.work.code

/-! ### Phase HDRW -/

/-- 43_header_codec.md R100: HDRW writes the header, records in ascending symbol order, to OUT[0 .. 5K+8), sets OPTR to
5K + 8 and goes to PACK; when it does not fit, E_OUT_OVF. Nothing else changes. -/
def Obligations.HdrwWritesTheHeader : Prop :=
  ∀ s : State, FreqOk s.work →
    (5 * s.work.k.toNat + 8 ≤ s.cfg.outCap.toNat →
      ∃ m o, exec .hdrw s =
        .next { s with
          status := { s.status with phase := .pack }
          outMem := m
          work := { s.work with optr := o } } ∧
        o.toNat = 5 * s.work.k.toNat + 8 ∧
        (encodeHeader (headerOf s.work)).length = 5 * s.work.k.toNat + 8 ∧
        (headerOf s.work).ascending = true ∧ (headerOf s.work).wellFormed = true ∧
        Holds m 0 (encodeHeader (headerOf s.work)) ∧
        ∀ a, 5 * s.work.k.toNat + 8 ≤ a → m.get a = s.outMem.get a) ∧
    (s.cfg.outCap.toNat < 5 * s.work.k.toNat + 8 → exec .hdrw s = .next (s.raise .outOvf))

/-! ### Phase PACK -/

/-- 44_bit_packer_reader.md R110: PutBit keeps ACC the packing of the NACC bits put since the last whole byte; the eighth
bit sends the byte to OUT[OPTR], or raises E_OUT_OVF when OPTR ≥ OUT_CAP. -/
def Obligations.PutBitPacks : Prop :=
  ∀ (s : State) (bs : Bits) (b : Bool), bs.length = s.work.nacc.toNat → s.work.acc = packByte bs →
    (bs.length < 7 → putBit b s =
      .going { s with work := { s.work with acc := packByte (bs ++ [b]), nacc := BitVec.ofNat 3 (bs.length + 1) } }) ∧
    (bs.length = 7 → s.work.optr.toNat < s.cfg.outCap.toNat → putBit b s =
      .going { s with
        outMem := s.outMem.putAll s.work.optr.toNat [packByte (bs ++ [b])]
        work := { s.work with acc := 0, nacc := 0, optr := BitVec.ofNat 64 (s.work.optr.toNat + 1) } }) ∧
    (bs.length = 7 → s.cfg.outCap.toNat ≤ s.work.optr.toNat →
      ∃ t, putBit b s = .ended t ∧
        Ended s t ⟨false, true, true, .outOvf, s.status.phase, s.status.op⟩ 0)

/-- 44_bit_packer_reader.md R111: Flush adds no byte when NACC = 0; otherwise it sends ACC, the packing of the NACC bits put and
zeros below them, to OUT[OPTR], or raises E_OUT_OVF when OPTR ≥ OUT_CAP. -/
def Obligations.FlushPadsWithZeros : Prop :=
  ∀ (s : State) (bs : Bits), bs.length = s.work.nacc.toNat → s.work.acc = packByte bs →
    (bs = [] → flush s = .going s) ∧
    (bs ≠ [] → s.work.optr.toNat < s.cfg.outCap.toNat → flush s =
      .going { s with
        outMem := s.outMem.putAll s.work.optr.toNat (packBits bs)
        work := { s.work with acc := 0, nacc := 0, optr := BitVec.ofNat 64 (s.work.optr.toNat + 1) } }) ∧
    (bs ≠ [] → s.cfg.outCap.toNat ≤ s.work.optr.toNat → flush s = .ended (s.raise .outOvf))

/-- 44_bit_packer_reader.md R112 (with R110, R111 and 30_encoding.md R68): PACK appends the packed, zero-padded code bits of
the input at OPTR and finishes with OUT_LEN the end of them; OUT below OPTR is as before. At the first payload byte that does
not fit it raises E_OUT_OVF. -/
def Obligations.PackWritesThePayload : Prop :=
  ∀ (s : State) (P : List Byte), s.inLen.toNat ≤ s.cfg.inCap.toNat →
    P = packBits (codeBits s.work.code s.input) →
    (s.work.optr.toNat + P.length ≤ s.cfg.outCap.toNat →
      ∃ t, exec .pack s = .next t ∧ Ended s t (Status.success s.status.op) (s.work.optr.toNat + P.length) ∧
        Holds t.outMem s.work.optr.toNat P ∧
        (∀ a, a < s.work.optr.toNat → t.outMem.get a = s.outMem.get a) ∧
        ∀ a, s.work.optr.toNat + P.length ≤ a → t.outMem.get a = none) ∧
    (P ≠ [] → s.cfg.outCap.toNat < s.work.optr.toNat + P.length →
      ∃ t, exec .pack s = .next t ∧ Ended s t (Status.failure s.status.op .outOvf s.status.phase) 0 ∧
        ∀ a, t.outMem.get a = none)

/-- 44_bit_packer_reader.md R117: the number of code bits is Σ FREQ[s] · len(s), between TOTAL and 255 · TOTAL when every
symbol that occurs has a code word of 1 to 255 bits. -/
def Obligations.PayloadSize : Prop :=
  ∀ (c : CodeTable) (X : List Byte), X.length ≤ Config.maxn →
    (codeBits c X).length = ((present (countBytes X)).map fun r => r.2.toNat * (codeAt c r.1).length).sum ∧
    ((∀ b ∈ X, 1 ≤ (codeAt c b).length ∧ (codeAt c b).length ≤ Config.maxlen) →
      X.length ≤ (codeBits c X).length ∧ (codeBits c X).length ≤ 255 * X.length)

/-! ### Phase HDRR -/

/-- 43_header_codec.md R102, R103: HDRR agrees with the header decoder of Decode.lean on every container: the same error, the
same end on an empty one, and on a header it accepts FREQ, K, TOTAL and SUM are the header's and IPTR is the payload's first
byte. -/
def Obligations.HdrrDecodesTheHeader : Prop :=
  ∀ s : State, s.inLen.toNat ≤ s.cfg.inCap.toNat →
    (s.input = [] → ∃ t, exec .hdrr s = .next t ∧ Ended s t (Status.success s.status.op) 0) ∧
    (s.input ≠ [] → ∀ e, decodeHeader s.input = .error e →
      ∃ t, exec .hdrr s = .next t ∧ Ended s t (Status.failure s.status.op e s.status.phase) 0) ∧
    ∀ h payload, decodeHeader s.input = .ok (h, payload) →
      (h.records = [] → ∃ t, exec .hdrr s = .next t ∧ Ended s t (Status.success s.status.op) 0) ∧
      (h.records ≠ [] → s.cfg.outCap.toNat < h.total.toNat →
        ∃ t, exec .hdrr s = .next t ∧ Ended s t (Status.failure s.status.op .outOvf s.status.phase) 0) ∧
      (h.records ≠ [] → h.total.toNat ≤ s.cfg.outCap.toNat →
        ∃ k f sum ip, exec .hdrr s =
            .next { s with
              status := { s.status with phase := .tree }
              work := { s.work with k := k, freq := f, sum := sum, total := h.total, iptr := ip } } ∧
          k.toNat = h.records.length ∧ sum.toNat = h.sum ∧ ip.toNat = 5 * h.records.length + 8 ∧
          (∀ b c, c ≠ 0 → (freqAt f b = c ↔ ⟨b, c⟩ ∈ h.records)) ∧
          s.inBytes ip.toNat (s.inLen.toNat - ip.toNat) = payload)

/-- 43_header_codec.md R103: what holds when HDRR ends with PHASE = TREE. -/
def Obligations.HdrrEstablishesFreqOk : Prop :=
  ∀ s t : State, s.inLen.toNat ≤ s.cfg.inCap.toNat → s.status.phase ≠ .tree → exec .hdrr s = .next t →
    t.status.phase = .tree →
    FreqOk t.work ∧ t.work.sum.toNat = t.work.total.toNat ∧ t.work.k.toNat ≤ t.work.total.toNat ∧
      t.work.total.toNat ≤ t.cfg.outCap.toNat ∧ t.work.iptr.toNat = 5 * t.work.k.toNat + 8 ∧
      t.work.iptr.toNat ≤ t.inLen.toNat

/-- 43_header_codec.md R104: two containers with the same records, each in any order, leave the same table, K and
TOTAL. -/
def Obligations.HdrrIgnoresRecordOrder : Prop :=
  ∀ (s s' : State) (h h' : Header) (p p' : List Byte), s.inLen.toNat ≤ s.cfg.inCap.toNat →
    s'.inLen.toNat ≤ s'.cfg.inCap.toNat → h.wellFormed = true → h.records.Perm h'.records → h'.total = h.total →
    s.input = encodeHeader h ++ p → s'.input = encodeHeader h' ++ p' →
    h.total.toNat ≤ s.cfg.outCap.toNat → h.total.toNat ≤ s'.cfg.outCap.toNat →
    ∃ t t', exec .hdrr s = .next t ∧ exec .hdrr s' = .next t' ∧ t.status.phase = .tree ∧ t'.status.phase = .tree ∧
      t.work.freq = t'.work.freq ∧ t.work.k = t'.work.k ∧ t.work.total = t'.work.total

/-- 43_header_codec.md R105: both spellings of "no symbols" end with Finish(0), whatever follows a first field of 0; 1 to 3
bytes are E_HDR_TRUNC. -/
def Obligations.HdrrEmptyContainers : Prop :=
  ∀ s : State, s.inLen.toNat ≤ s.cfg.inCap.toNat →
    ((s.inLen = 0 ∨ ∃ rest, s.input = [0, 0, 0, 0] ++ rest) →
      ∃ t, exec .hdrr s = .next t ∧ Ended s t (Status.success s.status.op) 0) ∧
    (1 ≤ s.inLen.toNat → s.inLen.toNat ≤ 3 →
      ∃ t, exec .hdrr s = .next t ∧ Ended s t (Status.failure s.status.op .hdrTrunc s.status.phase) 0)

/-! ### Phase TRAV -/

/-- 44_bit_packer_reader.md R113: GetBit returns bit 7 of RBYTE and shifts it, fetching IN[IPTR] first when no bit is left,
and raises E_PAYLOAD_TRUNC when there is no byte to fetch. -/
def Obligations.GetBitReads : Prop :=
  ∀ (s : State) (k : Bool → State → Run),
    (s.work.nrem ≠ 0 → getBit s k =
      k s.work.rbyte.msb { s with work := { s.work with rbyte := s.work.rbyte <<< 1, nrem := s.work.nrem - 1 } }) ∧
    (s.work.nrem = 0 → s.work.iptr.toNat < s.inLen.toNat → s.inLen.toNat ≤ s.cfg.inCap.toNat → getBit s k =
      k (s.inByte s.work.iptr.toNat).msb { s with
        work := { s.work with rbyte := s.inByte s.work.iptr.toNat <<< 1, iptr := s.work.iptr + 1, nrem := 7 } }) ∧
    (s.work.nrem = 0 → s.inLen.toNat ≤ s.work.iptr.toNat → getBit s k = .ended (s.raise .payloadTrunc))

/-- 44_bit_packer_reader.md R114, R116, 70_reset_and_hazards.md R170: whatever NODE holds, TRAV ends: with OUT_LEN = TOTAL, or
with E_PAYLOAD_TRUNC and OUT_LEN = 0. For a NODE that is no tree of R91's shape this is the model's choice (log entries 8 and
14). -/
def Obligations.TravEnds : Prop :=
  ∀ s : State, s.inLen.toNat ≤ s.cfg.inCap.toNat → s.work.total.toNat ≤ s.cfg.outCap.toNat →
    ∃ t, exec .trav s = .next t ∧
      (Ended s t (Status.success s.status.op) s.work.total.toNat ∧
          (∀ a, a < s.work.total.toNat → (t.outMem.get a).isSome) ∧
          (∀ a, s.work.total.toNat ≤ a → t.outMem.get a = none) ∨
        Ended s t (Status.failure s.status.op .payloadTrunc s.status.phase) 0 ∧ ∀ a, t.outMem.get a = none)

/-- 44_bit_packer_reader.md R114, R116 (b): a payload that begins with the root-to-leaf paths of TOTAL symbols decodes to
those symbols, whatever follows. -/
def Obligations.TravDecodesPaths : Prop :=
  ∀ (s : State) (Y : List Byte) (c : Byte → Bits) (rest : Bits),
    s.inLen.toNat ≤ s.cfg.inCap.toNat → s.work.iptr.toNat ≤ s.inLen.toNat →
    s.work.total.toNat ≤ s.cfg.outCap.toNat → (s.work.node.get s.work.root).isLeaf = false →
    (∀ y ∈ Y, ∃ i f v, PathTo s.work.node s.work.root i (c y) ∧ s.work.node.get i = .leaf f y v) →
    unpackBits (s.inBytes s.work.iptr.toNat (s.inLen.toNat - s.work.iptr.toNat)) = Y.flatMap c ++ rest →
    Y.length = s.work.total.toNat →
    ∃ t, exec .trav s = .next t ∧ Ended s t (Status.success s.status.op) s.work.total.toNat ∧ Holds t.outMem 0 Y

/-- 44_bit_packer_reader.md R116 (c): when the payload's bits end inside a code word, or between two, before TOTAL symbols
are decoded, the operation ends with E_PAYLOAD_TRUNC and OUT_LEN = 0. -/
def Obligations.TravReportsTruncation : Prop :=
  ∀ (s : State) (Y : List Byte) (c : Byte → Bits) (j : NodeIx) (q : Bits),
    s.inLen.toNat ≤ s.cfg.inCap.toNat → s.work.iptr.toNat ≤ s.inLen.toNat →
    s.work.total.toNat ≤ s.cfg.outCap.toNat → (s.work.node.get s.work.root).isLeaf = false →
    (∀ y ∈ Y, ∃ i f v, PathTo s.work.node s.work.root i (c y) ∧ s.work.node.get i = .leaf f y v) →
    PathTo s.work.node s.work.root j q → (s.work.node.get j).isLeaf = false →
    unpackBits (s.inBytes s.work.iptr.toNat (s.inLen.toNat - s.work.iptr.toNat)) = Y.flatMap c ++ q →
    Y.length < s.work.total.toNat →
    ∃ t, exec .trav s = .next t ∧ Ended s t (Status.failure s.status.op .payloadTrunc s.status.phase) 0

/-- 44_bit_packer_reader.md R115: with a leaf at the root each symbol takes one bit, whose value is not examined; a payload
of fewer than TOTAL bits is E_PAYLOAD_TRUNC. -/
def Obligations.TravOfOneSymbol : Prop :=
  ∀ (s : State) f sym v, s.inLen.toNat ≤ s.cfg.inCap.toNat → s.work.iptr.toNat ≤ s.inLen.toNat →
    s.work.total.toNat ≤ s.cfg.outCap.toNat → s.work.node.get s.work.root = .leaf f sym v →
    (s.work.total.toNat ≤ 8 * (s.inLen.toNat - s.work.iptr.toNat) →
      ∃ t, exec .trav s = .next t ∧ Ended s t (Status.success s.status.op) s.work.total.toNat ∧
        Holds t.outMem 0 (List.replicate s.work.total.toNat sym)) ∧
    (8 * (s.inLen.toNat - s.work.iptr.toNat) < s.work.total.toNat →
      ∃ t, exec .trav s = .next t ∧ Ended s t (Status.failure s.status.op .payloadTrunc s.status.phase) 0)

/-! ### Invariants of every run -/

/-- The machine after reset meets the invariants; STATUS, IN_LEN and OUT_LEN are 0 (10_state.md R25), and with no move of the
host's the block stays as it is (the engine's turn at an empty list is log entry 2). -/
def Obligations.ResetMeetsTheInvariants : Prop :=
  State.reset.Inv ∧ State.reset.TablesInv ∧ State.reset.status.word = 0 ∧ State.reset.inLen = 0 ∧
    State.reset.outLen = 0 ∧ step State.reset = .next State.reset

/-- The invariant of every run: memories canonical and within their capacities, STATUS legal (10_state.md R14), OUT_LEN 0
unless a command has ended well (R16), every byte of a result written, each phase's precondition met. -/
def Obligations.StepKeepsInv : Prop := ∀ s t : State, s.Inv → step s = .next t → t.Inv

/-- While BUSY = 1 the tables hold what the phases that read them need: FREQ the input's counts in COMPRESS, NODE a tree,
CODE a code word for each input byte. -/
def Obligations.StepKeepsTheTables : Prop :=
  ∀ s t : State, s.Inv → s.TablesInv → step s = .next t → t.TablesInv

/-- 10_state.md R26, 20_memory.md R43, R50: no step of a run faults: no access leaves its buffer. -/
def Obligations.NoStepFaults : Prop := ∀ s : State, s.Inv → ∀ f, step s ≠ .fault f

/-- 70_reset_and_hazards.md R170: a running operation ends within five engine steps, three in DECOMPRESS. With no turn in the
list each step is the engine's (log entry 2). -/
def Obligations.OperationsEnd : Prop :=
  ∀ s : State, s.Inv → s.status.busy = true → s.turns = [] →
    ∃ t, steps (if s.status.op = .compress then 5 else 3) s = .next t ∧
      t.status.busy = false ∧ t.status.done = true

/-! ### Whole operations -/

/-- 45_compressor.md R123: the container COMPRESS produces is the closed form; when OUT_CAP is smaller, E_OUT_OVF, from HDRW
or PACK. -/
def Obligations.CompressProducesTheContainer : Prop :=
  ∀ s : State, s.status.busy = false → s.inLen.toNat ≤ s.cfg.inCap.toNat → s.inLen.toNat ≤ Config.maxn →
    ((compressed s.input).length ≤ s.cfg.outCap.toNat →
      Succeeds 0x00000001 s .compress (compressed s.input)) ∧
    (s.cfg.outCap.toNat < (compressed s.input).length →
      Fails 0x00000001 s .compress .outOvf .hdrw ∨ Fails 0x00000001 s .compress .outOvf .pack)

/-- 45_compressor.md R125: COMPRESS of the empty input ends well with no byte of OUT. -/
def Obligations.EmptyInputGivesTheEmptyContainer : Prop :=
  ∀ s : State, s.status.busy = false → s.inLen = 0 →
    Succeeds 0x00000001 s .compress [] ∧ (Status.success .compress).word = 0x00010002

/-- 45_compressor.md R126: the container of one distinct symbol repeated n times. -/
def Obligations.OneSymbolContainer : Prop :=
  ∀ (s : State) (b : Byte) (n : Nat), s.status.busy = false → 1 ≤ n → n ≤ Config.maxn → n ≤ s.cfg.inCap.toNat →
    13 + (n + 7) / 8 ≤ s.cfg.outCap.toNat → s.input = List.replicate n b →
    Succeeds 0x00000001 s .compress (be 1 ++ [b] ++ be n ++ be n ++ List.replicate ((n + 7) / 8) 0)

/-- 46_decompressor.md R134, the round trip: COMPRESS turns X into some container Y, and DECOMPRESS turns Y back into X, on any
block of the same design whose buffers hold both. -/
def Obligations.RoundTrip : Prop :=
  ∀ (s : State) (X : List Byte), s.status.busy = false → s.input = X → X.length ≤ s.cfg.inCap.toNat →
    X.length ≤ Config.maxn → (compressed X).length ≤ s.cfg.outCap.toNat →
    ∃ Y, Succeeds 0x00000001 s .compress Y ∧
      ∀ s' : State, s'.status.busy = false → s'.input = Y → Y.length ≤ s'.cfg.inCap.toNat →
        X.length ≤ s'.cfg.outCap.toNat → Succeeds 0x00000002 s' .decompress X

/-- 46_decompressor.md R135: a container cut short is reported, never decoded to a shorter sequence: E_HDR_TRUNC when the cut
is in the header, E_PAYLOAD_TRUNC when it is in the payload. -/
def Obligations.TruncationIsReported : Prop :=
  ∀ (s : State) (X : List Byte) (m : Nat), s.status.busy = false → X ≠ [] → X.length ≤ Config.maxn →
    X.length ≤ s.cfg.outCap.toNat → 1 ≤ m → m < (compressed X).length →
    s.input = (compressed X).take ((compressed X).length - m) → s.inLen.toNat ≤ s.cfg.inCap.toNat →
    (s.inLen.toNat < 5 * (present (countBytes X)).length + 8 →
      Fails 0x00000002 s .decompress .hdrTrunc .hdrr) ∧
    (5 * (present (countBytes X)).length + 8 ≤ s.inLen.toNat →
      Fails 0x00000002 s .decompress .payloadTrunc .trav)

/-- 45_compressor.md R124, 46_decompressor.md R136: the outcome of a command depends on its input alone: not on earlier
operations, IN at and above IN_LEN, OUT, the scratch state or any free value. -/
def Obligations.OutcomeDependsOnTheInput : Prop :=
  ∀ (s s' : State) (w : Word), w = 0x00000001 ∨ w = 0x00000002 → s.status.busy = false → s'.status.busy = false →
    s'.cfg = s.cfg → s'.inLen = s.inLen → s'.input = s.input →
    ∃ t t', runCommand w s = .next t ∧ runCommand w s' = .next t' ∧ t'.status = t.status ∧ t'.outLen = t.outLen ∧
      ((t.status.done && !t.status.err) = true → t'.output = t.output)

end
end

