-- ==== Sys2Proof/Laws/Codec.lean ====
section
/-! SUPPORT. The encodings: integer fields there and back, lengths. -/

namespace Sys2Proof

@[simp] theorem be_length (v : Nat) : (be v).length = 4 := rfl

/-- UBE of BE, modulo the field's width (00_scope.md R7). -/
theorem ube_be_mod (v : Nat) : ube (be v) = v % 2 ^ 32 := by
  simp only [ube, be, List.foldl_cons, List.foldl_nil, BitVec.toNat_ofNat]; omega

theorem ube_four (a b c d : Byte) :
    ube [a, b, c, d] = a.toNat * 2 ^ 24 + b.toNat * 2 ^ 16 + c.toNat * 2 ^ 8 + d.toNat := by
  simp only [ube, List.foldl_cons, List.foldl_nil]; omega

theorem ube_four_lt (a b c d : Byte) : ube [a, b, c, d] < 2 ^ 32 := by
  rw [ube_four]; have := a.isLt; have := b.isLt; have := c.isLt; have := d.isLt; omega

@[simp] theorem encodeRecord_length (r : Record) : (encodeRecord r).length = 5 := rfl

theorem packBits_length (bs : Bits) : (packBits bs).length = (bs.length + 7) / 8 := by simp [packBits]

theorem unpackBits_length (B : List Byte) : (unpackBits B).length = 8 * B.length := by
  induction B with
  | nil => rfl
  | cons b B ih => simp only [unpackBits, List.flatMap_cons, List.length_append] at *; simp [ih]; omega

end Sys2Proof
end

