-- ==== Sys2Proof/Laws/Memory.lean ====
section
/-! SUPPORT. The laws of byte memories: a read after a write, and the canonical form every operation keeps. -/

namespace Sys2Proof.Machine.Memory

/-! ### Reads after writes -/

@[simp] theorem get_nil (a : Nat) : get [] a = none := rfl

@[simp] theorem get_put_same (m : Memory) (a : Nat) (v : Byte) : (m.put a v).get a = some v := by
  induction m with
  | nil => simp [put, get]
  | cons c m ih =>
    obtain ⟨b, w⟩ := c
    rcases Nat.lt_trichotomy a b with h | h | h
    · simp [put, get, h]
    · simp [put, get, h]
    · simp [put, get, Nat.not_lt.mpr h.le, h.ne', ih]

theorem get_put_ne (m : Memory) {a b : Nat} (v : Byte) (h : b ≠ a) : (m.put a v).get b = m.get b := by
  induction m with
  | nil => simp [put, get, h]
  | cons c m ih =>
    obtain ⟨k, w⟩ := c
    rcases Nat.lt_trichotomy a k with hk | hk | hk
    · simp [put, get, hk, h]
    · subst hk; simp [put, get, h]
    · simp [put, get, Nat.not_lt.mpr hk.le, hk.ne', ih]

theorem get_put (m : Memory) (a b : Nat) (v : Byte) : (m.put a v).get b = if b = a then some v else m.get b := by
  split
  · next h => subst h; simp
  · next h => exact get_put_ne m v h

theorem get_putAll_outside (m : Memory) (a b : Nat) (B : List Byte) (h : b < a ∨ a + B.length ≤ b) :
    (m.putAll a B).get b = m.get b := by
  induction B generalizing m a with
  | nil => rfl
  | cons v B ih =>
    have hl : (v :: B).length = B.length + 1 := rfl
    rw [putAll, ih _ _ (by omega), get_put_ne _ _ (by omega)]

theorem get_putAll_inside (m : Memory) (a q : Nat) (B : List Byte) (h : q < B.length) :
    (m.putAll a B).get (a + q) = B[q]? := by
  induction B generalizing m a q with
  | nil => simp at h
  | cons v B ih =>
    cases q with
    | zero => rw [putAll, get_putAll_outside _ _ _ _ (by omega)]; simp
    | succ q =>
      have := ih (m.put a v) (a + 1) q (by simpa using h)
      rw [putAll, show a + (q + 1) = a + 1 + q by omega, this]; simp

theorem putAll_append (m : Memory) (a : Nat) (B C : List Byte) :
    m.putAll a (B ++ C) = (m.putAll a B).putAll (a + B.length) C := by
  induction B generalizing m a with
  | nil => rfl
  | cons v B ih => simp [putAll, ih, Nat.add_comm 1, Nat.add_assoc]

theorem get_below (m : Memory) (len a : Nat) : (m.below len).get a = if a < len then m.get a else none := by
  induction m with
  | nil => simp [below]
  | cons c m ih =>
    obtain ⟨b, w⟩ := c
    by_cases h : b < len
    · have hb : below ((b, w) :: m) len = (b, w) :: below m len := by simp [below, h]
      by_cases hab : a = b
      · subst hab; simp [hb, get, h]
      · simp [hb, get, hab, ih]
    · have hb : below ((b, w) :: m) len = below m len := by simp [below, h]
      by_cases hab : a = b
      · subst hab; simp [hb, ih, h]
      · simp [hb, get, hab, ih]

/-! ### The canonical form -/

theorem wf_nil : wf [] := List.Pairwise.nil

/-- A write adds no address but its own. -/
theorem mem_put {m : Memory} {a : Nat} {v : Byte} {c : Host.Cell} (h : c ∈ m.put a v) : c.1 = a ∨ c ∈ m := by
  induction m with
  | nil => simp_all [put]
  | cons d m ih =>
    obtain ⟨b, w⟩ := d
    rcases Nat.lt_trichotomy a b with hk | hk | hk
    · simp only [put, hk, if_true] at h; rcases List.mem_cons.mp h with rfl | h <;> simp_all
    · subst hk; simp only [put, Nat.lt_irrefl, if_false, if_true] at h
      rcases List.mem_cons.mp h with rfl | h <;> simp_all
    · simp only [put, Nat.not_lt.mpr hk.le, hk.ne', if_false] at h
      rcases List.mem_cons.mp h with rfl | h
      · simp
      · rcases ih h with h | h <;> simp [h]

theorem wf_put {m : Memory} (h : m.wf) (a : Nat) (v : Byte) : (m.put a v).wf := by
  induction m with
  | nil => simp [put, wf]
  | cons d m ih =>
    obtain ⟨b, w⟩ := d
    obtain ⟨hb, hm⟩ := List.pairwise_cons.mp h
    rcases Nat.lt_trichotomy a b with hk | hk | hk
    · simp only [put, hk, if_true]
      refine List.pairwise_cons.mpr ⟨fun c hc => ?_, h⟩
      rcases List.mem_cons.mp hc with rfl | hc
      · exact hk
      · exact hk.trans (hb c hc)
    · subst hk; simp only [put, Nat.lt_irrefl, if_false, if_true]
      exact List.pairwise_cons.mpr ⟨hb, hm⟩
    · simp only [put, Nat.not_lt.mpr hk.le, hk.ne', if_false]
      refine List.pairwise_cons.mpr ⟨fun c hc => ?_, ih hm⟩
      rcases mem_put hc with hc | hc
      · simpa [hc] using hk
      · exact hb c hc

theorem wf_putAll {m : Memory} (h : m.wf) (a : Nat) (B : List Byte) : (m.putAll a B).wf := by
  induction B generalizing m a with
  | nil => exact h
  | cons v B ih => exact ih (wf_put h a v) (a + 1)

theorem wf_below {m : Memory} (h : m.wf) (len : Nat) : (m.below len).wf := h.filter _

/-- A sequence written below a bound keeps every address below it. -/
theorem bound_putAll {m : Memory} {n : Nat} (h : ∀ c ∈ m, c.1 < n) (a : Nat) (B : List Byte) (hB : a + B.length ≤ n) :
    ∀ c ∈ m.putAll a B, c.1 < n := by
  induction B generalizing m a with
  | nil => exact h
  | cons v B ih =>
    have hl : (v :: B).length = B.length + 1 := rfl
    refine ih (fun c hc => ?_) (a + 1) (by omega)
    rcases mem_put hc with hc | hc
    · omega
    · exact h c hc

/-- A held byte stays held through a write. -/
theorem isSome_put {m : Memory} {a b : Nat} {v : Byte} (h : (m.get b).isSome) : ((m.put a v).get b).isSome := by
  rw [get_put]; split <;> simp [h]

end Sys2Proof.Machine.Memory
end

