-- ==== Sys2Proof/Laws/State.lean ====
section
/-! SUPPORT. What each update of State does to each field: the simp set every later proof uses. -/

namespace Sys2Proof.Machine.State

@[simp] theorem setPhase_cfg (s : State) (p : Phase) : (s.setPhase p).cfg = s.cfg := rfl
@[simp] theorem setPhase_status (s : State) (p : Phase) : (s.setPhase p).status = { s.status with phase := p } := rfl
@[simp] theorem setPhase_inLen (s : State) (p : Phase) : (s.setPhase p).inLen = s.inLen := rfl
@[simp] theorem setPhase_outLen (s : State) (p : Phase) : (s.setPhase p).outLen = s.outLen := rfl
@[simp] theorem setPhase_inMem (s : State) (p : Phase) : (s.setPhase p).inMem = s.inMem := rfl
@[simp] theorem setPhase_outMem (s : State) (p : Phase) : (s.setPhase p).outMem = s.outMem := rfl
@[simp] theorem setPhase_work (s : State) (p : Phase) : (s.setPhase p).work = s.work := rfl
@[simp] theorem setPhase_turns (s : State) (p : Phase) : (s.setPhase p).turns = s.turns := rfl
@[simp] theorem setPhase_heard (s : State) (p : Phase) : (s.setPhase p).heard = s.heard := rfl
@[simp] theorem setPhase_draws (s : State) (p : Phase) : (s.setPhase p).draws = s.draws := rfl
@[simp] theorem setPhase_epoch (s : State) (p : Phase) : (s.setPhase p).epoch = s.epoch := rfl

@[simp] theorem setWork_cfg (s : State) (w : Scratch) : (s.setWork w).cfg = s.cfg := rfl
@[simp] theorem setWork_status (s : State) (w : Scratch) : (s.setWork w).status = s.status := rfl
@[simp] theorem setWork_inLen (s : State) (w : Scratch) : (s.setWork w).inLen = s.inLen := rfl
@[simp] theorem setWork_outLen (s : State) (w : Scratch) : (s.setWork w).outLen = s.outLen := rfl
@[simp] theorem setWork_inMem (s : State) (w : Scratch) : (s.setWork w).inMem = s.inMem := rfl
@[simp] theorem setWork_outMem (s : State) (w : Scratch) : (s.setWork w).outMem = s.outMem := rfl
@[simp] theorem setWork_work (s : State) (w : Scratch) : (s.setWork w).work = w := rfl
@[simp] theorem setWork_turns (s : State) (w : Scratch) : (s.setWork w).turns = s.turns := rfl
@[simp] theorem setWork_heard (s : State) (w : Scratch) : (s.setWork w).heard = s.heard := rfl
@[simp] theorem setWork_draws (s : State) (w : Scratch) : (s.setWork w).draws = s.draws := rfl
@[simp] theorem setWork_epoch (s : State) (w : Scratch) : (s.setWork w).epoch = s.epoch := rfl

@[simp] theorem setIptr_cfg (s : State) (v : Nat) : (s.setIptr v).cfg = s.cfg := rfl
@[simp] theorem setIptr_status (s : State) (v : Nat) : (s.setIptr v).status = s.status := rfl
@[simp] theorem setIptr_inLen (s : State) (v : Nat) : (s.setIptr v).inLen = s.inLen := rfl
@[simp] theorem setIptr_outLen (s : State) (v : Nat) : (s.setIptr v).outLen = s.outLen := rfl
@[simp] theorem setIptr_inMem (s : State) (v : Nat) : (s.setIptr v).inMem = s.inMem := rfl
@[simp] theorem setIptr_outMem (s : State) (v : Nat) : (s.setIptr v).outMem = s.outMem := rfl
@[simp] theorem setIptr_work (s : State) (v : Nat) : (s.setIptr v).work = { s.work with iptr := BitVec.ofNat 64 v } := rfl
@[simp] theorem setIptr_turns (s : State) (v : Nat) : (s.setIptr v).turns = s.turns := rfl
@[simp] theorem setIptr_heard (s : State) (v : Nat) : (s.setIptr v).heard = s.heard := rfl
@[simp] theorem setIptr_draws (s : State) (v : Nat) : (s.setIptr v).draws = s.draws := rfl
@[simp] theorem setIptr_epoch (s : State) (v : Nat) : (s.setIptr v).epoch = s.epoch := rfl

@[simp] theorem discard_cfg (s : State) : (s.discard).cfg = s.cfg := rfl
@[simp] theorem discard_status (s : State) : (s.discard).status = s.status := rfl
@[simp] theorem discard_inLen (s : State) : (s.discard).inLen = s.inLen := rfl
@[simp] theorem discard_outLen (s : State) : (s.discard).outLen = s.outLen := rfl
@[simp] theorem discard_inMem (s : State) : (s.discard).inMem = s.inMem := rfl
@[simp] theorem discard_outMem (s : State) : (s.discard).outMem = s.outMem := rfl
@[simp] theorem discard_work (s : State) : (s.discard).work = Config.freeScratch s.draws := rfl
@[simp] theorem discard_turns (s : State) : (s.discard).turns = s.turns := rfl
@[simp] theorem discard_heard (s : State) : (s.discard).heard = s.heard := rfl
@[simp] theorem discard_draws (s : State) : (s.discard).draws = s.draws + 1 := rfl
@[simp] theorem discard_epoch (s : State) : (s.discard).epoch = s.epoch := rfl

@[simp] theorem hear_cfg (s : State) (v : Word64) : (s.hear v).cfg = s.cfg := rfl
@[simp] theorem hear_status (s : State) (v : Word64) : (s.hear v).status = s.status := rfl
@[simp] theorem hear_inLen (s : State) (v : Word64) : (s.hear v).inLen = s.inLen := rfl
@[simp] theorem hear_outLen (s : State) (v : Word64) : (s.hear v).outLen = s.outLen := rfl
@[simp] theorem hear_inMem (s : State) (v : Word64) : (s.hear v).inMem = s.inMem := rfl
@[simp] theorem hear_outMem (s : State) (v : Word64) : (s.hear v).outMem = s.outMem := rfl
@[simp] theorem hear_work (s : State) (v : Word64) : (s.hear v).work = s.work := rfl
@[simp] theorem hear_turns (s : State) (v : Word64) : (s.hear v).turns = s.turns := rfl
@[simp] theorem hear_heard (s : State) (v : Word64) : (s.hear v).heard = v :: s.heard := rfl
@[simp] theorem hear_draws (s : State) (v : Word64) : (s.hear v).draws = s.draws := rfl
@[simp] theorem hear_epoch (s : State) (v : Word64) : (s.hear v).epoch = s.epoch := rfl

@[simp] theorem expand_cfg (s : State) (ms : List HostMove) : (s.expand ms).cfg = s.cfg := rfl
@[simp] theorem expand_status (s : State) (ms : List HostMove) : (s.expand ms).status = s.status := rfl
@[simp] theorem expand_inLen (s : State) (ms : List HostMove) : (s.expand ms).inLen = s.inLen := rfl
@[simp] theorem expand_outLen (s : State) (ms : List HostMove) : (s.expand ms).outLen = s.outLen := rfl
@[simp] theorem expand_inMem (s : State) (ms : List HostMove) : (s.expand ms).inMem = s.inMem := rfl
@[simp] theorem expand_outMem (s : State) (ms : List HostMove) : (s.expand ms).outMem = s.outMem := rfl
@[simp] theorem expand_work (s : State) (ms : List HostMove) : (s.expand ms).work = s.work := rfl
@[simp] theorem expand_turns (s : State) (ms : List HostMove) : (s.expand ms).turns = ms.map .host ++ s.turns := rfl
@[simp] theorem expand_heard (s : State) (ms : List HostMove) : (s.expand ms).heard = s.heard := rfl
@[simp] theorem expand_draws (s : State) (ms : List HostMove) : (s.expand ms).draws = s.draws := rfl
@[simp] theorem expand_epoch (s : State) (ms : List HostMove) : (s.expand ms).epoch = s.epoch := rfl

@[simp] theorem raise_cfg (s : State) (e : ErrCode) : (s.raise e).cfg = s.cfg := rfl
@[simp] theorem raise_status (s : State) (e : ErrCode) : (s.raise e).status = s.status.raised e := rfl
@[simp] theorem raise_inLen (s : State) (e : ErrCode) : (s.raise e).inLen = s.inLen := rfl
@[simp] theorem raise_outLen (s : State) (e : ErrCode) : (s.raise e).outLen = 0 := rfl
@[simp] theorem raise_inMem (s : State) (e : ErrCode) : (s.raise e).inMem = s.inMem := rfl
@[simp] theorem raise_outMem (s : State) (e : ErrCode) : (s.raise e).outMem = [] := rfl
@[simp] theorem raise_work (s : State) (e : ErrCode) : (s.raise e).work = Config.freeScratch s.draws := rfl
@[simp] theorem raise_turns (s : State) (e : ErrCode) : (s.raise e).turns = s.turns := rfl
@[simp] theorem raise_heard (s : State) (e : ErrCode) : (s.raise e).heard = s.heard := rfl
@[simp] theorem raise_draws (s : State) (e : ErrCode) : (s.raise e).draws = s.draws + 1 := rfl
@[simp] theorem raise_epoch (s : State) (e : ErrCode) : (s.raise e).epoch = s.epoch := rfl

@[simp] theorem finish_cfg (s : State) (n : Word64) : (s.finish n).cfg = s.cfg := rfl
@[simp] theorem finish_status (s : State) (n : Word64) : (s.finish n).status = s.status.finished := rfl
@[simp] theorem finish_inLen (s : State) (n : Word64) : (s.finish n).inLen = s.inLen := rfl
@[simp] theorem finish_outLen (s : State) (n : Word64) : (s.finish n).outLen = n := rfl
@[simp] theorem finish_inMem (s : State) (n : Word64) : (s.finish n).inMem = s.inMem := rfl
@[simp] theorem finish_outMem (s : State) (n : Word64) : (s.finish n).outMem = s.outMem.below n.toNat := rfl
@[simp] theorem finish_work (s : State) (n : Word64) : (s.finish n).work = Config.freeScratch s.draws := rfl
@[simp] theorem finish_turns (s : State) (n : Word64) : (s.finish n).turns = s.turns := rfl
@[simp] theorem finish_heard (s : State) (n : Word64) : (s.finish n).heard = s.heard := rfl
@[simp] theorem finish_draws (s : State) (n : Word64) : (s.finish n).draws = s.draws + 1 := rfl
@[simp] theorem finish_epoch (s : State) (n : Word64) : (s.finish n).epoch = s.epoch := rfl

/-! ### The input depends on IN, IN_LEN and the reset count alone -/

theorem inByte_congr {s t : State} (hm : t.inMem = s.inMem) (he : t.epoch = s.epoch) (a : Nat) :
    t.inByte a = s.inByte a := by
  simp [inByte, hm, he]

theorem inBytes_congr {s t : State} (hm : t.inMem = s.inMem) (he : t.epoch = s.epoch) (a n : Nat) :
    t.inBytes a n = s.inBytes a n := by
  simp [inBytes, inByte, hm, he]

theorem input_congr {s t : State} (hl : t.inLen = s.inLen) (hm : t.inMem = s.inMem) (he : t.epoch = s.epoch) :
    t.input = s.input := by
  simp [input, inBytes, inByte, hl, hm, he]

@[simp] theorem inBytes_length (s : State) (a n : Nat) : (s.inBytes a n).length = n := by
  simp [inBytes]

@[simp] theorem input_length (s : State) : s.input.length = s.inLen.toNat := by
  simp [input]

@[simp] theorem inByte_setWork (s : State) (w : Scratch) (a : Nat) : (s.setWork w).inByte a = s.inByte a := rfl
@[simp] theorem inBytes_setWork (s : State) (w : Scratch) (a n : Nat) : (s.setWork w).inBytes a n = s.inBytes a n := rfl
@[simp] theorem input_setWork (s : State) (w : Scratch) : (s.setWork w).input = s.input := rfl
@[simp] theorem input_setPhase (s : State) (p : Phase) : (s.setPhase p).input = s.input := rfl
@[simp] theorem setWork_setWork (s : State) (w w' : Scratch) : (s.setWork w).setWork w' = s.setWork w' := rfl

end Sys2Proof.Machine.State
end

