-- ==== Sys2Proof/Laws/Ops.lean ====
section
/-! SUPPORT. What each shared operation does, said once: the course of a rule, `MemRead`, `MemWrite`, `Accept`. -/

namespace Sys2Proof.Machine

namespace Run

@[simp] theorem andThen_going (s : State) (k : State → Run) : (going s).andThen k = k s := rfl
@[simp] theorem andThen_ended (s : State) (k : State → Run) : (ended s).andThen k = ended s := rfl
@[simp] theorem andThen_broken (f : Fault) (k : State → Run) : (broken f).andThen k = broken f := rfl
@[simp] theorem outcome_going (s : State) : (going s).outcome = .next s := rfl
@[simp] theorem outcome_ended (s : State) : (ended s).outcome = .next s := rfl
@[simp] theorem outcome_broken (f : Fault) : (broken f).outcome = .fault f := rfl

theorem andThen_assoc (r : Run) (k l : State → Run) : (r.andThen k).andThen l = r.andThen fun s => (k s).andThen l := by
  cases r <;> rfl

/-- A rule whose outcome is a next state stands there, going on or ended. -/
theorem outcome_next {r : Run} {t : State} (h : r.outcome = .next t) : r = going t ∨ r = ended t := by
  cases r <;> simp_all [outcome]

/-- A rule never refuses. -/
theorem outcome_ne_refused (r : Run) (x : Refusal) : r.outcome ≠ .refused x := by
  cases r <;> simp [outcome]

/-- Where a rule may stand: it has not broken, and goes on only in states `G` and has ended only in states `E`. -/
def Sat (G E : State → Prop) : Run → Prop
  | going s => G s
  | ended s => E s
  | broken _ => False

@[simp] theorem sat_going (G E : State → Prop) (s : State) : (going s).Sat G E ↔ G s := Iff.rfl
@[simp] theorem sat_ended (G E : State → Prop) (s : State) : (ended s).Sat G E ↔ E s := Iff.rfl
@[simp] theorem sat_broken (G E : State → Prop) (f : Fault) : ¬(broken f).Sat G E := id

/-- What holds at the end of a part of a rule is the precondition of the rest. -/
theorem Sat.andThen {G G' E : State → Prop} {r : Run} {k : State → Run} (h : r.Sat G E) (hk : ∀ s, G s → (k s).Sat G' E) :
    (r.andThen k).Sat G' E := by
  cases r with
  | going s => exact hk s h
  | ended s => exact h
  | broken f => exact h.elim

theorem Sat.imp {G G' E E' : State → Prop} {r : Run} (h : r.Sat G E) (hG : ∀ s, G s → G' s) (hE : ∀ s, E s → E' s) :
    r.Sat G' E' := by
  cases r with
  | going s => exact hG s h
  | ended s => exact hE s h
  | broken f => exact h.elim

/-- What is known of the state a rule goes on in, from elsewhere. -/
theorem Sat.and_going {r : Run} {G G' E : State → Prop} (h : r.Sat G E) (h' : ∀ t, r = .going t → G' t) :
    r.Sat (fun t => G t ∧ G' t) E := by
  cases r with
  | going s => exact ⟨h, h' s rfl⟩
  | ended s => exact h
  | broken f => exact h.elim

/-- A whole rule that never breaks answers a next state. -/
theorem Sat.outcome {G E P : State → Prop} {r : Run} (h : r.Sat G E) (hG : ∀ s, G s → P s) (hE : ∀ s, E s → P s) :
    ∃ t, r.outcome = .next t ∧ P t := by
  cases r with
  | going s => exact ⟨s, rfl, hG s h⟩
  | ended s => exact ⟨s, rfl, hE s h⟩
  | broken f => exact h.elim

end Run

theorem memRead_ok {s : State} {a n : Nat} (h : a + n ≤ s.cfg.inCap.toNat) (k : List Byte → Run) :
    memRead s a n k = k (s.inBytes a n) := if_pos h

theorem memReadByte_ok {s : State} {a : Nat} (h : a + 1 ≤ s.cfg.inCap.toNat) (k : Byte → Run) :
    memReadByte s a k = k (s.inByte a) := if_pos h

theorem memWrite_ok {s : State} {a : Nat} {B : List Byte} (h : a + B.length ≤ s.cfg.outCap.toNat) :
    memWrite s a B = .going { s with outMem := s.outMem.putAll a B } := if_pos h

/-- `Accept` while BUSY = 1 changes nothing (10_state.md R13). -/
theorem accept_busy {s : State} (h : s.status.busy = true) (w : Word) : s.accept w = s := if_pos h

/-- The state `Accept` starts from once it finds BUSY = 0. -/
def State.fresh (s : State) : State := { s.discard with status := s.status.cleared, outLen := 0, outMem := [] }

/-- Everything `Accept` can do when BUSY = 0 (10_state.md R13). -/
theorem accept_idle {s : State} (h : s.status.busy = false) (w : Word) :
    s.accept w =
      if w = 1 then s.fresh.begin .compress
      else if w = 2 then s.fresh.begin .decompress
      else State.raise .cmd { s.fresh with status := { s.fresh.status with op := .noOp } } := by
  simp [State.accept, h, State.fresh]

/-- Everything the start of an operation can do (10_state.md R13): E_LEN, or BUSY and the first phase. -/
theorem begin_cases (s : State) (op : Op) :
    ((s.inLen > s.cfg.inCap ∨ op = .compress ∧ s.inLen.toNat > Config.maxn) ∧
      s.begin op = State.raise .len { s with status := { s.status with op := op } }) ∨
    (s.inLen ≤ s.cfg.inCap ∧ (op = .compress → s.inLen.toNat ≤ Config.maxn) ∧
      s.begin op = { s with status := { s.status with
        busy := true, phase := if op = .compress then .freq else .hdrr, op := op } }) := by
  unfold State.begin
  by_cases h1 : s.inLen > s.cfg.inCap
  · exact .inl ⟨.inl h1, by simp [h1]⟩
  · by_cases h2 : op = .compress ∧ s.inLen.toNat > Config.maxn
    · exact .inl ⟨.inr h2, by simp only [h1, h2, if_false, and_self, if_true]⟩
    · refine .inr ⟨by simpa using h1, fun ho => Nat.not_lt.mp fun hl => h2 ⟨ho, hl⟩, ?_⟩
      simp only [h1, h2, if_false]; rfl

end Sys2Proof.Machine
end

