-- ==== Sys2Proof/Laws/Tables.lean ====
section
/-! SUPPORT. The tables: reads after writes of FREQ and CODE, the symbols present, the priority structure. -/

namespace Sys2Proof.Machine

/-! ### FREQ -/

@[simp] theorem freqAt_freqZero (s : Byte) : freqAt freqZero s = 0 := by simp [freqAt, freqZero]

theorem freqAt_freqPut (f : FreqTable) (s u : Byte) (v : Word) :
    freqAt (freqPut f s v) u = if s = u then v else freqAt f u := by
  simp only [freqAt, freqPut, Vector.getElem_set, ← BitVec.toNat_inj]

/-- Two tables with the same entries are one. -/
theorem freq_ext {f g : FreqTable} (h : ∀ s, freqAt f s = freqAt g s) : f = g := by
  ext i hi j
  have := h (BitVec.ofNat 8 i)
  simp only [freqAt, BitVec.toNat_ofNat, Nat.mod_eq_of_lt hi] at this
  rw [this]

/-- The symbols present are those with a count other than 0, each with its count. -/
theorem mem_present (f : FreqTable) (s : Byte) (c : Word) : (s, c) ∈ present f ↔ freqAt f s = c ∧ c ≠ 0 := by
  simp only [present, List.mem_filterMap, Prod.exists, List.mem_zipIdx_iff_getElem?, Vector.getElem?_toList]
  constructor
  · rintro ⟨d, i, hi, h⟩
    obtain ⟨hlt, rfl⟩ := Vector.getElem?_eq_some_iff.mp hi
    split at h
    · cases h
    · next hd =>
      cases h
      exact ⟨by simp [freqAt, Nat.mod_eq_of_lt hlt], hd⟩
  · rintro ⟨rfl, hc⟩
    exact ⟨freqAt f s, s.toNat, by simp [freqAt], by simp [show freqAt f s ≠ 0#32 from hc]⟩

/-- They stand in strictly ascending order of symbol. -/
theorem present_ascending (f : FreqTable) : (present f).Pairwise fun r r' => r.1.toNat < r'.1.toNat := by
  have hz : f.toList.zipIdx.Pairwise fun x y => x.2 < y.2 := by
    rw [← List.pairwise_map, List.zipIdx_map_snd]
    exact List.pairwise_lt_range' 1
  have hb : ∀ x ∈ f.toList.zipIdx, x.2 < 256 := by
    intro x hx
    simpa using List.snd_lt_of_mem_zipIdx hx
  refine List.pairwise_filterMap.mpr ((List.Pairwise.and_mem.mp hz).imp ?_)
  rintro ⟨c, i⟩ ⟨d, j⟩ ⟨hi, hj, h⟩ r hr r' hr'
  have hi' := hb _ hi
  have hj' := hb _ hj
  dsimp only at hr hr' h hi' hj'
  split at hr <;> simp at hr
  split at hr' <;> simp at hr'
  subst hr; subst hr'
  simp only [BitVec.toNat_ofNat]
  omega

theorem present_nodup (f : FreqTable) : ((present f).map Prod.fst).Nodup := by
  refine List.pairwise_map.mpr ((present_ascending f).imp fun h heq => ?_)
  rw [heq] at h; exact Nat.lt_irrefl _ h

/-- At most 256 symbols exist. -/
theorem present_length_le (f : FreqTable) : (present f).length ≤ 256 := by
  exact (List.length_filterMap_le _ _).trans (by simp)

/-- Counting one more byte. -/
theorem countBytes_append (X : List Byte) (b : Byte) :
    countBytes (X ++ [b]) = freqPut (countBytes X) b (freqAt (countBytes X) b + 1) := by
  simp [countBytes]

/-- The counting loop counts (40_frequency_analyzer.md R80), modulo the width of an entry. -/
theorem freqAt_countBytes (X : List Byte) (s : Byte) : freqAt (countBytes X) s = BitVec.ofNat 32 (X.count s) := by
  induction X using List.reverseRecOn with
  | nil => simp [countBytes]
  | append_singleton X b ih =>
    rw [countBytes_append, freqAt_freqPut, List.count_append, List.count_singleton]
    by_cases h : b = s
    · subst h; simp [ih, BitVec.ofNat_add]
    · simp [h, ih]

/-! ### CODE -/

@[simp] theorem present_freqZero : present freqZero = [] := by
  apply List.eq_nil_iff_forall_not_mem.mpr
  rintro ⟨b, c⟩ hh; rw [mem_present] at hh; exact hh.2 (by rw [← hh.1]; simp)

/-- A new symbol adds one pair to FREQ's non-zero entries. -/
theorem present_freqPut (f : FreqTable) (b : Byte) (c : Word) (hb : freqAt f b = 0) (hc : c ≠ 0) :
    (present (freqPut f b c)).Perm ((b, c) :: present f) := by
  apply (List.perm_ext_iff_of_nodup (List.Nodup.of_map _ (present_nodup _)) ?_).mpr
  · rintro ⟨u, d⟩
    simp only [mem_present, freqAt_freqPut, List.mem_cons, Prod.mk.injEq]
    by_cases h : b = u
    · subst h; simp only [if_true, hb, true_and]
      constructor
      · rintro ⟨h1, h2⟩; exact .inl h1.symm
      · rintro (rfl | ⟨h1, h2⟩)
        · exact ⟨rfl, hc⟩
        · exact absurd h1.symm h2
    · simp [h, Ne.symm h]
  · refine List.nodup_cons.mpr ⟨?_, List.Nodup.of_map _ (present_nodup _)⟩
    rw [mem_present]; rintro ⟨h1, h2⟩; exact h2 (h1.symm.trans hb)

/-- The counts of an input that fits 32 bits sum to its length. -/
theorem sum_present_countBytes (X : List Byte) (hX : X.length < 2 ^ 32) :
    ((present (countBytes X)).map fun r => r.2.toNat).sum = X.length := by
  have h1 : ((present (countBytes X)).map fun r => r.2.toNat) =
      ((present (countBytes X)).map Prod.fst).map fun b => X.count b := by
    rw [List.map_map]; apply List.map_congr_left
    rintro ⟨b, c⟩ hb
    rw [mem_present, freqAt_countBytes] at hb
    have := List.count_le_length (a := b) (l := X)
    rw [← hb.1]; simp; omega
  rw [h1, ← List.sum_toFinset _ (present_nodup _), ← List.sum_toFinset_count_eq_length X]
  apply Finset.sum_congr _ (fun _ _ => rfl)
  ext b
  simp only [List.mem_toFinset, List.mem_map, Prod.exists, exists_and_right, exists_eq_right, mem_present,
    freqAt_countBytes]
  have := List.count_le_length (a := b) (l := X)
  constructor
  · rintro ⟨c, rfl, hc⟩; by_contra hn; exact hc (by simp [List.count_eq_zero_of_not_mem hn])
  · intro hb
    refine ⟨_, rfl, fun h0 => ?_⟩
    have h0 := congrArg BitVec.toNat h0
    have := List.count_pos_iff.mpr hb
    simp at h0; omega

@[simp] theorem codeAt_codeEmpty (s : Byte) : codeAt codeEmpty s = [] := by simp [codeAt, codeEmpty]

theorem codeAt_codePut (t : CodeTable) (s u : Byte) (p : Bits) :
    codeAt (codePut t s p) u = if s = u then p else codeAt t u := by
  simp only [codeAt, codePut, Vector.getElem_set, ← BitVec.toNat_inj]

/-! ### NODE -/

@[simp] theorem Node.freq_kill (n : Node) : n.kill.freq = n.freq := by cases n <;> rfl
@[simp] theorem Node.live_kill (n : Node) : n.kill.live = false := by cases n <;> rfl
@[simp] theorem Node.isLeaf_kill (n : Node) : n.kill.isLeaf = n.isLeaf := by cases n <;> rfl

/-- The priority structure L of 41_tree_builder.md R87. -/
theorem mem_liveSet (A : Arena) (n : Nat) (i : NodeIx) : i ∈ liveSet A n ↔ i.val < n ∧ (A.get i).live = true := by
  simp only [liveSet, List.mem_filterMap, List.mem_range]
  constructor
  · rintro ⟨j, hj, h⟩
    split at h
    · split at h
      · cases h; exact ⟨hj, ‹_›⟩
      · cases h
    · cases h
  · rintro ⟨hi, hl⟩
    exact ⟨i, hi, by simp [i.isLt, hl]⟩

/-- The order of 41_tree_builder.md R88. -/
theorem keyLt_iff (A : Arena) (i j : NodeIx) :
    keyLt A i j = true ↔ (A.get i).freq.toNat < (A.get j).freq.toNat ∨ (A.get i).freq = (A.get j).freq ∧ i < j := by
  simp [keyLt, BitVec.lt_def]

theorem keyLt_trans {A : Arena} {i j k : NodeIx} (h : keyLt A i j = true) (h' : keyLt A j k = true) :
    keyLt A i k = true := by
  simp only [keyLt_iff, ← BitVec.toNat_inj, Fin.lt_def] at *; omega

theorem keyLt_total {A : Arena} {i j : NodeIx} (h : i ≠ j) : keyLt A i j = true ∨ keyLt A j i = true := by
  have := Fin.val_ne_of_ne h
  simp only [keyLt_iff, ← BitVec.toNat_inj, Fin.lt_def]; omega

/-- `argmin` is a member of the list. -/
theorem argmin_mem (A : Arena) (i : NodeIx) (L : List NodeIx) : argmin A i L ∈ i :: L := by
  induction L generalizing i with
  | nil => simp [argmin]
  | cons j L ih =>
    have := ih (if keyLt A j i then j else i)
    simp only [argmin, List.foldl_cons, List.mem_cons] at *
    rcases this with h | h
    · rw [h]; split <;> simp
    · simp [h]

/-- `argmin` has the least key (00_scope.md R8). -/
theorem argmin_least (A : Arena) (i : NodeIx) (L : List NodeIx) :
    ∀ j ∈ i :: L, j ≠ argmin A i L → keyLt A (argmin A i L) j = true := by
  induction L generalizing i with
  | nil => simp [argmin]
  | cons k L ih =>
    intro j hj hne
    set m := if keyLt A k i then k else i with hm
    have hunf : argmin A i (k :: L) = argmin A m L := rfl
    rw [hunf] at hne ⊢
    have hstep : ∀ x, (x = i ∨ x = k) → x ≠ m → keyLt A m x = true := by
      intro x hx hxm
      by_cases hk : keyLt A k i = true
      · have : m = k := by simp [hm, hk]
        rcases hx with rfl | rfl
        · rw [this]; exact hk
        · exact absurd this.symm hxm
      · have : m = i := by simp [hm, hk]
        rcases hx with rfl | rfl
        · exact absurd this.symm hxm
        · rw [this] at hxm ⊢
          exact (keyLt_total (Ne.symm hxm)).resolve_right hk
    by_cases hjm : j = m
    · exact ih m j (by simp [hjm]) hne
    · have hcase : (j = i ∨ j = k) ∨ j ∈ L := by
        simp only [List.mem_cons] at hj; tauto
      rcases hcase with h | h
      · have h1 := hstep j h hjm
        by_cases hmm : m = argmin A m L
        · rw [← hmm]; exact h1
        · exact keyLt_trans (ih m m (by simp) hmm) h1
      · exact ih m j (by simp [h]) hne

/-- Everything `removeMin` can do: the least live index, its `live` bit cleared. -/
theorem removeMin_some {A A' : Arena} {n : Nat} {a : NodeIx} (h : removeMin A n = some (a, A')) :
    a ∈ liveSet A n ∧ (∀ j ∈ liveSet A n, j ≠ a → keyLt A a j = true) ∧ A' = A.set a (A.get a).kill := by
  unfold removeMin at h
  split at h
  · cases h
  · next i L hL =>
    cases h
    rw [hL]
    exact ⟨argmin_mem A i L, argmin_least A i L, rfl⟩

theorem removeMin_none {A : Arena} {n : Nat} (h : removeMin A n = none) : liveSet A n = [] := by
  unfold removeMin at h
  split at h
  · assumption
  · cases h

end Sys2Proof.Machine
end

