-- ==== Sys2Proof/Laws/Engine.lean ====
section
/-! SUPPORT. The step, said once: what the engine's step and a host write to CMD run. -/

namespace Sys2Proof.Machine

@[simp] theorem exec_tree (s : State) : exec .tree s = .next (treeRule s) := rfl
@[simp] theorem exec_code (s : State) : exec .code s = .next (codeRule s) := rfl
@[simp] theorem exec_freq (s : State) : exec .freq s = (freqRule s).outcome := rfl
@[simp] theorem exec_hdrw (s : State) : exec .hdrw s = (hdrwRule s).outcome := rfl
@[simp] theorem exec_pack (s : State) : exec .pack s = (packRule s).outcome := rfl
@[simp] theorem exec_hdrr (s : State) : exec .hdrr s = (hdrrRule s).outcome := rfl
@[simp] theorem exec_trav (s : State) : exec .trav s = (travRule s).outcome := rfl

/-- What a legal STATUS with BUSY = 1 says of the other fields. -/
theorem Status.legal_busy {t : Status} (h : t.legal = true) (hb : t.busy = true) :
    t.done = false ∧ t.err = false ∧ t.errcode = .noError ∧ Status.runs t.op t.phase = true := by
  rcases t with ⟨b, d, e, c, p, o⟩; simp only at hb; subst hb
  cases d <;> cases e <;> simp_all [Status.legal]

/-- Header length (43_header_codec.md R101). -/
theorem headerBytes_length (w : Scratch) : (headerBytes w).length = 5 * (present w.freq).length + 8 := by
  have : ((present w.freq).flatMap fun r => r.1 :: be r.2.toNat).length = 5 * (present w.freq).length := by
    induction present w.freq with
    | nil => rfl
    | cons r rs ih => simp [List.flatMap_cons, ih]; omega
  simp only [headerBytes, List.length_append, be_length, this]; omega

/-- An integer field of IN is below 2^32. -/
theorem ube_inBytes_lt (s : State) (a : Nat) : ube (s.inBytes a Config.cw) < 2 ^ 32 := ube_four_lt ..

/-- The engine has no step when BUSY = 0. -/
theorem engineStep_idle {s : State} (h : s.status.busy = false) : engineStep s = .next s := by
  simp [engineStep, h]

/-- While BUSY = 1 the engine's step is the rule of the phase that PHASE names (10_state.md R17). -/
theorem engineStep_busy {s : State} (h : s.status.busy = true) :
    engineStep s =
      match s.status.phase with
      | .idle => .fault .noPhase
      | .freq => exec .freq s
      | .tree => exec .tree s
      | .code => exec .code s
      | .hdrw => exec .hdrw s
      | .pack => exec .pack s
      | .hdrr => exec .hdrr s
      | .trav => exec .trav s := by
  simp only [engineStep, h, if_true]
  cases s.status.phase <;> rfl

/-- A host write of w to CMD is `Accept(w)` for every word (10_state.md R13). -/
theorem writeCmd_eq (w : Word) (s : State) : writeCmd w s = .next (s.accept w) := by
  unfold writeCmd runWord
  by_cases h1 : w = 1
  · subst h1; rfl
  · by_cases h2 : w = 2
    · subst h2; rfl
    · have : decode (.cmd w) = .error .illegalCommand := by simp only [decode]; rw [if_neg h1, if_neg h2]
      rw [this]

theorem step_nil {s : State} (h : s.turns = []) : step s = engineStep s := by
  simp [step, h]

theorem step_engine {s : State} {ts : List Turn} (h : s.turns = .engine :: ts) :
    step s = engineStep { s with turns := ts } := by
  simp [step, h]

theorem step_host {s : State} {m : HostMove} {ts : List Turn} (h : s.turns = .host m :: ts) :
    step s = hostStep m { s with turns := ts } := by
  simp [step, h]

@[simp] theorem steps_zero (s : State) : steps 0 s = .next s := rfl

theorem steps_next {s t : State} (h : step s = .next t) (n : Nat) : steps (n + 1) s = steps n t := by
  rw [steps, h]

/-- An idle block with no turn to come stays as it is, however long. -/
theorem steps_idle {s : State} (hb : s.status.busy = false) (ht : s.turns = []) (n : Nat) : steps n s = .next s := by
  induction n with
  | zero => rfl
  | succ n ih => rw [steps_next ((step_nil ht).trans (engineStep_idle hb)), ih]

/-- `steps` is the run of the host's interface. -/
theorem core_run_eq_steps (n : Nat) (s : State) : Host.Core.run Sys2Proof.core n s = steps n s := by
  induction n generalizing s with
  | zero => rfl
  | succ n ih => cases h : step s <;> simp [Host.Core.run, steps, Sys2Proof.core, h]; exact ih _

end Sys2Proof.Machine
end

