-- ==== Sys2Proof/Laws/PerInstr.lean ====
section
/-! SUPPORT. For all instructions, one lemma per constructor: what is encoded decodes to the instruction, and its fetch
word is well formed. -/

namespace Sys2Proof.Laws.ReadsBack

/-- The instruction's fetch word is well formed and decodes to it (30_encoding.md R62, R73). -/
def Statement (i : Instr) : Prop := (encode i).wellFormed = true ∧ decode (encode i) = .ok i ∧ i.wellFormed = true

theorem compress : Statement .compress := ⟨by decide, by decide, rfl⟩
theorem decompress : Statement .decompress := ⟨by decide, by decide, rfl⟩
theorem freq : Statement .freq := ⟨by decide, by decide, rfl⟩
theorem tree : Statement .tree := ⟨by decide, by decide, rfl⟩
theorem code : Statement .code := ⟨by decide, by decide, rfl⟩
theorem hdrw : Statement .hdrw := ⟨by decide, by decide, rfl⟩
theorem pack : Statement .pack := ⟨by decide, by decide, rfl⟩
theorem hdrr : Statement .hdrr := ⟨by decide, by decide, rfl⟩
theorem trav : Statement .trav := ⟨by decide, by decide, rfl⟩

end Sys2Proof.Laws.ReadsBack
end

