-- ==== Sys2Proof/Tests/Slice0.lean ====
section
/-! SUPPORT. Tests: words written out from 30_encoding.md, ill-formed terms that WellFormed refuses, one step each of the
instructions on vectors of 95_test_vectors.md, and states that meet the hypotheses of the obligations. -/

namespace Sys2Proof.Tests

set_option Elab.async false

open Sys2Proof.Machine

/-! ### Builders -/

/-- A memory that holds the bytes B from address 0 on. -/
def memOf (B : List Byte) : Memory := B.zipIdx.map fun (v, a) => (a, v)

/-- The machine after reset with an input in IN and its length in IN_LEN. -/
def loaded (X : List Byte) : State := { State.reset with inMem := memOf X, inLen := BitVec.ofNat 64 X.length }

/-- STATUS while the operation `op` stands before phase `p`. -/
def running (op : Op) (p : Phase) : Status := ⟨true, false, false, .noError, p, op⟩

/-- A running state over an input and a scratch state. -/
def before (op : Op) (p : Phase) (X : List Byte) (w : Scratch) : State :=
  { loaded X with status := running op p, work := w }

/-- FREQ with the given non-zero entries. -/
def tableOf (L : List (Byte × Word)) : FreqTable := L.foldl (fun f r => freqPut f r.1 r.2) freqZero

/-- NODE with the given first entries. -/
def arenaOf (L : List Node) : Arena := L.zipIdx.foldl (fun A (n, i) => A.setIfInBounds i n) Scratch.zero.node

/-- CODE with the given code words. -/
def codesFrom (L : List (Byte × Bits)) : CodeTable := L.foldl (fun c e => codePut c e.1 e.2) codeEmpty

/-- What FREQ and HDRR leave for the given counts. -/
def countsOf (L : List (Byte × Word)) : Scratch :=
  { Scratch.zero with
    freq := tableOf L, k := BitVec.ofNat 9 L.length, total := (L.map Prod.snd).foldl (· + ·) 0 }

/-- The next state of an outcome, if it is one. -/
def nextOf : Host.Outcome State Fault Refusal → Option State
  | .next t => some t
  | .fault _ => none
  | .refused _ => none

/-- "ABRACADABRA" (45_compressor.md R127). -/
def abra : List Byte := [0x41, 0x42, 0x52, 0x41, 0x43, 0x41, 0x44, 0x41, 0x42, 0x52, 0x41]

/-- Its counts, V-F4. -/
def abraCounts : List (Byte × Word) := [(0x41, 5), (0x42, 2), (0x43, 1), (0x44, 1), (0x52, 2)]

/-- The leaves and internal nodes of V-T6. -/
def abraNodes : List Node :=
  [.leaf 5 0x41 false, .leaf 2 0x42 false, .leaf 1 0x43 false, .leaf 1 0x44 false, .leaf 2 0x52 false,
    .internal 2 2 3 false, .internal 4 1 4 false, .internal 6 5 6 false, .internal 11 0 7 true]

/-- The scratch state with V-T6's tree. -/
def abraTree : Scratch := { countsOf abraCounts with node := arenaOf abraNodes, nnode := 9, root := 8 }

/-- The header of V-H4. -/
def abraHeader : List Byte :=
  [0x00, 0x00, 0x00, 0x05, 0x41, 0x00, 0x00, 0x00, 0x05, 0x42, 0x00, 0x00, 0x00, 0x02, 0x43, 0x00, 0x00, 0x00, 0x01,
    0x44, 0x00, 0x00, 0x00, 0x01, 0x52, 0x00, 0x00, 0x00, 0x02, 0x00, 0x00, 0x00, 0x0b]

/-! ### Well-formedness refuses ill-formed terms -/

theorem test_wf_cmd_zero : (FetchWord.cmd 0x00000000).wellFormed = false := by decide
theorem test_wf_cmd_three : (FetchWord.cmd 0x00000003).wellFormed = false := by decide
theorem test_wf_cmd_reserved_bit : (FetchWord.cmd 0x00000101).wellFormed = false := by decide
theorem test_wf_phase_idle : (FetchWord.phase 0x0).wellFormed = false := by decide
theorem test_wf_phase_reserved : (FetchWord.phase 0x8).wellFormed = false := by decide
theorem test_wf_header_empty :
    (⟨[], 0⟩ : Header).nonEmpty = false ∧ (⟨[], 0⟩ : Header).wellFormed = false := by decide
theorem test_wf_header_too_long :
    (⟨List.replicate 257 ⟨0x41, 1⟩, 257⟩ : Header).fits = false ∧
      (⟨List.replicate 257 ⟨0x41, 1⟩, 257⟩ : Header).wellFormed = false := by decide +kernel
theorem test_wf_header_zero_count :
    (⟨[⟨0x41, 2⟩, ⟨0x42, 0⟩], 2⟩ : Header).countsPositive = false ∧
      (⟨[⟨0x41, 2⟩, ⟨0x42, 0⟩], 2⟩ : Header).wellFormed = false := by decide
theorem test_wf_header_symbol_twice :
    (⟨[⟨0x41, 2⟩, ⟨0x41, 1⟩], 3⟩ : Header).symbolsDistinct = false ∧
      (⟨[⟨0x41, 2⟩, ⟨0x41, 1⟩], 3⟩ : Header).wellFormed = false := by decide
theorem test_wf_header_wrong_sum :
    (⟨[⟨0x41, 2⟩, ⟨0x42, 1⟩], 4⟩ : Header).sumMatches = false ∧
      (⟨[⟨0x41, 2⟩, ⟨0x42, 1⟩], 4⟩ : Header).wellFormed = false := by decide
theorem test_wf_header_descending :
    (⟨[⟨0x42, 1⟩, ⟨0x41, 2⟩], 3⟩ : Header).ascending = false ∧
      (⟨[⟨0x42, 1⟩, ⟨0x41, 2⟩], 3⟩ : Header).wellFormed = true := by decide

/-! ### Words written out from the encodings (R62, R63, R73) -/

theorem test_decode_compress : decode (.cmd 0b00000000000000000000000000000001) = .ok .compress := by decide
theorem test_decode_decompress : decode (.cmd 0b00000000000000000000000000000010) = .ok .decompress := by decide
theorem test_decode_freq : decode (.phase 0b0001) = .ok .freq := by decide
theorem test_decode_tree : decode (.phase 0b0010) = .ok .tree := by decide
theorem test_decode_code : decode (.phase 0b0011) = .ok .code := by decide
theorem test_decode_hdrw : decode (.phase 0b0100) = .ok .hdrw := by decide
theorem test_decode_pack : decode (.phase 0b0101) = .ok .pack := by decide
theorem test_decode_hdrr : decode (.phase 0b0110) = .ok .hdrr := by decide
theorem test_decode_trav : decode (.phase 0b0111) = .ok .trav := by decide
theorem test_decode_reserved_bit : decode (.cmd 0x00000101) = .error .illegalCommand := by decide
theorem test_decode_high_bit : decode (.cmd 0x80000001) = .error .illegalCommand := by decide
theorem test_encode_words :
    encode .compress = .cmd 0x00000001 ∧ encode .decompress = .cmd 0x00000002 ∧ encode .trav = .phase 0b0111 := by
  decide
theorem test_table_words :
    decodeTableWord 32 1 = some .compress ∧ decodeTableWord 32 2 = some .decompress ∧
      decodeTableWord 8 1 = some .freq ∧ decodeTableWord 8 7 = some .trav ∧ decodeTableWord 8 8 = none := by decide

/-- V-H6: a zero symbol byte is just a symbol. -/
theorem test_encode_header :
    encodeHeader ⟨[⟨0x00, 2⟩, ⟨0xff, 1⟩], 3⟩ =
      [0x00, 0x00, 0x00, 0x02, 0x00, 0x00, 0x00, 0x00, 0x02, 0xff, 0x00, 0x00, 0x00, 0x01, 0x00, 0x00, 0x00, 0x03] := by
  decide
/-- V-E4: K is checked before the records are read. -/
theorem test_decode_header_order : decodeHeader [0x00, 0x00, 0x01, 0x2c, 0x41, 0x00] = .error .hdrBad := by
  decide
/-- V-P9. -/
theorem test_pack_bits :
    packBits [false, true, false, true, true, false, true, true, true, false, true, false, false] = [0x5b, 0xa0] := by
  decide

/-! ### Placed by the host's fetch hook, each instruction is what the first step after reset runs -/

theorem test_fetch_command : step (State.reset.withFetchWord 32 1) = exec .compress State.reset := rfl
theorem test_fetch_phase :
    step (State.reset.withFetchWord 8 7) = exec .trav { State.reset with status := running .decompress .trav } := rfl

/-! ### One step of each instruction -/

/-- V-S6: IN_LEN = 2^32 is beyond MAXN. -/
theorem test_compress_long :
    (nextOf (exec .compress { State.reset with inLen := 0x100000000 })).map (fun t => t.status.word) =
      some 0x00010026 := by decide
/-- R121: acceptance. -/
theorem test_compress_accepted :
    (nextOf (exec .compress (loaded [0x41]))).map (fun t => (t.status.word, t.inLen)) =
      some (0x00010101, 1) := by decide
/-- V-S7: MAXN does not bind DECOMPRESS. -/
theorem test_decompress_long :
    (nextOf (exec .decompress { State.reset with inLen := 0x100000000 })).map (fun t => t.status.word) =
      some 0x00020601 := by decide
/-- V-S5, for DECOMPRESS: IN_LEN = IN_CAP + 1. -/
theorem test_decompress_beyond_capacity :
    (nextOf (exec .decompress { State.reset with cfg := ⟨3, 3⟩, inLen := 4 })).map (fun t => t.status.word) =
      some 0x00020026 := by decide

/-- V-F6. -/
theorem test_freq_counts :
    (nextOf (exec .freq (before .compress .freq [0xff, 0x00, 0x00] Scratch.zero))).map
        (fun t => (present t.work.freq, t.work.k, t.work.total, t.status.phase)) =
      some ([(0x00, 2), (0xff, 1)], 2, 3, .tree) := by decide +kernel
/-- V-F1. -/
theorem test_freq_empty :
    (nextOf (exec .freq (before .compress .freq [] Scratch.zero))).map (fun t => (t.status.word, t.outLen)) =
      some (0x00010002, 0) := by decide +kernel

/-- V-T6. -/
theorem test_tree_leaf_before_internal :
    (nextOf (exec .tree (before .compress .tree abra (countsOf abraCounts)))).map
        (fun t => ((t.work.node.toList.take 9), t.work.nnode, t.work.root, t.status.phase)) =
      some (abraNodes, 9, 8, .code) := by decide +kernel
/-- V-T5: the second removal takes index 0 before index 1 at equal freq; OP = 2 goes on to TRAV. -/
theorem test_tree_second_removal :
    (nextOf (exec .tree (before .decompress .tree [] (countsOf [(0x41, 2), (0x42, 2), (0x43, 1)])))).map
        (fun t => ((t.work.node.toList.drop 3).take 2, t.work.root, t.status.phase)) =
      some ([.internal 3 2 0 false, .internal 5 1 3 true], 4, .trav) := by decide +kernel

/-- V-C6. -/
theorem test_code_paths :
    (nextOf (exec .code (before .compress .code abra abraTree))).map
        (fun t => ([0x41, 0x43, 0x44, 0x42, 0x52, 0x45].map (codeAt t.work.code), t.status.phase)) =
      some ([[false], [true, false, false], [true, false, true], [true, true, false], [true, true, true], []], .hdrw) := by
  decide +kernel
/-- V-C1: the artificial bit. -/
theorem test_code_singleton :
    (nextOf (exec .code (before .compress .code [0x41]
        { countsOf [(0x41, 1)] with node := arenaOf [.leaf 1 0x41 true], nnode := 1 }))).map
        (fun t => (codeAt t.work.code 0x41, codeAt t.work.code 0x42)) =
      some ([false], []) := by decide +kernel

/-- V-H4. -/
theorem test_hdrw_bytes :
    (nextOf (exec .hdrw (before .compress .hdrw abra (countsOf abraCounts)))).map
        (fun t => (t.outMem, t.work.optr, t.status.phase)) =
      some (memOf abraHeader, 33, .pack) := by decide +kernel
/-- V-S12: the 33-byte header does not fit 32 bytes. -/
theorem test_hdrw_overflow :
    (nextOf (exec .hdrw { before .compress .hdrw abra (countsOf abraCounts) with cfg := ⟨64, 32⟩ })).map
        (fun t => (t.status.word, t.outLen)) = some (0x00010466, 0) := by decide +kernel

/-- The state before PACK in R118, with any OUT_CAP. -/
def beforePack (outCap : Word64) : State :=
  { before .compress .pack abra
      { Scratch.zero with
        optr := 33
        code := codesFrom [(0x41, [false]), (0x42, [true, true, false]), (0x43, [true, false, false]),
          (0x44, [true, false, true]), (0x52, [true, true, true])] } with
    cfg := ⟨64, outCap⟩, outMem := memOf abraHeader }

/-- V-P5. -/
theorem test_pack_bytes :
    (nextOf (exec .pack (beforePack 64))).map (fun t => (t.outMem.drop 33, t.outLen, t.status.word)) =
      some ([(33, 0x6e), (34, 0x8a), (35, 0xdc)], 36, 0x00010002) := by decide +kernel
/-- V-S13: the third payload byte does not fit. -/
theorem test_pack_overflow :
    (nextOf (exec .pack (beforePack 35))).map (fun t => (t.status.word, t.outLen)) = some (0x00010566, 0) := by
  decide +kernel

/-- R106. -/
theorem test_hdrr_reads :
    (nextOf (exec .hdrr (before .decompress .hdrr (abraHeader ++ [0x6e, 0x8a, 0xdc]) Scratch.zero))).map
        (fun t => (present t.work.freq, t.work.k.toNat, t.work.sum.toNat, t.work.iptr.toNat, t.status.phase)) =
      some (abraCounts, 5, 11, 33, .tree) := by decide +kernel
/-- V-E5: the second record is cut. -/
theorem test_hdrr_record_cut :
    (nextOf (exec .hdrr (before .decompress .hdrr
        [0x00, 0x00, 0x00, 0x02, 0x41, 0x00, 0x00, 0x00, 0x02, 0x42, 0x00, 0x00, 0x00] Scratch.zero))).map
        (fun t => (t.status.word, t.outLen)) = some (0x00020636, 0) := by decide +kernel

/-- The state before TRAV for a two-symbol container, V-D6's tree: B at the left, A at the right. -/
def beforeTrav (payload : List Byte) : State :=
  before .decompress .trav
    ([0x00, 0x00, 0x00, 0x02, 0x41, 0x00, 0x00, 0x00, 0x02, 0x42, 0x00, 0x00, 0x00, 0x01, 0x00, 0x00, 0x00, 0x03]
      ++ payload)
    { countsOf [(0x41, 2), (0x42, 1)] with
      node := arenaOf [.leaf 2 0x41 false, .leaf 1 0x42 false, .internal 3 1 0 true]
      nnode := 3, root := 2, iptr := 18 }

/-- V-D18: the padding bits are ignored. -/
theorem test_trav_padding :
    (nextOf (exec .trav (beforeTrav [0xdf]))).map (fun t => (t.outMem, t.outLen, t.status.word)) =
      some ([(0, 0x41), (1, 0x41), (2, 0x42)], 3, 0x00020002) := by decide +kernel
/-- R116 (c): no payload byte at all. -/
theorem test_trav_truncated :
    (nextOf (exec .trav (beforeTrav []))).map (fun t => (t.status.word, t.outLen, t.outMem)) =
      some (0x00020756, 0, []) := by decide +kernel

/-! ### Memory, STATUS and the host -/

theorem test_memory_rewrite : (((memOf [1, 2, 3]).put 1 9).put 7 4) = [(0, 1), (1, 9), (2, 3), (7, 4)] := by decide
/-- V-S2. -/
theorem test_illegal_command :
    (nextOf (step (issue 0x00000000 State.reset))).map (fun t => (t.status.word, t.outLen)) =
      some (0x00000016, 0) := by decide
/-- R42: a read at IN_CAP gives 0. -/
theorem test_in_read_beyond : ({ loaded [0x41] with cfg := ⟨1, 1⟩ } : State).inRead 1 = 0 := by decide

/-! ### States that meet the hypotheses of the obligations -/

theorem next_of_map {α : Type} {o : Host.Outcome State Fault Refusal} {f : State → α} {v : α}
    (h : (nextOf o).map f = some v) : ∃ t, o = .next t ∧ f t = v := by
  cases o with
  | next t => exact ⟨t, rfl, by simpa [nextOf] using h⟩
  | fault x => simp [nextOf] at h
  | refused x => simp [nextOf] at h

/-- One symbol, nine times. -/
def oneTree : Scratch :=
  { countsOf [(0x41, 9)] with node := arenaOf [.leaf 9 0x41 true], nnode := 1, root := 0 }

/-- V-D6's counts and tree: B at the left, A at the right. -/
def twoTree : Scratch :=
  { countsOf [(0x41, 2), (0x42, 1)] with
    node := arenaOf [.leaf 2 0x41 false, .leaf 1 0x42 false, .internal 3 1 0 true]
    nnode := 3, root := 2, iptr := 18 }

/-- Every symbol once: the largest K. -/
def allCounts : Scratch := countsOf ((List.range 256).map fun i => (BitVec.ofNat 8 i, 1))

theorem freqOk_one : FreqOk oneTree := ⟨by decide +kernel, by decide +kernel, by decide +kernel, by decide +kernel⟩
theorem freqOk_two : FreqOk twoTree := ⟨by decide +kernel, by decide +kernel, by decide +kernel, by decide +kernel⟩
theorem freqOk_all : FreqOk allCounts := ⟨by decide +kernel, by decide +kernel, by decide +kernel, by decide +kernel⟩

theorem two_k : twoTree.k.toNat = 2 := by decide +kernel
theorem two_root : twoTree.root = 2 := rfl
theorem two_get_0 : twoTree.node.get 0 = .leaf 2 0x41 false := by decide +kernel
theorem two_get_1 : twoTree.node.get 1 = .leaf 1 0x42 false := by decide +kernel
theorem two_get_2 : twoTree.node.get 2 = .internal 3 1 0 true := by decide +kernel

theorem two_index {i : NodeIx} (h : i ≤ twoTree.root) : i = 0 ∨ i = 1 ∨ i = 2 := by
  have : i.val ≤ 2 := h
  rcases i with ⟨i, hi⟩
  simp only [Fin.ext_iff] at *
  have h2 : ((2 : NodeIx) : Nat) = 2 := rfl
  have h1 : ((1 : NodeIx) : Nat) = 1 := rfl
  have h0 : ((0 : NodeIx) : Nat) = 0 := rfl
  omega

theorem two_paths {i : NodeIx} {p : Bits} (h : PathTo twoTree.node twoTree.root i p) :
    i = 2 ∧ p = [] ∨ i = 1 ∧ p = [false] ∨ i = 0 ∧ p = [true] := by
  induction h with
  | root => exact .inl ⟨rfl, rfl⟩
  | left _ hi ih =>
    rcases ih with ⟨rfl, rfl⟩ | ⟨rfl, rfl⟩ | ⟨rfl, rfl⟩
    · rw [two_get_2] at hi; cases hi; exact .inr (.inl ⟨rfl, rfl⟩)
    · rw [two_get_1] at hi; cases hi
    · rw [two_get_0] at hi; cases hi
  | right _ hi ih =>
    rcases ih with ⟨rfl, rfl⟩ | ⟨rfl, rfl⟩ | ⟨rfl, rfl⟩
    · rw [two_get_2] at hi; cases hi; exact .inr (.inr ⟨rfl, rfl⟩)
    · rw [two_get_1] at hi; cases hi
    · rw [two_get_0] at hi; cases hi

theorem two_path_b : PathTo twoTree.node twoTree.root 1 [false] := .left (p := []) .root two_get_2
theorem two_path_a : PathTo twoTree.node twoTree.root 0 [true] := .right (p := []) .root two_get_2

theorem two_child {c i : NodeIx} (hi : i ≤ twoTree.root) (h : IsChild twoTree.node c i) : i = 2 := by
  obtain ⟨f, l, r, v, hg, _⟩ := h
  rcases two_index hi with rfl | rfl | rfl
  · rw [two_get_0] at hg; cases hg
  · rw [two_get_1] at hg; cases hg
  · rfl

theorem treeOk_two : TreeOk twoTree where
  nnode := by decide +kernel
  root := by decide +kernel
  leaves := by
    intro j hj
    rw [two_k] at hj
    have : j ≤ twoTree.root := Nat.le_of_lt hj
    rcases two_index this with rfl | rfl | rfl
    · exact ⟨(0x41, 2), false, by decide +kernel, two_get_0⟩
    · exact ⟨(0x42, 1), false, by decide +kernel, two_get_1⟩
    · exact absurd hj (by decide)
  inner := by
    intro i h1 h2
    rw [two_k] at h1
    rcases two_index h2 with rfl | rfl | rfl
    · exact absurd h1 (by decide)
    · exact absurd h1 (by decide)
    · exact ⟨3, 1, 0, true, two_get_2, by decide, by decide, by decide⟩
  owned := by
    intro c hc
    refine ⟨2, ⟨by decide, 3, 1, 0, true, two_get_2, ?_⟩, fun i h => two_child h.1 h.2⟩
    rcases two_index (Fin.le_of_lt hc) with rfl | rfl | rfl
    · exact .inr rfl
    · exact .inl rfl
    · exact absurd hc (by decide)
  live := by
    intro i hi
    rcases two_index hi with rfl | rfl | rfl
    · rw [two_get_0]; decide
    · rw [two_get_1]; decide
    · rw [two_get_2]; decide
  depth := by
    intro i p h _
    rw [two_k]
    rcases two_paths h with ⟨_, rfl⟩ | ⟨_, rfl⟩ | ⟨_, rfl⟩ <;> decide

theorem treeFreqOk_two : TreeFreqOk twoTree where
  leaf := by
    intro i f sym v hi h
    rcases two_index hi with rfl | rfl | rfl
    · rw [two_get_0] at h; cases h; decide +kernel
    · rw [two_get_1] at h; cases h; decide +kernel
    · rw [two_get_2] at h; cases h
  inner := by
    intro i f l r v hi h
    rcases two_index hi with rfl | rfl | rfl
    · rw [two_get_0] at h; cases h
    · rw [two_get_1] at h; cases h
    · rw [two_get_2] at h; cases h; decide +kernel
  root := by decide +kernel
  range := by
    intro i hi
    rcases two_index hi with rfl | rfl | rfl
    · rw [two_get_0]; decide +kernel
    · rw [two_get_1]; decide +kernel
    · rw [two_get_2]; decide +kernel

/-- A small machine: both capacities 3. -/
def small : State := { State.reset with cfg := ⟨3, 3⟩ }

/-- The small machine with an operation running before FREQ. -/
def smallBusy : State := { small with status := running .compress .freq }

theorem witness_TableWordsDecode : 8 ≤ (0x8 : BitVec 4).toNat ∧ 8 ≤ (0xf : BitVec 4).toNat := by decide

theorem witness_IllegalCommandReportsECmd :
    ((0x00000000 : Word) ≠ 1 ∧ (0x00000000 : Word) ≠ 2) ∧ ((0x00000101 : Word) ≠ 1 ∧ (0x00000101 : Word) ≠ 2) ∧
      State.reset.status.busy = false := by decide

theorem witness_IntegerFieldsRoundTrip :
    2 ^ 32 - 1 < 2 ^ 32 ∧ 3 < Config.cw ∧ ([0xff, 0xff, 0xff, 0xff] : List Byte).length = Config.cw := by decide

theorem witness_DecodeHeaderOfEncodeHeader :
    (⟨[⟨0xff, 0xffffffff⟩], 0xffffffff⟩ : Header).wellFormed = true ∧
      (⟨(List.range 256).map fun i => ⟨BitVec.ofNat 8 i, 1⟩, 256⟩ : Header).wellFormed = true := by decide +kernel

theorem witness_EncodeHeaderOfDecodeHeader :
    decodeHeader [0x00, 0x00, 0x00, 0x01, 0x41, 0x00, 0x00, 0x00, 0x09, 0x00, 0x00, 0x00, 0x09, 0xff] =
        .ok (⟨[⟨0x41, 9⟩], 9⟩, [0xff]) ∧ (⟨[⟨0x41, 9⟩], 9⟩ : Header).records ≠ [] := by decide

theorem witness_PayloadBitsRoundTrip : 7 < 8 * (packBits [true]).length := by decide

theorem witness_CompressAcceptance_ignored : smallBusy.status.busy = true := rfl
theorem witness_CompressAcceptance_long :
    ({ small with inLen := 4 } : State).status.busy = false ∧
    (({ small with inLen := 4 } : State).inLen.toNat > ({ small with inLen := 4 } : State).cfg.inCap.toNat) ∧
    (({ State.reset with inLen := 0x100000000 } : State).inLen.toNat > Config.maxn) := by decide
theorem witness_CompressAcceptance_accepted :
    ({ State.reset with inLen := 0xffffffff } : State).status.busy = false ∧
    ({ State.reset with inLen := 0xffffffff } : State).inLen.toNat ≤ State.reset.cfg.inCap.toNat ∧
    ({ State.reset with inLen := 0xffffffff } : State).inLen.toNat ≤ Config.maxn := by decide

theorem witness_DecompressAcceptance :
    smallBusy.status.busy = true ∧ small.status.busy = false ∧
    ({ small with inLen := 4 } : State).inLen.toNat > small.cfg.inCap.toNat ∧
    ({ small with inLen := 3 } : State).inLen.toNat ≤ small.cfg.inCap.toNat := by decide

theorem witness_CommandWhileBusyChangesNothing :
    smallBusy.status.busy = true ∧ (0x00000007 : Word64).setWidth 32 = (0x00000007 : Word) ∧
      ({ smallBusy with turns := [.host (.wrReg 0x00 32 7), .engine] } : State).turns =
        .host (.wrReg 0x00 32 7) :: [.engine] := by decide

theorem witness_RegisterReads :
    0x18 ≤ 0x18 ∧ 0x17 < 0x18 ∧ (0x17, 32) ∉ [(0x00, 32), (0x04, 32), (0x08, 64), (0x10, 64)] ∧
      (0x00, 64) ∉ [(0x00, 32), (0x04, 32), (0x08, 64), (0x10, 64)] := by decide

theorem witness_RegisterWrites : small.status.busy = false ∧ smallBusy.status.busy = true ∧ 0x18 ≤ 0x18 := by decide

theorem witness_InBufferAccess :
    small.cfg.inCap.toNat ≤ 3 ∧ 2 < smallBusy.cfg.inCap.toNat ∧ smallBusy.status.busy = true ∧
      2 < small.cfg.inCap.toNat ∧ small.status.busy = false ∧ 1 ≠ 2 := by decide

/-- An operation has ended well with one byte. -/
def oneByteOut : State := { small with status := Status.success .compress, outLen := 1, outMem := [(0, 5)] }

theorem witness_OutBufferAccess_valid :
    (oneByteOut.status.done = true ∧ oneByteOut.status.err = false ∧ 0 < oneByteOut.outLen.toNat) ∧
      oneByteOut.outMem.get 0 = some 5 := by decide
theorem witness_OutBufferAccess_unspecified :
    ¬(oneByteOut.status.done = true ∧ oneByteOut.status.err = false ∧ 1 < oneByteOut.outLen.toNat) := by decide

theorem witness_FinishReports : 0 < (1 : Word64).toNat := by decide

theorem witness_OnlyCommandsStartOperations_start :
    (issue 0x00000001 small).status.busy = false ∧
      ∃ t, step (issue 0x00000001 small) = .next t ∧ t.status.busy = true :=
  ⟨rfl, next_of_map (f := fun t => t.status.busy) (by decide)⟩
theorem witness_OnlyCommandsStartOperations_end :
    smallBusy.status.busy = true ∧ ∃ t, step smallBusy = .next t ∧ t.status.busy = false :=
  ⟨rfl, next_of_map (f := fun t => t.status.busy) (by decide +kernel)⟩

theorem witness_StepRunsTheDecodedInstruction_phase :
    smallBusy.status.busy = true ∧ decode (.phase smallBusy.status.phase.bits) = .ok .freq ∧ smallBusy.turns = [] ∧
      ({ smallBusy with turns := [.engine] } : State).turns = .engine :: [] := by decide
theorem witness_StepRunsTheDecodedInstruction_command :
    (issue 0x00000002 small).turns = .host (.wrReg 0x00 32 2) :: [] ∧
      decode (.cmd ((2 : Word64).setWidth 32)) = .ok .decompress := by decide

theorem witness_WaitPollsUntilIdle :
    ({ small with turns := [.host .wait] } : State).turns = .host .wait :: [] ∧ small.status.busy = false ∧
      ({ smallBusy with turns := [.host .wait] } : State).turns = .host .wait :: [] ∧
      smallBusy.status.busy = true := by decide

theorem witness_InstructionsLeaveTheHostSide : ∃ t, exec .freq smallBusy = .next t ∧ t.status.busy = false :=
  next_of_map (f := fun t => t.status.busy) (by decide +kernel)

theorem witness_FreqCountsTheInput :
    (loaded [0xff]).inLen.toNat ≤ (loaded [0xff]).cfg.inCap.toNat ∧ (loaded [0xff]).inLen.toNat ≤ Config.maxn ∧
      (loaded [0xff]).inLen ≠ 0 ∧ (loaded []).inLen = 0 := by decide

theorem witness_FreqTableInvariants :
    (before .compress .freq [0x41] Scratch.zero).inLen.toNat ≤ (loaded [0x41]).cfg.inCap.toNat ∧
    (before .compress .freq [0x41] Scratch.zero).inLen.toNat ≤ Config.maxn ∧
    ∃ t, exec .freq (before .compress .freq [0x41] Scratch.zero) = .next t ∧ t.status.phase = .tree :=
  ⟨by decide, by decide, next_of_map (f := fun t => t.status.phase) (by decide +kernel)⟩

theorem witness_TreeShape : FreqOk oneTree ∧ FreqOk twoTree ∧ FreqOk allCounts := ⟨freqOk_one, freqOk_two, freqOk_all⟩

theorem witness_TreeFrequencies : FreqOk oneTree ∧ FreqOk twoTree ∧ FreqOk allCounts :=
  ⟨freqOk_one, freqOk_two, freqOk_all⟩

/-- The hypotheses on two states hold of two that differ in OP and in what the arena holds. -/
theorem witness_TreeIsAFunctionOfFreq :
    FreqOk (before .compress .tree [] twoTree).work ∧
    FreqOk (before .decompress .tree [] (countsOf [(0x41, 2), (0x42, 1)])).work ∧
    twoTree.freq = (countsOf [(0x41, 2), (0x42, 1)]).freq :=
  ⟨freqOk_two, ⟨freqOk_two.1, freqOk_two.2, freqOk_two.3, freqOk_two.4⟩, rfl⟩

theorem witness_TreeOfOneSymbol : FreqOk oneTree ∧ oneTree.k = 1 := ⟨freqOk_one, by decide +kernel⟩

theorem witness_MergeTakesTheTwoLeast :
    2 < 511 ∧ 2 ≤ (liveSet (leafStep (tableOf [(0x41, 2), (0x42, 1)]) Scratch.zero.node) 2).length := by decide +kernel

theorem witness_CodeWordsArePaths :
    FreqOk twoTree ∧ TreeOk twoTree ∧ 2 ≤ twoTree.k.toNat ∧
    (∃ t, exec .code (before .compress .code [] twoTree) = .next t ∧ t.status.phase = .hdrw) ∧
    (0 : NodeIx) ≤ twoTree.root ∧ twoTree.node.get 0 = .leaf 2 0x41 false ∧
    PathTo twoTree.node twoTree.root 0 [true] ∧ freqAt twoTree.freq 0x43 = 0 :=
  ⟨freqOk_two, treeOk_two, by decide +kernel, ⟨_, rfl, rfl⟩, by decide, two_get_0, two_path_a, by decide +kernel⟩

theorem witness_CodeOfOneSymbol :
    oneTree.node.get oneTree.root = .leaf 9 0x41 true ∧
      ∃ t, exec .code (before .compress .code [] oneTree) = .next t ∧ t.status.phase = .hdrw :=
  ⟨by decide +kernel, _, rfl, rfl⟩

theorem witness_CodeIsPrefixFree :
    FreqOk twoTree ∧ TreeOk twoTree ∧
    (∃ t, exec .code (before .compress .code [] twoTree) = .next t ∧ t.status.phase = .hdrw) ∧
    (0x41 : Byte) ≠ 0x42 ∧ freqAt twoTree.freq 0x41 ≠ 0 ∧ freqAt twoTree.freq 0x42 ≠ 0 :=
  ⟨freqOk_two, treeOk_two, ⟨_, rfl, rfl⟩, by decide, by decide +kernel, by decide +kernel⟩

theorem witness_CodeIsComplete :
    FreqOk twoTree ∧ TreeOk twoTree ∧ 2 ≤ twoTree.k.toNat ∧
    ∃ t, exec .code (before .compress .code [] twoTree) = .next t ∧ t.status.phase = .hdrw :=
  ⟨freqOk_two, treeOk_two, by decide +kernel, _, rfl, rfl⟩

theorem witness_CodeIsAFunctionOfFreq :
    FreqOk twoTree ∧ FreqOk (countsOf [(0x41, 2), (0x42, 1)]) ∧
      twoTree.freq = (countsOf [(0x41, 2), (0x42, 1)]).freq :=
  ⟨freqOk_two, ⟨freqOk_two.1, freqOk_two.2, freqOk_two.3, freqOk_two.4⟩, rfl⟩

/-- The boundary of "the header fits": OUT_CAP = 18 for two symbols, and one byte less. -/
theorem witness_HdrwWritesTheHeader :
    FreqOk twoTree ∧ 5 * twoTree.k.toNat + 8 ≤ (18 : Word64).toNat ∧ (17 : Word64).toNat < 5 * twoTree.k.toNat + 8 :=
  ⟨freqOk_two, by decide +kernel, by decide +kernel⟩

theorem witness_PutBitPacks_partial :
    ([true] : Bits).length = ({ Scratch.zero with acc := 0x80, nacc := 1 } : Scratch).nacc.toNat ∧
      ({ Scratch.zero with acc := 0x80, nacc := 1 } : Scratch).acc = packByte [true] ∧ ([true] : Bits).length < 7 := by
  decide
/-- The eighth bit, with OPTR at the last byte of OUT and beyond it. -/
theorem witness_PutBitPacks_full :
    (List.replicate 7 true).length = ({ Scratch.zero with acc := 0xfe, nacc := 7 } : Scratch).nacc.toNat ∧
      ({ Scratch.zero with acc := 0xfe, nacc := 7 } : Scratch).acc = packByte (List.replicate 7 true) ∧
      (List.replicate 7 true).length = 7 ∧ (2 : Word64).toNat < small.cfg.outCap.toNat ∧
      small.cfg.outCap.toNat ≤ (3 : Word64).toNat := by
  decide

theorem witness_FlushPadsWithZeros :
    ([] : Bits).length = Scratch.zero.nacc.toNat ∧ Scratch.zero.acc = packByte [] ∧
      ([true] : Bits).length = ({ Scratch.zero with acc := 0x80, nacc := 1 } : Scratch).nacc.toNat ∧
      ({ Scratch.zero with acc := 0x80, nacc := 1 } : Scratch).acc = packByte [true] ∧ ([true] : Bits) ≠ [] ∧
      (2 : Word64).toNat < small.cfg.outCap.toNat ∧ small.cfg.outCap.toNat ≤ (3 : Word64).toNat := by decide

/-- R118's payload fits 36 bytes and not 35. -/
theorem witness_PackWritesThePayload :
    (beforePack 36).inLen.toNat ≤ (beforePack 36).cfg.inCap.toNat ∧
    packBits (codeBits (beforePack 36).work.code (beforePack 36).input) = [0x6e, 0x8a, 0xdc] ∧
    (beforePack 36).work.optr.toNat + 3 ≤ (beforePack 36).cfg.outCap.toNat ∧
    (beforePack 35).cfg.outCap.toNat < (beforePack 35).work.optr.toNat + 3 := by decide +kernel

theorem witness_PayloadSize :
    ([0x41, 0x42] : List Byte).length ≤ Config.maxn ∧
    ∀ b ∈ ([0x41, 0x42] : List Byte),
      1 ≤ (codeAt (codesFrom [(0x41, [true]), (0x42, List.replicate 255 false)]) b).length ∧
      (codeAt (codesFrom [(0x41, [true]), (0x42, List.replicate 255 false)]) b).length ≤ Config.maxlen := by
  decide +kernel

/-- A container of the header of R106 and R118's payload. -/
def abraContainer : State := before .decompress .hdrr (abraHeader ++ [0x6e, 0x8a, 0xdc]) Scratch.zero

theorem witness_HdrrDecodesTheHeader_empty : (loaded []).input = [] := by decide
theorem witness_HdrrDecodesTheHeader_error :
    (loaded [0x00]).inLen.toNat ≤ (loaded [0x00]).cfg.inCap.toNat ∧ (loaded [0x00]).input ≠ [] ∧
      decodeHeader (loaded [0x00]).input = .error .hdrTrunc := by decide
theorem witness_HdrrDecodesTheHeader_zero :
    decodeHeader (loaded [0x00, 0x00, 0x00, 0x00]).input = .ok (⟨[], 0⟩, []) := by decide
theorem witness_HdrrDecodesTheHeader_accepted :
    abraContainer.inLen.toNat ≤ abraContainer.cfg.inCap.toNat ∧
    decodeHeader abraContainer.input =
      .ok (⟨[⟨0x41, 5⟩, ⟨0x42, 2⟩, ⟨0x43, 1⟩, ⟨0x44, 1⟩, ⟨0x52, 2⟩], 11⟩, [0x6e, 0x8a, 0xdc]) ∧
    (10 : Word64).toNat < (11 : Word).toNat ∧ (11 : Word).toNat ≤ (11 : Word64).toNat := by decide +kernel

theorem witness_HdrrEstablishesFreqOk :
    abraContainer.inLen.toNat ≤ abraContainer.cfg.inCap.toNat ∧ abraContainer.status.phase ≠ .tree ∧
    ∃ t, exec .hdrr abraContainer = .next t ∧ t.status.phase = .tree :=
  ⟨by decide, by decide, next_of_map (f := fun t => t.status.phase) (by decide +kernel)⟩

/-- V-D6's header and V-D17's, which has the records the other way round. -/
theorem witness_HdrrIgnoresRecordOrder :
    let h : Header := ⟨[⟨0x41, 2⟩, ⟨0x42, 1⟩], 3⟩
    let h' : Header := ⟨[⟨0x42, 1⟩, ⟨0x41, 2⟩], 3⟩
    h.wellFormed = true ∧ h.records.Perm h'.records ∧ h'.total = h.total ∧
    (loaded (encodeHeader h ++ [0xc0])).input = encodeHeader h ++ [0xc0] ∧
    (loaded (encodeHeader h' ++ [0xdf, 0x01])).input = encodeHeader h' ++ [0xdf, 0x01] ∧
    (loaded (encodeHeader h ++ [0xc0])).inLen.toNat ≤ State.reset.cfg.inCap.toNat ∧
    (loaded (encodeHeader h' ++ [0xdf, 0x01])).inLen.toNat ≤ State.reset.cfg.inCap.toNat ∧
    h.total.toNat ≤ State.reset.cfg.outCap.toNat := by decide +kernel

theorem witness_HdrrEmptyContainers :
    (loaded []).inLen = 0 ∧ (loaded [0, 0, 0, 0, 0xff]).input = [0, 0, 0, 0] ++ [0xff] ∧
    1 ≤ (loaded [0]).inLen.toNat ∧ (loaded [0, 0, 0]).inLen.toNat ≤ 3 ∧
    (loaded [0, 0, 0]).inLen.toNat ≤ (loaded [0, 0, 0]).cfg.inCap.toNat := by decide

theorem witness_GetBitReads :
    ({ Scratch.zero with nrem := 8 } : Scratch).nrem ≠ 0 ∧ Scratch.zero.nrem = 0 ∧
    Scratch.zero.iptr.toNat < (loaded [0x80]).inLen.toNat ∧
    (loaded [0x80]).inLen.toNat ≤ (loaded [0x80]).cfg.inCap.toNat ∧
    (loaded []).inLen.toNat ≤ Scratch.zero.iptr.toNat := by decide

theorem witness_TravEnds :
    (beforeTrav [0xc0]).inLen.toNat ≤ (beforeTrav [0xc0]).cfg.inCap.toNat ∧
      (beforeTrav [0xc0]).work.total.toNat ≤ (beforeTrav [0xc0]).cfg.outCap.toNat := by decide +kernel

/-- A A B, then the padding. -/
theorem witness_TravDecodesPaths :
    (beforeTrav [0xc0]).inLen.toNat ≤ (beforeTrav [0xc0]).cfg.inCap.toNat ∧
    (beforeTrav [0xc0]).work.iptr.toNat ≤ (beforeTrav [0xc0]).inLen.toNat ∧
    (beforeTrav [0xc0]).work.total.toNat ≤ (beforeTrav [0xc0]).cfg.outCap.toNat ∧
    (twoTree.node.get twoTree.root).isLeaf = false ∧
    (∀ y ∈ ([0x41, 0x41, 0x42] : List Byte), ∃ i f v,
      PathTo twoTree.node twoTree.root i [y == 0x41] ∧ twoTree.node.get i = .leaf f y v) ∧
    unpackBits ((beforeTrav [0xc0]).inBytes 18 1) =
      [0x41, 0x41, 0x42].flatMap (fun y : Byte => [y == 0x41]) ++ List.replicate 5 false ∧
    (beforeTrav [0xc0]).work.iptr.toNat = 18 ∧ (beforeTrav [0xc0]).inLen.toNat - 18 = 1 ∧
    ([0x41, 0x41, 0x42] : List Byte).length = (beforeTrav [0xc0]).work.total.toNat := by
  refine ⟨by decide +kernel, by decide +kernel, by decide +kernel, by decide +kernel, ?_, by decide +kernel,
    by decide +kernel, by decide +kernel, by decide +kernel⟩
  intro y hy
  fin_cases hy
  · exact ⟨0, 2, false, two_path_a, two_get_0⟩
  · exact ⟨0, 2, false, two_path_a, two_get_0⟩
  · exact ⟨1, 1, false, two_path_b, two_get_1⟩

/-- No payload at all: the bits end at the root. -/
theorem witness_TravReportsTruncation :
    (beforeTrav []).inLen.toNat ≤ (beforeTrav []).cfg.inCap.toNat ∧
    (beforeTrav []).work.iptr.toNat ≤ (beforeTrav []).inLen.toNat ∧
    (beforeTrav []).work.total.toNat ≤ (beforeTrav []).cfg.outCap.toNat ∧
    (twoTree.node.get twoTree.root).isLeaf = false ∧
    PathTo twoTree.node twoTree.root twoTree.root [] ∧
    unpackBits ((beforeTrav []).inBytes 18 0) = ([] : List Byte).flatMap (fun y => [y == 0x41]) ++ [] ∧
    ([] : List Byte).length < (beforeTrav []).work.total.toNat :=
  ⟨by decide +kernel, by decide +kernel, by decide +kernel, by decide +kernel, .root, by decide +kernel,
    by decide +kernel⟩

/-- V-D20's nine symbols fit two payload bytes and not one (V-E13). -/
theorem witness_TravOfOneSymbol :
    oneTree.node.get oneTree.root = .leaf 9 0x41 true ∧ oneTree.total.toNat ≤ State.reset.cfg.outCap.toNat ∧
      oneTree.total.toNat ≤ 8 * (15 - 13) ∧ 8 * (14 - 13) < oneTree.total.toNat := by decide +kernel

/-- The invariants hold of a state in the middle of DECOMPRESS, before TRAV. -/
theorem inv_beforeTrav : (beforeTrav [0xc0]).Inv where
  inWf := by decide +kernel
  outWf := List.Pairwise.nil
  inBound := by decide +kernel
  outBound := by simp [beforeTrav, before, loaded, State.reset]
  legal := rfl
  outLenZero := fun _ => rfl
  outLenFits := Nat.zero_le _
  outWritten := fun a ha => absurd ha (Nat.not_lt_zero a)
  lengths := fun _ => ⟨by decide +kernel, by decide +kernel⟩
  work := fun _ => ⟨⟨freqOk_two.1, freqOk_two.2, freqOk_two.3, freqOk_two.4⟩, by decide +kernel, by decide +kernel,
    by decide +kernel⟩

theorem tablesInv_beforeTrav : (beforeTrav [0xc0]).TablesInv where
  counts := fun _ h => absurd h (by decide)
  tree := fun _ _ =>
    ⟨⟨treeOk_two.1, treeOk_two.2, treeOk_two.3, treeOk_two.4, treeOk_two.5, treeOk_two.6, treeOk_two.7⟩,
      ⟨treeFreqOk_two.1, treeFreqOk_two.2, treeFreqOk_two.3, treeFreqOk_two.4⟩⟩
  table := fun _ h => absurd h (by decide)
  coded := fun _ h => absurd h (by decide)

theorem step_beforeTrav : ∃ t, step (beforeTrav [0xc0]) = .next t ∧ t.status.done = true :=
  next_of_map (f := fun t => t.status.done) (by decide +kernel)

theorem witness_StepKeepsInv : (beforeTrav [0xc0]).Inv ∧ ∃ t, step (beforeTrav [0xc0]) = .next t ∧ t.status.done = true :=
  ⟨inv_beforeTrav, step_beforeTrav⟩

theorem witness_StepKeepsTheTables :
    (beforeTrav [0xc0]).Inv ∧ (beforeTrav [0xc0]).TablesInv ∧
      ∃ t, step (beforeTrav [0xc0]) = .next t ∧ t.status.done = true :=
  ⟨inv_beforeTrav, tablesInv_beforeTrav, step_beforeTrav⟩

theorem witness_NoStepFaults : (beforeTrav [0xc0]).Inv := inv_beforeTrav

theorem witness_OperationsEnd :
    (beforeTrav [0xc0]).Inv ∧ (beforeTrav [0xc0]).status.busy = true ∧ (beforeTrav [0xc0]).turns = [] :=
  ⟨inv_beforeTrav, rfl, rfl⟩

/-- "AAB" and its container of 19 bytes: OUT_CAP = 19 holds it, 18 does not. -/
theorem witness_CompressProducesTheContainer :
    (loaded [0x41, 0x41, 0x42]).status.busy = false ∧
    (loaded [0x41, 0x41, 0x42]).inLen.toNat ≤ (loaded [0x41, 0x41, 0x42]).cfg.inCap.toNat ∧
    (loaded [0x41, 0x41, 0x42]).inLen.toNat ≤ Config.maxn ∧
    (compressed (loaded [0x41, 0x41, 0x42]).input).length ≤ (19 : Word64).toNat ∧
    (18 : Word64).toNat < (compressed (loaded [0x41, 0x41, 0x42]).input).length := by decide +kernel

theorem witness_EmptyInputGivesTheEmptyContainer : (loaded []).status.busy = false ∧ (loaded []).inLen = 0 := by decide

theorem witness_OneSymbolContainer :
    (loaded [0x41]).status.busy = false ∧ 1 ≤ 1 ∧ 1 ≤ Config.maxn ∧ 1 ≤ (loaded [0x41]).cfg.inCap.toNat ∧
      13 + (1 + 7) / 8 ≤ (loaded [0x41]).cfg.outCap.toNat ∧ (loaded [0x41]).input = List.replicate 1 0x41 := by decide

theorem witness_RoundTrip :
    (loaded [0x41]).status.busy = false ∧ (loaded [0x41]).input = [0x41] ∧
    ([0x41] : List Byte).length ≤ (loaded [0x41]).cfg.inCap.toNat ∧ ([0x41] : List Byte).length ≤ Config.maxn ∧
    (compressed [0x41]).length ≤ (loaded [0x41]).cfg.outCap.toNat ∧
    (loaded (compressed [0x41])).status.busy = false ∧
    (loaded (compressed [0x41])).input = compressed [0x41] ∧
    (compressed [0x41]).length ≤ (loaded (compressed [0x41])).cfg.inCap.toNat ∧
    ([0x41] : List Byte).length ≤ (loaded (compressed [0x41])).cfg.outCap.toNat := by decide +kernel

/-- A 14-byte container without its last byte, and without all but its first. -/
theorem witness_TruncationIsReported :
    (compressed [0x41]).length = 14 ∧ ([0x41] : List Byte) ≠ [] ∧ 1 < (compressed [0x41]).length ∧
    13 < (compressed [0x41]).length ∧
    (loaded ((compressed [0x41]).take (14 - 1))).input = (compressed [0x41]).take ((compressed [0x41]).length - 1) ∧
    5 * (present (countBytes [0x41])).length + 8 ≤ (loaded ((compressed [0x41]).take (14 - 1))).inLen.toNat ∧
    (loaded ((compressed [0x41]).take (14 - 13))).input = (compressed [0x41]).take ((compressed [0x41]).length - 13) ∧
    (loaded ((compressed [0x41]).take (14 - 13))).inLen.toNat < 5 * (present (countBytes [0x41])).length + 8 := by
  decide +kernel

/-- Two states with the same input: the one after reset and one that an earlier operation has ended in. -/
theorem witness_OutcomeDependsOnTheInput :
    let s := loaded [0x41]
    let s' : State := { loaded [0x41] with
      inMem := memOf [0x41, 0x99], work := twoTree, status := Status.success .compress, outLen := 1, outMem := [(0, 5)] }
    s.status.busy = false ∧ s'.status.busy = false ∧ s'.cfg = s.cfg ∧ s'.inLen = s.inLen ∧ s'.input = s.input := by
  decide +kernel

end Sys2Proof.Tests
end

section
/-! Integer fields: each byte of BE and the inverse of UBE (00_scope.md R7). -/

namespace Sys2Proof

/-- Eight bits of a 32-bit value from bit k are the value over 2^k, cut to a byte. -/
theorem extract_byte_of_lt {v : Nat} (hv : v < 2 ^ 32) (k : Nat) :
    (BitVec.ofNat 32 v).extractLsb' k 8 = BitVec.ofNat 8 (v / 2 ^ k) := by
  apply BitVec.eq_of_toNat_eq
  rw [BitVec.extractLsb'_toNat, BitVec.toNat_ofNat, BitVec.toNat_ofNat, Nat.mod_eq_of_lt hv,
    Nat.shiftRight_eq_div_pow]

theorem be_getElem? (v : Nat) {i : Nat} (hi : i < Config.cw) :
    (be v)[i]? = some (BitVec.ofNat 8 (v / 2 ^ (8 * (Config.cw - 1 - i)))) := by
  match i, hi with
  | 0, _ | 1, _ | 2, _ => rfl
  | 3, _ => simp [be]

theorem be_ube_four (a b c d : Byte) : be (ube [a, b, c, d]) = [a, b, c, d] := by
  have ofNat_eq {n : Nat} {x : Byte} (h : n % 2 ^ 8 = x.toNat) : BitVec.ofNat 8 n = x :=
    BitVec.eq_of_toNat_eq (by rw [BitVec.toNat_ofNat, h])
  have ha := a.isLt; have hb := b.isLt; have hc := c.isLt; have hd := d.isLt
  rw [ube_four, be, ofNat_eq (x := a) (by omega), ofNat_eq (x := b) (by omega), ofNat_eq (x := c) (by omega),
    ofNat_eq (x := d) (by omega)]

/-- The sum of `ube_four`, written over the byte's index as R7 does. -/
theorem ube_four_eq_sum (a b c d : Byte) :
    ube [a, b, c, d] = ((List.range Config.cw).map fun i =>
      ([a, b, c, d].getD i 0).toNat * 2 ^ (8 * (Config.cw - 1 - i))).sum := by
  rw [ube_four]
  simp [List.range_succ, Nat.add_assoc]

/-- Settles O4: BE gives each byte by its place, and UBE and BE are inverse on CW bytes. -/
theorem integerFieldsRoundTrip : Obligations.IntegerFieldsRoundTrip := by
  refine ⟨fun v hv => ⟨be_length v, ?_, fun i hi => ?_⟩, fun B hB => ?_, by decide, by decide⟩
  · rw [ube_be_mod, Nat.mod_eq_of_lt hv]
  · rw [be_getElem? v hi, extract_byte_of_lt hv]
  · obtain ⟨a, b, c, d, rfl⟩ := List.length_eq_four.mp hB
    exact ⟨ube_four_lt a b c d, be_ube_four a b c d, ube_four_eq_sum a b c d⟩

end Sys2Proof
end

section
/-! What the host's register accesses and a step dispatch to (10_state.md R11, R13, R17, 20_memory.md R41). -/

namespace Sys2Proof.Machine

/-- An access below 0x18 that is none of R41's four meets the condition of no arm of `readReg` and `writeReg`. -/
theorem not_registers {off width : Nat} (hlt : off < 0x18)
    (h : (off, width) ∉ [(0x00, 32), (0x04, 32), (0x08, 64), (0x10, 64)]) :
    ¬off ≥ 0x18 ∧ ¬(off = 0x00 ∧ width = 32) ∧ ¬(off = 0x04 ∧ width = 32) ∧ ¬(off = 0x08 ∧ width = 64) ∧
      ¬(off = 0x10 ∧ width = 64) := by
  simp only [List.mem_cons, Prod.mk.injEq, List.not_mem_nil, or_false, not_or] at h
  exact ⟨Nat.not_le.mpr hlt, h⟩

theorem readReg_refused {off width : Nat} (hlt : off < 0x18)
    (h : (off, width) ∉ [(0x00, 32), (0x04, 32), (0x08, 64), (0x10, 64)]) (s : State) :
    readReg off width s = .refused .badRegAccess := by
  obtain ⟨h0, h1, h2, h3, h4⟩ := not_registers hlt h
  simp only [readReg, h0, h1, h2, h3, h4, if_false]

theorem writeReg_refused {off width : Nat} (hlt : off < 0x18)
    (h : (off, width) ∉ [(0x00, 32), (0x04, 32), (0x08, 64), (0x10, 64)]) (v : Word64) (s : State) :
    writeReg off width v s = .refused .badRegAccess := by
  obtain ⟨h0, h1, h2, h3, h4⟩ := not_registers hlt h
  simp only [writeReg, h0, h1, h2, h3, h4, if_false]

theorem readReg_reserved {off : Nat} (h : 0x18 ≤ off) (width : Nat) (s : State) :
    readReg off width s = .next (s.hear 0) := if_pos h

theorem writeReg_reserved {off : Nat} (h : 0x18 ≤ off) (width : Nat) (v : Word64) (s : State) :
    writeReg off width v s = .next s := if_pos h

/-- A host write to CMD is `Accept` of the low 32 bits. -/
theorem writeReg_cmd (v : Word64) (s : State) : writeReg 0x00 32 v s = .next (s.accept (v.setWidth 32)) :=
  writeCmd_eq _ s

/-- A host write of IN_LEN (10_state.md R15). -/
theorem writeReg_inLen (v : Word64) (s : State) :
    writeReg 0x08 64 v s = .next (if s.status.busy then s else { s with inLen := v }) := rfl

/-- Settles O12: one arm of `readReg` per register, and the two refusals. -/
theorem registerReads : Obligations.RegisterReads := fun s =>
  ⟨rfl, rfl, rfl, rfl, fun _ width h => readReg_reserved h width s, fun _ _ hlt h =>
    ⟨readReg_refused hlt h s, fun v => writeReg_refused hlt h v s⟩⟩

/-- Settles O13: one arm of `writeReg` per register; a write to CMD is `Accept`. -/
theorem registerWrites : Obligations.RegisterWrites := fun s v =>
  ⟨fun h => by simp [writeReg_inLen, h], fun h => by simp [writeReg_inLen, h], rfl, rfl,
    fun _ width h => writeReg_reserved h width v s, writeReg_cmd v s⟩

theorem runWord_ok {f : FetchWord} {i : Instr} (h : decode f = .ok i) (s : State)
    (o : Host.Outcome State Fault Refusal) : runWord f s o = exec i s := by
  simp only [runWord, h]

/-- The engine's step runs the instruction that PHASE's code decodes to. -/
theorem engineStep_decoded {s : State} {i : Instr} (hb : s.status.busy = true)
    (h : decode (.phase s.status.phase.bits) = .ok i) : engineStep s = exec i s := by
  rw [engineStep, if_pos hb, runWord_ok h]

/-- A host write to CMD runs the command that the word decodes to. -/
theorem writeReg_cmd_decoded {v : Word64} {i : Instr} (h : decode (.cmd (v.setWidth 32)) = .ok i) (s : State) :
    writeReg 0x00 32 v s = exec i s := runWord_ok h s _

/-- Settles O20: `step` hands the turn to the engine or to CMD, and each runs what it decodes. -/
theorem stepRunsTheDecodedInstruction : Obligations.StepRunsTheDecodedInstruction := by
  refine ⟨fun s i hb h => ⟨fun ht => ?_, fun ts ht => ?_⟩, fun s i v ts ht h => ?_⟩
  · rw [step_nil ht, engineStep_decoded hb h]
  · rw [step_engine ht]
    exact engineStep_decoded hb h
  · rw [step_host ht]
    exact writeReg_cmd_decoded h _

/-- The state after reset holds no byte and runs nothing, so each clause of the invariant is about an empty memory, the
legal STATUS 0, or BUSY = 1. -/
theorem reset_inv : State.reset.Inv where
  inWf := Memory.wf_nil
  outWf := Memory.wf_nil
  inBound := nofun
  outBound := nofun
  legal := rfl
  outLenZero _ := rfl
  outLenFits := Nat.zero_le _
  outWritten a h := absurd h (Nat.not_lt_zero a)
  lengths := nofun
  work := nofun

/-- The invariant of the tables speaks of BUSY = 1 alone. -/
theorem tablesInv_idle {s : State} (h : s.status.busy = false) : s.TablesInv where
  counts hb := absurd hb (by simp [h])
  tree hb := absurd hb (by simp [h])
  table hb := absurd hb (by simp [h])
  coded hb := absurd hb (by simp [h])

/-- Settles O50: the state after reset is idle with empty memories. -/
theorem resetMeetsTheInvariants : Obligations.ResetMeetsTheInvariants :=
  ⟨reset_inv, tablesInv_idle rfl, by decide, rfl, rfl, (step_nil rfl).trans (engineStep_idle rfl)⟩

end Sys2Proof.Machine
end

section
/-! What an instruction leaves alone: the host's side of the state (10_state.md R24, 45_compressor.md R122,
46_decompressor.md R132). Each part of a rule is said to keep the frame of the state it starts from. -/

namespace Sys2Proof.Machine

/-- What no instruction touches, the reset count included. -/
def Frame (s t : State) : Prop := SameHostSide s t ∧ t.epoch = s.epoch

/-- A part of a rule answers only states with the frame of `s`, wherever it stands. -/
def Run.Frames (s : State) : Run → Prop
  | .going t => Frame s t
  | .ended t => Frame s t
  | .broken _ => True

theorem Frame.refl (s : State) : Frame s s := ⟨⟨rfl, rfl, rfl, fun _ => rfl, rfl, rfl⟩, rfl⟩

theorem Frame.trans {s t u : State} (h : Frame s t) (h' : Frame t u) : Frame s u :=
  ⟨⟨h'.1.cfg.trans h.1.cfg, h'.1.inLen.trans h.1.inLen, h'.1.inMem.trans h.1.inMem,
    fun a => (h'.1.inByte a).trans (h.1.inByte a), h'.1.turns.trans h.1.turns, h'.1.heard.trans h.1.heard⟩,
    h'.2.trans h.2⟩

/-- Whatever becomes of STATUS, OUT, OUT_LEN, the scratch state and the draw counter, the frame is kept. -/
theorem Frame.of_engine_side (s : State) (st : Status) (ol : Word64) (m : Memory) (w : Scratch) (d : Nat) :
    Frame s { s with status := st, outLen := ol, outMem := m, work := w, draws := d } :=
  ⟨⟨rfl, rfl, rfl, fun _ => rfl, rfl, rfl⟩, rfl⟩

theorem frame_setWork (s : State) (w : Scratch) : Frame s (s.setWork w) := Frame.of_engine_side s ..
theorem frame_raise (s : State) (e : ErrCode) : Frame s (s.raise e) := Frame.of_engine_side s ..
theorem frame_finish (s : State) (n : Word64) : Frame s (s.finish n) := Frame.of_engine_side s ..

namespace Run

theorem Frames.of_frame {s t : State} {r : Run} (h : Frame s t) (hr : r.Frames t) : r.Frames s := by
  cases r with
  | going u => exact h.trans hr
  | ended u => exact h.trans hr
  | broken f => trivial

theorem Frames.andThen {s : State} {r : Run} {k : State → Run} (h : r.Frames s) (hk : ∀ t, (k t).Frames t) :
    (r.andThen k).Frames s := by
  cases r with
  | going t => exact (hk t).of_frame h
  | ended t => exact h
  | broken f => trivial

theorem Frames.ite {s : State} {c : Prop} [Decidable c] {r r' : Run} (h : r.Frames s) (h' : r'.Frames s) :
    (if c then r else r').Frames s := by
  split
  · exact h
  · exact h'

theorem Frames.outcome {s t : State} {r : Run} (h : r.Frames s) (ht : r.outcome = .next t) : Frame s t := by
  obtain rfl | rfl := outcome_next ht <;> exact h

end Run

theorem frames_memRead {s u : State} {a n : Nat} {k : List Byte → Run} (hk : ∀ B, (k B).Frames u) :
    (memRead s a n k).Frames u := .ite (hk _) trivial

theorem frames_memReadByte {s u : State} {a : Nat} {k : Byte → Run} (hk : ∀ b, (k b).Frames u) :
    (memReadByte s a k).Frames u := .ite (hk _) trivial

theorem frames_memWrite (s : State) (a : Nat) (B : List Byte) : (memWrite s a B).Frames s :=
  .ite (Frame.of_engine_side s ..) trivial

/-- `Accept` keeps the frame, whatever it answers. -/
theorem frame_accept (w : Word) (s : State) : Frame s (s.accept w) := by
  have hbegin (op : Op) : Frame s (s.fresh.begin op) := by
    rcases begin_cases s.fresh op with ⟨-, h⟩ | ⟨-, -, h⟩ <;> rw [h] <;> exact Frame.of_engine_side s ..
  cases hb : s.status.busy with
  | true => rw [accept_busy hb]; exact .refl s
  | false =>
    rw [accept_idle hb]
    split
    · exact hbegin _
    · split
      · exact hbegin _
      · exact Frame.of_engine_side s ..

theorem frames_freqRule (s : State) : (freqRule s).Frames s :=
  frames_memRead fun _ => .ite (Frame.of_engine_side s ..) (Frame.of_engine_side s ..)

theorem frame_treeRule (s : State) : Frame s (treeRule s) := Frame.of_engine_side s ..

theorem frame_codeRule (s : State) : Frame s (codeRule s) := Frame.of_engine_side s ..

theorem frames_hdrwRule (s : State) : (hdrwRule s).Frames s :=
  .ite (frame_raise s _) ((frames_memWrite s _ _).andThen fun t => Frame.of_engine_side t ..)

/-! ### PACK -/

theorem frames_flushByte (s : State) : (flushByte s).Frames s :=
  .ite (frame_raise s _) ((frames_memWrite s _ _).andThen fun t => frame_setWork t _)

theorem frames_putBit (b : Bool) (s : State) : (putBit b s).Frames s :=
  .ite ((frames_flushByte _).of_frame (frame_setWork s _)) (Frame.of_engine_side s ..)

theorem frames_putBits (bs : Bits) (s : State) : (putBits bs s).Frames s := by
  induction bs generalizing s with
  | nil => exact .refl s
  | cons b bs ih => exact (frames_putBit b s).andThen ih

theorem frames_flush (s : State) : (flush s).Frames s := .ite (Frame.refl s) (frames_flushByte s)

theorem frames_packRule (s : State) : (packRule s).Frames s := by
  have hrest (bs : Bits) (u : State) :
      (((putBits bs u).andThen flush).andThen fun t => .ended (t.finish t.work.optr)).Frames u :=
    ((frames_putBits bs u).andThen frames_flush).andThen fun t => frame_finish t _
  exact frames_memRead fun _ => (hrest _ _).of_frame (frame_setWork s _)

/-! ### HDRR -/

theorem frames_need {m : Nat} {s : State} {k : Run} (hk : k.Frames s) : (need m s k).Frames s :=
  .ite (frame_raise s _) hk

theorem frames_readRecord (s : State) : (readRecord s).Frames s :=
  frames_need <| frames_memReadByte fun _ => frames_memRead fun _ =>
    .ite (Frame.of_engine_side s ..) (.ite (Frame.of_engine_side s ..) (Frame.of_engine_side s ..))

theorem frames_readRecords (n : Nat) (s : State) : (readRecords n s).Frames s := by
  induction n generalizing s with
  | zero => exact .refl s
  | succ n ih => exact (frames_readRecord s).andThen ih

theorem frames_readTotal (s : State) : (readTotal s).Frames s :=
  frames_need <| frames_memRead fun _ =>
    .ite (Frame.of_engine_side s ..) (.ite (Frame.of_engine_side s ..) (Frame.of_engine_side s ..))

theorem frames_hdrrRule (s : State) : (hdrrRule s).Frames s :=
  .ite (frame_finish s _) <| .of_frame (frame_setWork s _) <| frames_need <| frames_memRead fun _ =>
    .of_frame (frame_setWork _ _) <| .ite (frame_finish _ _) <| .ite (frame_raise _ _) <|
      ((frames_readRecords _ _).andThen frames_readTotal).of_frame (frame_setWork _ _)

/-! ### TRAV -/

theorem frames_shiftBit {s : State} {k : Bool → State → Run} (hk : ∀ b t, (k b t).Frames t) :
    (shiftBit s k).Frames s := (hk _ _).of_frame (frame_setWork s _)

theorem frames_getBit {s : State} {k : Bool → State → Run} (hk : ∀ b t, (k b t).Frames t) : (getBit s k).Frames s :=
  .ite (.ite (frame_raise s _) (frames_memReadByte fun _ => (frames_shiftBit hk).of_frame (frame_setWork s _)))
    (frames_shiftBit hk)

theorem frames_emit (sym : Byte) (s : State) : (emit sym s).Frames s :=
  (frames_memWrite s _ _).andThen fun t => frame_setWork t _

theorem frames_walkBit (b : Bool) (s : State) : (walkBit b s).Frames s := by
  unfold walkBit
  split
  · exact frames_emit _ s
  · dsimp only
    split
    · exact .of_frame (frame_setWork s _) <| (frames_emit _ _).andThen fun t => frame_setWork t _
    · exact frame_setWork s _

theorem frames_travLoop (fuel : Nat) (s : State) : (travLoop fuel s).Frames s := by
  induction fuel generalizing s with
  | zero => exact .refl s
  | succ fuel ih => exact .ite (frames_getBit fun b t => (frames_walkBit b t).andThen ih) (Frame.refl s)

theorem frames_travRule (s : State) : (travRule s).Frames s :=
  .of_frame (frame_setWork s _) <| (frames_travLoop _ _).andThen fun t => frame_finish t _

/-- Every instruction keeps the frame. -/
theorem frame_exec {i : Instr} {s t : State} (h : exec i s = .next t) : Frame s t := by
  cases i with
  | compress => cases h; exact frame_accept _ s
  | decompress => cases h; exact frame_accept _ s
  | freq => exact (frames_freqRule s).outcome h
  | tree => cases h; exact frame_treeRule s
  | code => cases h; exact frame_codeRule s
  | hdrw => exact (frames_hdrwRule s).outcome h
  | pack => exact (frames_packRule s).outcome h
  | hdrr => exact (frames_hdrrRule s).outcome h
  | trav => exact (frames_travRule s).outcome h

/-- Settles O22: the frame of each rule, by its parts. -/
theorem instructionsLeaveTheHostSide : Obligations.InstructionsLeaveTheHostSide := fun _ _ _ => frame_exec

/-- The engine's step keeps the frame too. -/
theorem frame_engineStep {s t : State} (h : engineStep s = .next t) : Frame s t := by
  cases hb : s.status.busy with
  | false => rw [engineStep_idle hb] at h; cases h; exact .refl s
  | true =>
    rw [engineStep_busy hb] at h
    split at h
    · cases h
    all_goals exact frame_exec h

end Sys2Proof.Machine
end

section
/-! The invariant of a run without its clauses on IN, which no instruction touches: what it says while an operation runs
and when one ends. -/

namespace Sys2Proof.Machine

/-- What `State.Inv` says of everything but the cells of IN. -/
structure RunInv (s : State) : Prop where
  outWf : s.outMem.wf
  outBound : ∀ c ∈ s.outMem, c.1 < s.cfg.outCap.toNat
  legal : s.status.legal = true
  outLenZero : (s.status.done && !s.status.err) = false → s.outLen = 0
  outLenFits : s.outLen.toNat ≤ s.cfg.outCap.toNat
  outWritten : ∀ a, a < s.outLen.toNat → (s.outMem.get a).isSome
  lengths : s.status.busy = true →
    s.inLen.toNat ≤ s.cfg.inCap.toNat ∧ (s.status.op = .compress → s.inLen.toNat ≤ Config.maxn)
  work : s.status.busy = true → WorkOk s

theorem State.Inv.runInv {s : State} (h : s.Inv) : RunInv s :=
  ⟨h.outWf, h.outBound, h.legal, h.outLenZero, h.outLenFits, h.outWritten, h.lengths, h.work⟩

theorem RunInv.inv {s : State} (h : RunInv s) (hw : s.inMem.wf) (hb : ∀ c ∈ s.inMem, c.1 < s.cfg.inCap.toNat) : s.Inv :=
  ⟨hw, h.outWf, hb, h.outBound, h.legal, h.outLenZero, h.outLenFits, h.outWritten, h.lengths, h.work⟩

/-- The invariant speaks of no turn to come, no value read and no draw. -/
theorem State.Inv.host_side {s : State} (h : s.Inv) (ts : List Turn) (vs : List Word64) (d : Nat) :
    ({ s with turns := ts, heard := vs, draws := d } : State).Inv :=
  ⟨h.inWf, h.outWf, h.inBound, h.outBound, h.legal, h.outLenZero, h.outLenFits, h.outWritten, h.lengths, h.work⟩

/-- The operation `op` runs and phase `p` has not ended it: what the rule of the phase keeps from its start to its end. -/
structure Running (op : Op) (p : Phase) (s : State) : Prop where
  status : s.status = ⟨true, false, false, .noError, p, op⟩
  runs : Status.runs op p = true
  outWf : s.outMem.wf
  outBound : ∀ c ∈ s.outMem, c.1 < s.cfg.outCap.toNat
  outLen : s.outLen = 0
  inFits : s.inLen.toNat ≤ s.cfg.inCap.toNat
  maxn : op = .compress → s.inLen.toNat ≤ Config.maxn

/-- The operation `op` stands before phase `p`, whose precondition holds. -/
def Entered (op : Op) (p : Phase) (s : State) : Prop := Running op p s ∧ WorkOk s

/-- The operation has ended. -/
def Halted (s : State) : Prop := RunInv s ∧ s.status.busy = false

theorem Entered.runInv {op : Op} {p : Phase} {s : State} (h : Entered op p s) : RunInv s := by
  obtain ⟨⟨hs, hr, hw, hb, hl, hi, hm⟩, hk⟩ := h
  refine ⟨hw, hb, ?_, fun _ => hl, ?_, fun a ha => ?_, fun _ => ⟨hi, fun ho => hm ?_⟩, fun _ => hk⟩
  · simp [hs, Status.legal, hr]
  · simp [hl]
  · simp [hl] at ha
  · simpa [hs] using ho

/-- While BUSY = 1 the invariant is that the operation in OP stands before the phase in PHASE. -/
theorem RunInv.entered {s : State} (h : RunInv s) (hb : s.status.busy = true) :
    Entered s.status.op s.status.phase s := by
  obtain ⟨hd, he, hc, hr⟩ := Status.legal_busy h.legal hb
  obtain ⟨hi, hm⟩ := h.lengths hb
  refine ⟨⟨?_, hr, h.outWf, h.outBound, h.outLenZero (by simp [hd]), hi, hm⟩, h.work hb⟩
  show (⟨s.status.busy, s.status.done, s.status.err, s.status.errcode, s.status.phase, s.status.op⟩ : Status) = _
  rw [hb, hd, he, hc]

namespace Running

variable {op : Op} {p : Phase} {s : State}

theorem setWork (h : Running op p s) (w : Scratch) : Running op p (s.setWork w) :=
  ⟨h.status, h.runs, h.outWf, h.outBound, h.outLen, h.inFits, h.maxn⟩

theorem setPhase (h : Running op p s) {q : Phase} (hq : Status.runs op q = true) : Running op q (s.setPhase q) :=
  ⟨by simp [h.status], hq, h.outWf, h.outBound, h.outLen, h.inFits, h.maxn⟩

/-- A write below OUT_CAP keeps OUT canonical and within its capacity. -/
theorem putAll (h : Running op p s) {a : Nat} {B : List Byte} (hB : a + B.length ≤ s.cfg.outCap.toNat) :
    Running op p { s with outMem := s.outMem.putAll a B } :=
  ⟨h.status, h.runs, Memory.wf_putAll h.outWf a B, Memory.bound_putAll h.outBound a B hB, h.outLen, h.inFits, h.maxn⟩

theorem finish (h : Running op p s) {n : Word64} (hn : n.toNat ≤ s.cfg.outCap.toNat)
    (hw : ∀ a, a < n.toNat → (s.outMem.get a).isSome) : Halted (s.finish n) := by
  have hop : op ≠ .noOp := by rintro rfl; exact absurd h.runs (by cases p <;> decide)
  refine ⟨⟨Memory.wf_below h.outWf _, fun c hc => h.outBound c (List.mem_filter.mp hc).1, ?_, ?_, hn, fun a ha => ?_,
    nofun, nofun⟩, rfl⟩
  · simp [h.status, Status.finished, Status.legal, hop]
  · simp [Status.finished]
  · rw [State.finish_outLen] at ha
    simpa [Memory.get_below, ha] using hw a ha

theorem workOk_tree (h : Running op .tree s) : WorkOk s ↔
    FreqOk s.work ∧ (op = .decompress →
      s.work.total.toNat ≤ s.cfg.outCap.toNat ∧ s.work.iptr.toNat = 5 * s.work.k.toNat + 8 ∧
        s.work.iptr.toNat ≤ s.inLen.toNat) := by
  simp [WorkOk, h.status]

theorem workOk_code (h : Running op .code s) : WorkOk s ↔ FreqOk s.work := by simp [WorkOk, h.status]

theorem workOk_hdrw (h : Running op .hdrw s) : WorkOk s ↔ FreqOk s.work := by simp [WorkOk, h.status]

theorem workOk_pack (h : Running op .pack s) : WorkOk s ↔
    s.work.optr.toNat ≤ s.cfg.outCap.toNat ∧ ∀ a, a < s.work.optr.toNat → (s.outMem.get a).isSome := by
  simp [WorkOk, h.status]

theorem workOk_trav (h : Running op .trav s) : WorkOk s ↔
    FreqOk s.work ∧ s.work.total.toNat ≤ s.cfg.outCap.toNat ∧ s.work.iptr.toNat = 5 * s.work.k.toNat + 8 ∧
      s.work.iptr.toNat ≤ s.inLen.toNat := by
  simp [WorkOk, h.status]

end Running

/-- An error leaves no byte of OUT and OUT_LEN = 0, so all that is asked is that its code can come from PHASE and OP. -/
theorem halted_raise {s : State} {e : ErrCode} (h : Status.errorFrom e s.status.phase s.status.op = true) :
    Halted (s.raise e) :=
  ⟨⟨Memory.wf_nil, nofun, h, fun _ => rfl, Nat.zero_le _, fun a ha => absurd ha (Nat.not_lt_zero a), nofun, nofun⟩, rfl⟩

theorem Running.raise {op : Op} {p : Phase} {s : State} (h : Running op p s) {e : ErrCode}
    (he : Status.errorFrom e p op = true) : Halted (s.raise e) := halted_raise (by rw [h.status]; exact he)

theorem Running.finish_zero {op : Op} {p : Phase} {s : State} (h : Running op p s) : Halted (s.finish 0) :=
  h.finish (Nat.zero_le _) fun a ha => absurd ha (Nat.not_lt_zero a)

/-- `Accept` while BUSY = 0 gives an ended or a started operation, whatever the state held before. -/
theorem runInv_accept {s : State} (hb : s.status.busy = false) (w : Word) : RunInv (s.accept w) := by
  have hbegin {op : Op} (hop : op ≠ .noOp) : RunInv (s.fresh.begin op) := by
    rcases begin_cases s.fresh op with ⟨-, h⟩ | ⟨hi, hm, h⟩ <;> rw [h]
    · refine (halted_raise ?_).1
      cases op with
      | noOp => exact absurd rfl hop
      | compress => rfl
      | decompress => rfl
    · refine Entered.runInv (op := op) (p := if op = .compress then .freq else .hdrr)
        ⟨⟨rfl, ?_, Memory.wf_nil, nofun, rfl, hi, hm⟩, ?_⟩
      · cases op with
        | noOp => exact absurd rfl hop
        | compress => rfl
        | decompress => rfl
      · cases op <;> trivial
  rw [accept_idle hb]
  split
  · exact hbegin (by decide)
  · split
    · exact hbegin (by decide)
    · exact (halted_raise rfl).1

end Sys2Proof.Machine
end

section
/-! COMPRESS's phases establish each other's preconditions: no part of their rules breaks, and each ends where the next
phase is entered or the operation has halted. -/

namespace Sys2Proof.Machine

/-- The precondition of TREE is about K, TOTAL and FREQ alone. -/
theorem FreqOk.congr {w w' : Scratch} (h : FreqOk w) (hk : w'.k = w.k) (ht : w'.total = w.total)
    (hf : w'.freq = w.freq) : FreqOk w' where
  one_le := hk ▸ h.one_le
  le_maxk := hk ▸ h.le_maxk
  distinct := by rw [hk, hf]; exact h.distinct
  sum := by rw [ht, hf]; exact h.sum

/-- The counts of a non-empty input that fits 32 bits meet the precondition of TREE (40_frequency_analyzer.md R81). -/
theorem freqOk_countBytes {w : Scratch} {X : List Byte} (hX : X.length < 2 ^ 32)
    (hne : (present (countBytes X)).length ≠ 0) (hf : w.freq = countBytes X)
    (hk : w.k = BitVec.ofNat 9 (present (countBytes X)).length) (ht : w.total = BitVec.ofNat 32 X.length) :
    FreqOk w := by
  have hle := present_length_le (countBytes X)
  have hkn : w.k.toNat = (present (countBytes X)).length := by
    rw [hk, BitVec.toNat_ofNat]; omega
  refine ⟨by omega, by rw [hkn]; exact hle, by rw [hf, hkn], ?_⟩
  rw [hf, sum_present_countBytes X hX, ht, BitVec.toNat_ofNat, Nat.mod_eq_of_lt hX]

theorem sat_freqRule {s : State} (h : Running .compress .freq s) :
    (freqRule s).Sat (Entered .compress .tree) Halted := by
  have hlen : s.input.length < 2 ^ 32 := by
    have := h.maxn rfl
    rw [State.input_length]; simp only [Config.maxn] at this; omega
  have hread : s.inBytes 0 s.inLen.toNat = s.input := rfl
  rw [freqRule, memRead_ok (by simpa using h.inFits), hread]
  dsimp only
  split
  · exact (h.setWork _).finish_zero
  · next hk =>
    have hr := (h.setWork { s.work with
      freq := countBytes s.input, k := BitVec.ofNat 9 (present (countBytes s.input)).length,
      total := s.inLen.setWidth 32 }).setPhase (q := .tree) rfl
    refine ⟨hr, hr.workOk_tree.mpr ⟨freqOk_countBytes hlen hk rfl rfl ?_, nofun⟩⟩
    show s.inLen.setWidth 32 = _
    rw [State.input_length, BitVec.ofNat_toNat]

/-- TREE leaves K, TOTAL, FREQ and the reader's place, and goes on to CODE or TRAV. -/
theorem entered_treeRule {op : Op} {s : State} (h : Entered op .tree s) :
    Entered op (if op = .compress then .code else .trav) (treeRule s) := by
  obtain ⟨hr, hw⟩ := h
  obtain ⟨hf, hd⟩ := hr.workOk_tree.mp hw
  have hop : s.status.op = op := by rw [hr.status]
  cases op with
  | noOp => exact absurd hr.runs (by decide)
  | compress =>
    have ht : Running .compress .code (treeRule s) := by
      unfold treeRule; rw [hop]; exact (hr.setWork _).setPhase rfl
    exact ⟨ht, ht.workOk_code.mpr (hf.congr rfl rfl rfl)⟩
  | decompress =>
    have ht : Running .decompress .trav (treeRule s) := by
      unfold treeRule; rw [hop]; exact (hr.setWork _).setPhase rfl
    exact ⟨ht, ht.workOk_trav.mpr ⟨hf.congr rfl rfl rfl, hd rfl⟩⟩

theorem entered_codeRule {s : State} (h : Entered .compress .code s) : Entered .compress .hdrw (codeRule s) := by
  obtain ⟨hr, hw⟩ := h
  have ht : Running .compress .hdrw (codeRule s) := (hr.setWork _).setPhase rfl
  exact ⟨ht, ht.workOk_hdrw.mpr ((hr.workOk_code.mp hw).congr rfl rfl rfl)⟩

/-- Every byte below an address is written when a sequence that ends there is written where the written part ends. -/
theorem isSome_putAll {m : Memory} {a : Nat} {B : List Byte} (h : ∀ b, b < a → (m.get b).isSome) :
    ∀ b, b < a + B.length → ((m.putAll a B).get b).isSome := by
  intro b hb
  by_cases hba : b < a
  · rw [Memory.get_putAll_outside _ _ _ _ (.inl hba)]; exact h b hba
  · obtain ⟨q, rfl⟩ := Nat.le.dest (Nat.not_lt.mp hba)
    have hq : q < B.length := by omega
    rw [Memory.get_putAll_inside _ _ _ _ hq]; simp [hq]

theorem sat_hdrwRule {s : State} (h : Entered .compress .hdrw s) :
    (hdrwRule s).Sat (Entered .compress .pack) Halted := by
  obtain ⟨hr, hw⟩ := h
  have hf := hr.workOk_hdrw.mp hw
  have hlen : (headerBytes s.work).length = Config.cw + s.work.k.toNat * (1 + Config.cw) + Config.cw := by
    rw [headerBytes_length, hf.distinct]; simp only [Config.cw]; omega
  unfold hdrwRule
  split
  · exact hr.raise rfl
  · next hfit =>
    have hle : 0 + (headerBytes s.work).length ≤ s.cfg.outCap.toNat := by omega
    rw [memWrite_ok hle]
    have ht := ((hr.putAll hle).setWork { s.work with
      optr := BitVec.ofNat 64 (headerBytes s.work).length }).setPhase (q := .pack) rfl
    have ho : (BitVec.ofNat 64 (headerBytes s.work).length).toNat = (headerBytes s.work).length := by
      have := s.cfg.outCap.isLt
      rw [BitVec.toNat_ofNat]; omega
    refine ⟨ht, ht.workOk_pack.mpr ⟨?_, fun a ha => ?_⟩⟩
    · show (BitVec.ofNat 64 (headerBytes s.work).length).toNat ≤ _
      rw [ho]; simpa using hle
    · refine isSome_putAll (a := 0) (fun b hb => absurd hb (Nat.not_lt_zero b)) a ?_
      rw [Nat.zero_add, ← ho]; exact ha

/-! ### PACK -/

/-- What PACK keeps from bit to bit: OPTR is within OUT and every byte below it is written. -/
def Packing (s : State) : Prop :=
  Running .compress .pack s ∧ s.work.optr.toNat ≤ s.cfg.outCap.toNat ∧
    ∀ a, a < s.work.optr.toNat → (s.outMem.get a).isSome

/-- Only OPTR matters of the scratch state. -/
theorem Packing.setWork {s : State} (h : Packing s) {w : Scratch} (hw : w.optr = s.work.optr) : Packing (s.setWork w) := by
  obtain ⟨hr, hle, hwr⟩ := h
  exact ⟨hr.setWork w, by simpa [hw] using hle, by simpa [hw] using hwr⟩

theorem sat_flushByte {s : State} (h : Packing s) : (flushByte s).Sat Packing Halted := by
  obtain ⟨hr, hle, hwr⟩ := h
  unfold flushByte
  split
  · exact hr.raise rfl
  · next hlt =>
    have hB : s.work.optr.toNat + [s.work.acc].length ≤ s.cfg.outCap.toNat := by simp; omega
    have ho : (BitVec.ofNat 64 (s.work.optr.toNat + 1)).toNat = s.work.optr.toNat + 1 := by
      have := s.cfg.outCap.isLt
      rw [BitVec.toNat_ofNat]; omega
    rw [memWrite_ok hB]
    refine ⟨(hr.putAll hB).setWork _, ?_, fun a ha => isSome_putAll hwr a ?_⟩
    · simpa [ho] using hB
    · simpa [ho] using ha

theorem sat_putBit {s : State} (h : Packing s) (b : Bool) : (putBit b s).Sat Packing Halted := by
  unfold putBit
  dsimp only
  split
  · exact sat_flushByte (h.setWork rfl)
  · exact (h.setWork rfl).setWork rfl

theorem sat_putBits {s : State} (h : Packing s) (bs : Bits) : (putBits bs s).Sat Packing Halted := by
  induction bs generalizing s with
  | nil => exact h
  | cons b bs ih => exact (sat_putBit h b).andThen fun _ => ih

theorem sat_flush {s : State} (h : Packing s) : (flush s).Sat Packing Halted := by
  unfold flush
  split
  · exact h
  · exact sat_flushByte h

theorem sat_packRule {s : State} (h : Entered .compress .pack s) : (packRule s).Sat (fun _ => False) Halted := by
  obtain ⟨hr, hw⟩ := h
  have hp : Packing (s.setWork { s.work with acc := 0, nacc := 0 }) :=
    Packing.setWork ⟨hr, hr.workOk_pack.mp hw⟩ rfl
  unfold packRule
  dsimp only
  rw [memRead_ok (by simpa using hr.inFits)]
  refine ((sat_putBits hp _).andThen fun t => sat_flush).andThen fun t ht => ?_
  obtain ⟨hrt, hle, hwr⟩ := ht
  exact hrt.finish hle hwr

end Sys2Proof.Machine
end

section
/-! DECOMPRESS's phases, in the same way: HDRR establishes TREE's precondition, and TRAV stays within OUT. -/

namespace Sys2Proof.Machine

/-! ### HDRR -/

/-- The counts of a table are below 2^32 each. -/
theorem sum_present_le (f : FreqTable) :
    ((present f).map fun r => r.2.toNat).sum ≤ (present f).length * (2 ^ 32 - 1) := by
  have h := List.sum_le_card_nsmul ((present f).map fun r => r.2.toNat) (2 ^ 32 - 1) fun n hn => by
    obtain ⟨r, -, rfl⟩ := List.mem_map.mp hn
    have := r.2.isLt
    omega
  simpa using h

/-- What HDRR keeps once it has read `i` of `n` records: SUM and FREQ hold exactly those, and IPTR is after them. -/
structure HeaderRead (n i : Nat) (s : State) : Prop where
  running : Running .decompress .hdrr s
  k : s.work.k.toNat = n
  distinct : (present s.work.freq).length = i
  sum : ((present s.work.freq).map fun r => r.2.toNat).sum = s.work.sum.toNat
  iptr : s.work.iptr.toNat = 5 * i + 4
  iptrFits : s.work.iptr.toNat ≤ s.inLen.toNat

/-- Past `need(m)` the next m bytes are in the input. -/
theorem sat_need {s : State} (h : Running .decompress .hdrr s) {m : Nat} (hm : 0 < m) {k : Run} {G : State → Prop}
    (hk : s.work.iptr.toNat + m ≤ s.inLen.toNat → k.Sat G Halted) : (need m s k).Sat G Halted := by
  unfold need
  split
  · exact h.raise rfl
  · exact hk (by omega)

/-- A new symbol's record adds one entry to FREQ and its count to SUM, which has room for 256 of them. -/
theorem headerRead_freqPut {n i : Nat} {s : State} (h : HeaderRead n i s) {sym : Byte} {c : Nat}
    (hfit : s.work.iptr.toNat + 5 ≤ s.inLen.toNat) (hc : c ≠ 0) (hlt : c < 2 ^ 32) (hnew : freqAt s.work.freq sym = 0) :
    HeaderRead n (i + 1) ((s.setIptr (s.work.iptr.toNat + 1 + Config.cw)).setWork { s.work with
      iptr := BitVec.ofNat 64 (s.work.iptr.toNat + 1 + Config.cw)
      freq := freqPut s.work.freq sym (BitVec.ofNat 32 c)
      sum := BitVec.ofNat 40 (s.work.sum.toNat + c) }) := by
  obtain ⟨hr, hk, hd, hs, hi, hle⟩ := h
  have hcn : (BitVec.ofNat 32 c).toNat = c := by rw [BitVec.toNat_ofNat, Nat.mod_eq_of_lt hlt]
  have hperm := present_freqPut s.work.freq sym (BitVec.ofNat 32 c) hnew fun h0 => hc (by rw [← hcn, h0]; rfl)
  have hlen := hperm.length_eq
  have hsum := (hperm.map fun r => r.2.toNat).sum_eq
  rw [List.length_cons, hd] at hlen
  rw [List.map_cons, List.sum_cons, hs, hcn] at hsum
  have hroom : s.work.sum.toNat + c < 2 ^ 40 := by
    have := sum_present_le (freqPut s.work.freq sym (BitVec.ofNat 32 c))
    have := present_length_le (freqPut s.work.freq sym (BitVec.ofNat 32 c))
    omega
  have hip : (BitVec.ofNat 64 (s.work.iptr.toNat + 1 + Config.cw)).toNat = s.work.iptr.toNat + 5 := by
    have := s.inLen.isLt
    rw [BitVec.toNat_ofNat]; simp only [Config.cw]; omega
  refine ⟨(hr.setWork _).setWork _, hk, hlen, hsum.trans ?_, hip.trans (by omega), hip.trans_le hfit⟩
  rw [State.setWork_work, BitVec.toNat_ofNat, Nat.mod_eq_of_lt hroom, Nat.add_comm]

theorem sat_readRecord {n i : Nat} {s : State} (h : HeaderRead n i s) :
    (readRecord s).Sat (HeaderRead n (i + 1)) Halted := by
  refine sat_need h.running (by decide) fun hfit => ?_
  have hin := h.running.inFits
  rw [memReadByte_ok (by omega), memRead_ok (by omega)]
  have hr := h.running.setWork { s.work with iptr := BitVec.ofNat 64 (s.work.iptr.toNat + 1 + Config.cw) }
  dsimp only
  split
  · exact hr.raise rfl
  · next hc =>
    split
    · exact hr.raise rfl
    · next hnew => exact headerRead_freqPut h hfit hc (ube_inBytes_lt s _) (not_not.mp hnew)

theorem sat_readRecords {n i m : Nat} {s : State} (h : HeaderRead n i s) :
    (readRecords m s).Sat (HeaderRead n (i + m)) Halted := by
  induction m generalizing i s with
  | zero => exact h
  | succ m ih =>
    refine (sat_readRecord h).andThen fun t ht => ?_
    rw [show i + (m + 1) = i + 1 + m by omega]
    exact ih ht

/-- The last checks of HDRR: SUM = TOTAL makes FREQ's counts sum to TOTAL, and TOTAL fits OUT. -/
theorem sat_readTotal {n : Nat} {s : State} (h : HeaderRead n n s) (h1 : 1 ≤ n) (hn : n ≤ Config.maxk) :
    (readTotal s).Sat (Entered .decompress .tree) Halted := by
  obtain ⟨hr, hk, hd, hs, hi, hle⟩ := h
  refine sat_need hr (by decide) fun hfit => ?_
  have hin := hr.inFits
  rw [memRead_ok (by omega)]
  have hrt := (hr.setWork { s.work with total := BitVec.ofNat 32 (ube (s.inBytes s.work.iptr.toNat Config.cw)) }).setWork
    { s.work with
      total := BitVec.ofNat 32 (ube (s.inBytes s.work.iptr.toNat Config.cw))
      iptr := BitVec.ofNat 64 (s.work.iptr.toNat + Config.cw) }
  have hip : (BitVec.ofNat 64 (s.work.iptr.toNat + Config.cw)).toNat = s.work.iptr.toNat + Config.cw := by
    have := s.inLen.isLt
    rw [BitVec.toNat_ofNat]; omega
  dsimp only
  split
  · exact hrt.raise rfl
  · next hsum =>
    split
    · exact hrt.raise rfl
    · next hcap =>
      have ht := hrt.setPhase (q := .tree) rfl
      refine ⟨ht, ht.workOk_tree.mpr ⟨⟨hk ▸ h1, hk ▸ hn, hd.trans hk.symm, hs.trans (not_not.mp hsum)⟩, fun _ =>
        ⟨Nat.not_lt.mp hcap, hip.trans ?_, hip.trans_le hfit⟩⟩⟩
      show s.work.iptr.toNat + 4 = 5 * s.work.k.toNat + 8
      omega

/-- Before any record is read FREQ is empty and IPTR is after the first field. -/
theorem headerRead_zero {s : State} (h : Running .decompress .hdrr s) {n : Nat} (hn : n ≤ Config.maxk)
    (hfit : Config.cw ≤ s.inLen.toNat) :
    HeaderRead n 0 ((s.setIptr Config.cw).setWork
      { (s.setIptr Config.cw).work with k := BitVec.ofNat 9 n, freq := freqZero, sum := 0 }) where
  running := (h.setWork _).setWork _
  k := by
    show (BitVec.ofNat 9 n).toNat = n
    simp only [Config.maxk] at hn
    rw [BitVec.toNat_ofNat]; omega
  distinct := by rw [State.setWork_work, present_freqZero]; rfl
  sum := by rw [State.setWork_work, present_freqZero]; rfl
  iptr := rfl
  iptrFits := hfit

theorem sat_hdrrRule {s : State} (h : Running .decompress .hdrr s) :
    (hdrrRule s).Sat (Entered .decompress .tree) Halted := by
  unfold hdrrRule
  split
  · exact h.finish_zero
  · refine sat_need (h.setWork _) (by decide) fun hfit => ?_
    have hcw : Config.cw ≤ s.inLen.toNat := by simpa using hfit
    have hin := h.inFits
    have hr := (h.setWork { s.work with iptr := BitVec.ofNat 64 0 }).setWork
      { s.work with iptr := BitVec.ofNat 64 Config.cw }
    rw [memRead_ok (by simpa using hcw.trans hin)]
    dsimp only
    split
    · exact hr.finish_zero
    · next h0 =>
      split
      · exact hr.raise rfl
      · next hmax =>
        have hmax := Nat.not_lt.mp hmax
        refine (sat_readRecords (headerRead_zero (h.setWork _) hmax hcw)).andThen fun t ht => ?_
        rw [Nat.zero_add] at ht
        exact sat_readTotal ht (Nat.one_le_iff_ne_zero.mpr h0) hmax

/-! ### TRAV -/

/-- What TRAV keeps from bit to bit: OPTR counts the symbols emitted, at most TOTAL, and every byte below it is
written. -/
structure Emitting (s : State) : Prop where
  running : Running .decompress .trav s
  optr : s.work.optr.toNat = s.work.emit.toNat
  le_total : s.work.emit.toNat ≤ s.work.total.toNat
  fits : s.work.total.toNat ≤ s.cfg.outCap.toNat
  written : ∀ a, a < s.work.optr.toNat → (s.outMem.get a).isSome

/-- Only OPTR, EMIT and TOTAL matter of the scratch state. -/
theorem Emitting.setWork {s : State} (h : Emitting s) {w : Scratch} (ho : w.optr = s.work.optr)
    (he : w.emit = s.work.emit) (ht : w.total = s.work.total) : Emitting (s.setWork w) where
  running := h.running.setWork w
  optr := by simpa [ho, he] using h.optr
  le_total := by simpa [he, ht] using h.le_total
  fits := by simpa [ht] using h.fits
  written := by simpa [ho] using h.written

/-- One more symbol goes to OUT while fewer than TOTAL have gone there. -/
theorem sat_emit {s : State} (h : Emitting s) (hlt : s.work.emit < s.work.total) (sym : Byte) :
    (emit sym s).Sat Emitting Halted := by
  obtain ⟨hr, ho, -, hf, hw⟩ := h
  rw [BitVec.lt_def] at hlt
  have hB : s.work.optr.toNat + [sym].length ≤ s.cfg.outCap.toNat := by simp only [List.length_singleton]; omega
  have hot : (BitVec.ofNat 64 (s.work.optr.toNat + 1)).toNat = s.work.optr.toNat + 1 := by
    have := s.cfg.outCap.isLt
    rw [BitVec.toNat_ofNat]; simp only [List.length_singleton] at hB; omega
  have het : (s.work.emit + 1).toNat = s.work.emit.toNat + 1 := by
    have := s.work.total.isLt
    rw [BitVec.toNat_add]; simp only [BitVec.reduceToNat]; omega
  unfold emit
  rw [memWrite_ok hB]
  refine ⟨(hr.putAll hB).setWork _, ?_, het.trans_le hlt, hf, fun a ha => isSome_putAll hw a ?_⟩
  · exact hot.trans (by rw [ho]; exact het.symm)
  · exact ha.trans_eq hot

theorem sat_walkBit {s : State} (h : Emitting s) (hlt : s.work.emit < s.work.total) (b : Bool) :
    (walkBit b s).Sat Emitting Halted := by
  unfold walkBit
  split
  · exact sat_emit h hlt _
  · have hc (c : NodeIx) : Emitting (s.setWork { s.work with cur := c }) := h.setWork rfl rfl rfl
    dsimp only
    split
    · refine (sat_emit ?_ ?_ _).andThen fun t ht => ?_
      · exact hc _
      · exact hlt
      · exact ht.setWork (w := { t.work with cur := t.work.root }) rfl rfl rfl
    · exact hc _

/-- The reader takes a byte of the input or reports that there is none; it leaves what TRAV has written. -/
theorem sat_getBit {s : State} (h : Emitting s) (hlt : s.work.emit < s.work.total) {k : Bool → State → Run}
    {G : State → Prop} (hk : ∀ b t, Emitting t → t.work.emit < t.work.total → (k b t).Sat G Halted) :
    (getBit s k).Sat G Halted := by
  unfold getBit
  split
  · split
    · exact h.running.raise rfl
    · have := h.running.inFits
      rw [memReadByte_ok (by omega)]
      exact hk _ _ ((h.setWork rfl rfl rfl).setWork rfl rfl rfl) hlt
  · exact hk _ _ (h.setWork rfl rfl rfl) hlt

theorem sat_travLoop {fuel : Nat} {s : State} (h : Emitting s) : (travLoop fuel s).Sat Emitting Halted := by
  induction fuel generalizing s with
  | zero => exact h
  | succ fuel ih =>
    unfold travLoop
    split
    · next hlt => exact sat_getBit h hlt fun b t ht htl => (sat_walkBit ht htl b).andThen fun _ => ih
    · exact h

theorem sat_travRule {s : State} (h : Entered .decompress .trav s) : (travRule s).Sat (fun _ => False) Halted := by
  obtain ⟨hr, hw⟩ := h
  obtain ⟨-, hcap, -, -⟩ := hr.workOk_trav.mp hw
  have he : Emitting (s.setWork { s.work with optr := 0, emit := 0, cur := s.work.root, nrem := 0 }) :=
    ⟨hr.setWork _, rfl, Nat.zero_le _, hcap, fun a ha => absurd ha (Nat.not_lt_zero a)⟩
  refine (sat_travLoop he).andThen fun t ht => ?_
  exact ht.running.finish (ht.optr.trans_le (ht.le_total.trans ht.fits)) ht.written

end Sys2Proof.Machine
end

section
/-! The invariant of a run, step by step: the engine's step from the rules of the phases, and each of the host's moves. -/

namespace Sys2Proof.Machine

/-- A step of the engine has completed and kept the invariant. -/
def Completes (o : Host.Outcome State Fault Refusal) : Prop := ∃ t, o = .next t ∧ RunInv t

theorem Run.Sat.completes {op : Op} {p : Phase} {r : Run} (h : r.Sat (Entered op p) Halted) : Completes r.outcome :=
  h.outcome (fun _ => Entered.runInv) fun _ => And.left

/-- The last phase of an operation halts it. -/
theorem Run.Sat.completes_last {r : Run} (h : r.Sat (fun _ => False) Halted) : Completes r.outcome :=
  h.outcome (fun _ => False.elim) fun _ => And.left

/-- The pairs of an operation and its phases (10_state.md R17). -/
theorem Status.runs_cases {op : Op} {p : Phase} (h : Status.runs op p = true) :
    op = .compress ∧ (p = .freq ∨ p = .tree ∨ p = .code ∨ p = .hdrw ∨ p = .pack) ∨
      op = .decompress ∧ (p = .hdrr ∨ p = .tree ∨ p = .trav) := by
  cases op <;> cases p <;> simp [Status.runs] at h ⊢

/-- While BUSY = 1 the engine's step completes: the rule of the phase at hand, whose precondition holds. -/
theorem Entered.engineStep_completes {op : Op} {p : Phase} {s : State} (h : Entered op p s) :
    Completes (engineStep s) := by
  have hb : s.status.busy = true := by rw [h.1.status]
  have hp : s.status.phase = p := by rw [h.1.status]
  rw [engineStep_busy hb, hp]
  rcases Status.runs_cases h.1.runs with ⟨rfl, rfl | rfl | rfl | rfl | rfl⟩ | ⟨rfl, rfl | rfl | rfl⟩
  · exact (sat_freqRule h.1).completes
  · exact ⟨_, rfl, (entered_treeRule h).runInv⟩
  · exact ⟨_, rfl, (entered_codeRule h).runInv⟩
  · exact (sat_hdrwRule h).completes
  · exact (sat_packRule h).completes_last
  · exact (sat_hdrrRule h.1).completes
  · exact ⟨_, rfl, (entered_treeRule h).runInv⟩
  · exact (sat_travRule h).completes_last

theorem RunInv.engineStep_completes {s : State} (h : RunInv s) (hb : s.status.busy = true) :
    Completes (engineStep s) := (h.entered hb).engineStep_completes

/-! ### The whole block -/

/-- An outcome that is no fault and, where it is a next state, one that meets the invariant. -/
def Safe : Host.Outcome State Fault Refusal → Prop
  | .next t => t.Inv
  | .fault _ => False
  | .refused _ => True

/-- What touches nothing of IN keeps the clauses of the invariant on IN. -/
theorem RunInv.inv_of_frame {s t : State} (ht : RunInv t) (h : s.Inv) (hf : Frame s t) : t.Inv :=
  ht.inv (by rw [hf.1.inMem]; exact h.inWf) (by rw [hf.1.inMem, hf.1.cfg]; exact h.inBound)

theorem safe_engineStep {s : State} (h : s.Inv) : Safe (engineStep s) := by
  cases hb : s.status.busy with
  | false => rw [engineStep_idle hb]; exact h
  | true =>
    obtain ⟨t, ht, hinv⟩ := h.runInv.engineStep_completes hb
    have hf := frame_engineStep ht
    rw [ht]
    exact hinv.inv_of_frame h hf

theorem inv_accept {s : State} (h : s.Inv) (w : Word) : (s.accept w).Inv := by
  cases hb : s.status.busy with
  | true => rw [accept_busy hb]; exact h
  | false => exact (runInv_accept hb w).inv_of_frame h (frame_accept w s)

/-- The invariant speaks of IN_LEN only while BUSY = 1. -/
theorem inv_setInLen {s : State} (h : s.Inv) (hb : s.status.busy = false) (v : Word64) :
    ({ s with inLen := v } : State).Inv :=
  ⟨h.inWf, h.outWf, h.inBound, h.outBound, h.legal, h.outLenZero, h.outLenFits, h.outWritten,
    fun hb' => absurd (hb.symm.trans hb') (by decide), fun hb' => absurd (hb.symm.trans hb') (by decide)⟩

theorem inv_putIn {s : State} (h : s.Inv) {a : Nat} (ha : a < s.cfg.inCap.toNat) (v : Byte) :
    ({ s with inMem := s.inMem.put a v } : State).Inv :=
  ⟨Memory.wf_put h.inWf a v, h.outWf, fun c hc => (Memory.mem_put hc).elim (fun hca => hca.trans_lt ha) (h.inBound c),
    h.outBound, h.legal, h.outLenZero, h.outLenFits, h.outWritten, h.lengths, h.work⟩

theorem inv_applyReset (s : State) : (applyReset s).Inv :=
  ⟨Memory.wf_nil, Memory.wf_nil, nofun, nofun, rfl, fun _ => rfl, Nat.zero_le _,
    fun a ha => absurd ha (Nat.not_lt_zero a), nofun, nofun⟩

theorem inv_hear {s : State} (h : s.Inv) (v : Word64) : (s.hear v).Inv := h.host_side _ _ _

theorem inv_expand {s : State} (h : s.Inv) (ms : List HostMove) : (s.expand ms).Inv := h.host_side _ _ _

theorem safe_ite {c : Prop} [Decidable c] {o o' : Host.Outcome State Fault Refusal} (h : Safe o) (h' : Safe o') :
    Safe (if c then o else o') := by
  split
  · exact h
  · exact h'

theorem safe_writeReg {s : State} (h : s.Inv) (off width : Nat) (v : Word64) : Safe (writeReg off width v s) := by
  have hcmd : Safe (writeCmd (v.setWidth 32) s) := by rw [writeCmd_eq]; exact inv_accept h _
  have hlen : Safe (.next (if s.status.busy then s else { s with inLen := v })) := by
    cases hb : s.status.busy with
    | true => exact h
    | false => exact inv_setInLen h hb v
  exact safe_ite h <| safe_ite hcmd <| safe_ite h <| safe_ite hlen <| safe_ite h trivial

theorem safe_readReg {s : State} (h : s.Inv) (off width : Nat) : Safe (readReg off width s) :=
  safe_ite (inv_hear h _) <| safe_ite (inv_hear h _) <| safe_ite (inv_hear h _) <| safe_ite (inv_hear h _) <|
    safe_ite (inv_hear h _) trivial

theorem safe_writeIn {s : State} (h : s.Inv) (a : Nat) (v : Byte) : Safe (writeIn a v s) := by
  unfold writeIn
  split
  · exact h
  · next ha => exact safe_ite trivial (inv_putIn h (Nat.not_le.mp ha) v)

theorem safe_hostStep {s : State} (h : s.Inv) (m : HostMove) : Safe (hostStep m s) := by
  cases m with
  | reset => exact inv_applyReset s
  | wrIn a v => exact safe_writeIn h a v
  | wrOut a v => exact h
  | wrReg off width v => exact safe_writeReg h off width v
  | rdReg off width => exact safe_readReg h off width
  | rdIn a => exact inv_hear h _
  | rdOut a => exact h.host_side _ _ _
  | wait => exact safe_ite (safe_engineStep (inv_expand h _)) (inv_hear h _)
  | dump => exact inv_expand h _
  | copyback => exact safe_ite (inv_expand h _) trivial
  | result =>
    unfold hostStep
    dsimp only
    split
    · exact inv_hear h _
    · exact inv_expand h _

/-- A step from a state that meets the invariant does not fault, and keeps it. -/
theorem safe_step {s : State} (h : s.Inv) : Safe (step s) := by
  have hrest (ts : List Turn) : ({ s with turns := ts } : State).Inv := h.host_side ts s.heard s.draws
  unfold step
  split
  · exact safe_engineStep h
  · exact safe_engineStep (hrest _)
  · exact safe_hostStep (hrest _) _

/-- Settles O51: every turn's outcome is safe. -/
theorem stepKeepsInv : Obligations.StepKeepsInv := by
  intro s t h hst
  have hs := safe_step h
  rw [hst] at hs
  exact hs

/-- Settles O53: a fault is no safe outcome. -/
theorem noStepFaults : Obligations.NoStepFaults := by
  intro s h f hst
  have hs := safe_step h
  rw [hst] at hs
  exact hs

end Sys2Proof.Machine
end

section
/-! The tree of a table of counts, from any arena: which entries TREE's result and CODE's walk depend on
(41_tree_builder.md R86 to R88, R93). Two arenas that agree below NNODE, with the children of every node there below
NNODE too, are one tree to all that read it. -/

namespace Sys2Proof.Machine

/-! ### The arena -/

theorem arena_get_set (A : Arena) (i j : NodeIx) (v : Node) : (A.set i v).get j = if i = j then v else A.get j := by
  simp only [Vector.get_eq_getElem, Vector.getElem_set, Fin.ext_iff]

theorem arena_get_setIfInBounds (A : Arena) (n : Nat) (j : NodeIx) (v : Node) :
    (A.setIfInBounds n v).get j = if n = j.val then v else A.get j := by
  simp only [Vector.get_eq_getElem, Vector.getElem_setIfInBounds]

/-- `A'` has the entries of `A` below `n`, and no node there has a child beyond them. -/
structure ArenaTwin (A A' : Arena) (n : Nat) : Prop where
  same : ∀ j : NodeIx, j.val < n → A'.get j = A.get j
  closed : ∀ j : NodeIx, j.val < n → ∀ f l r v, A.get j = .internal f l r v → l.val < n ∧ r.val < n

/-- L depends on the entries below NNODE alone. -/
theorem liveSet_congr {A A' : Arena} {n : Nat} (h : ∀ j : NodeIx, j.val < n → A'.get j = A.get j) :
    liveSet A' n = liveSet A n := by
  refine List.filterMap_congr fun i hi => ?_
  split
  · next hlt => rw [h ⟨i, hlt⟩ (List.mem_range.mp hi)]
  · rfl

theorem argmin_congr {A A' : Arena} {i : NodeIx} {L : List NodeIx} (h : ∀ j ∈ i :: L, A'.get j = A.get j) :
    argmin A' i L = argmin A i L := by
  induction L generalizing i with
  | nil => rfl
  | cons k L ih =>
    obtain ⟨hi, hk, hL⟩ : A'.get i = A.get i ∧ A'.get k = A.get k ∧ ∀ j ∈ L, A'.get j = A.get j := by simpa using h
    have hkey : keyLt A' k i = keyLt A k i := by simp only [keyLt, hi, hk]
    have hrec (A : Arena) : argmin A i (k :: L) = argmin A (if keyLt A k i then k else i) L := rfl
    rw [hrec, hrec, hkey]
    refine ih fun j hj => ?_
    rcases List.mem_cons.mp hj with rfl | hj
    · split
      · exact hk
      · exact hi
    · exact hL j hj

/-- Clearing one `live` bit in both. -/
theorem ArenaTwin.kill {A A' : Arena} {n : Nat} (h : ArenaTwin A A' n) {a : NodeIx} (ha : a.val < n) :
    ArenaTwin (A.set a (A.get a).kill) (A'.set a (A'.get a).kill) n where
  same j hj := by rw [arena_get_set, arena_get_set, h.same a ha, h.same j hj]
  closed j hj f l r v hg := by
    rw [arena_get_set] at hg
    split at hg
    · cases hn : A.get a with
      | leaf => rw [hn] at hg; cases hg
      | internal f' l' r' v' => rw [hn] at hg; cases hg; exact h.closed a ha _ _ _ _ hn
    · exact h.closed j hj _ _ _ _ hg

/-- A node at `n` whose children stand below it. -/
theorem ArenaTwin.join {A A' : Arena} {n : Nat} (h : ArenaTwin A A' n) (f : Word) {a b : NodeIx} (ha : a.val < n)
    (hb : b.val < n) :
    ArenaTwin (A.setIfInBounds n (.internal f a b true)) (A'.setIfInBounds n (.internal f a b true)) (n + 1) where
  same j hj := by
    rw [arena_get_setIfInBounds, arena_get_setIfInBounds]
    split
    · rfl
    · exact h.same j (by omega)
  closed j hj f' l r v hg := by
    rw [arena_get_setIfInBounds] at hg
    split at hg
    · cases hg; exact ⟨Nat.lt_succ_of_lt ha, Nat.lt_succ_of_lt hb⟩
    · obtain ⟨hl, hr⟩ := h.closed j (by omega) _ _ _ _ hg
      exact ⟨Nat.lt_succ_of_lt hl, Nat.lt_succ_of_lt hr⟩

/-! ### The merge loop -/

/-- The same node leaves L. -/
theorem removeMin_twin {A A' : Arena} {n : Nat} (h : ArenaTwin A A' n) :
    removeMin A n = none ∧ removeMin A' n = none ∨
      ∃ a B B', removeMin A n = some (a, B) ∧ removeMin A' n = some (a, B') ∧ a.val < n ∧ ArenaTwin B B' n := by
  have hlive := liveSet_congr h.same
  cases hL : liveSet A n with
  | nil => exact .inl ⟨by simp [removeMin, hL], by simp [removeMin, hlive, hL]⟩
  | cons i L =>
    have hmem (j : NodeIx) (hj : j ∈ i :: L) : j.val < n := ((mem_liveSet A n j).mp (hL ▸ hj)).1
    have ha := hmem _ (argmin_mem A i L)
    have hmin : argmin A' i L = argmin A i L := argmin_congr fun j hj => h.same j (hmem j hj)
    refine .inr ⟨argmin A i L, _, _, by rw [removeMin, hL], ?_, ha, h.kill ha⟩
    simp only [removeMin, hlive, hL, hmin]

theorem mergeLoop_twin {fuel n : Nat} {A A' : Arena} (h : ArenaTwin A A' n) :
    (mergeLoop fuel A' n).2 = (mergeLoop fuel A n).2 ∧
      ArenaTwin (mergeLoop fuel A n).1 (mergeLoop fuel A' n).1 (mergeLoop fuel A n).2 := by
  induction fuel generalizing A A' n with
  | zero => exact ⟨rfl, h⟩
  | succ fuel ih =>
    unfold mergeLoop
    rw [liveSet_congr h.same]
    split
    · exact ⟨rfl, h⟩
    · rcases removeMin_twin h with ⟨hr, hr'⟩ | ⟨a, B, B', hr, hr', ha, hB⟩ <;> simp only [hr, hr']
      · exact ⟨trivial, h⟩
      · rcases removeMin_twin hB with ⟨hq, hq'⟩ | ⟨b, C, C', hq, hq', hb, hC⟩ <;> simp only [hq, hq']
        · exact ⟨trivial, h⟩
        · rw [hC.same a ha, hC.same b hb]
          exact ih (hC.join _ ha hb)

theorem liveSet_nodup (A : Arena) (n : Nat) : (liveSet A n).Nodup := by
  refine List.nodup_range.filterMap fun i j x hi hj => ?_
  simp only [Option.mem_def] at hi hj
  split at hi <;> simp only [Option.ite_none_right_eq_some, Option.some.injEq, reduceCtorEq] at hi
  split at hj <;> simp only [Option.ite_none_right_eq_some, Option.some.injEq, reduceCtorEq] at hj
  exact congrArg Fin.val (hi.2.trans hj.2.symm)

/-- A node that leaves L makes it one shorter. -/
theorem liveSet_kill_length {A : Arena} {n : Nat} {a : NodeIx} (ha : a ∈ liveSet A n) :
    (liveSet (A.set a (A.get a).kill) n).length + 1 = (liveSet A n).length := by
  have hperm : (liveSet (A.set a (A.get a).kill) n).Perm ((liveSet A n).erase a) := by
    refine (List.perm_ext_iff_of_nodup (liveSet_nodup _ n) ((liveSet_nodup A n).erase a)).mpr fun j => ?_
    rw [(liveSet_nodup A n).mem_erase_iff, mem_liveSet, mem_liveSet, arena_get_set]
    by_cases h : a = j
    · simp [h]
    · simp [h, Ne.symm h]
  rw [hperm.length_eq, List.length_erase_add_one ha]

/-- A node that joins L at NNODE stands last in it. -/
theorem liveSet_join (A : Arena) {n : Nat} (hn : n < 511) (f : Word) (a b : NodeIx) :
    liveSet (A.setIfInBounds n (.internal f a b true)) (n + 1) = liveSet A n ++ [⟨n, hn⟩] := by
  have hnew : (A.setIfInBounds n (.internal f a b true)).get ⟨n, hn⟩ = .internal f a b true := by
    rw [arena_get_setIfInBounds, if_pos rfl]
  have hold : liveSet (A.setIfInBounds n (.internal f a b true)) n = liveSet A n :=
    liveSet_congr fun j hj => by rw [arena_get_setIfInBounds, if_neg (Nat.ne_of_gt hj)]
  rw [← hold]
  simp [liveSet, List.range_succ, List.filterMap_append, hn, hnew, Node.live]

/-- L is not empty at the end of the merge loop: as long as NNODE + |L| ≤ 512 at entry there is room for every new node. -/
theorem mergeLoop_live {fuel n : Nat} {A : Arena} (hne : liveSet A n ≠ []) (hroom : n + (liveSet A n).length ≤ 512) :
    liveSet (mergeLoop fuel A n).1 (mergeLoop fuel A n).2 ≠ [] := by
  induction fuel generalizing A n with
  | zero => exact hne
  | succ fuel ih =>
    unfold mergeLoop
    split
    · exact hne
    · next hlen =>
      split
      · exact hne
      · next a B ha =>
        split
        · exact hne
        · next b C hb =>
          obtain ⟨haL, -, rfl⟩ := removeMin_some ha
          obtain ⟨hbL, -, rfl⟩ := removeMin_some hb
          have hka := liveSet_kill_length haL
          have hkb := liveSet_kill_length hbL
          have hj := liveSet_join (((A.set a (A.get a).kill).set b ((A.set a (A.get a).kill).get b).kill))
            (n := n) (by omega)
          refine ih ?_ ?_ <;> rw [hj]
          · simp
          · rw [List.length_append, List.length_singleton]; omega

/-! ### The leaf step -/

/-- Leaves written at rising indices from `k` on. -/
theorem foldl_leaves_get (rs : List (Byte × Word)) (k : Nat) (A : Arena) (j : NodeIx) :
    ((rs.zipIdx k).foldl (fun A (r, i) => A.setIfInBounds i (.leaf r.2 r.1 true)) A).get j =
      if j.val < k then A.get j else ((rs[j.val - k]?).map fun r => Node.leaf r.2 r.1 true).getD (A.get j) := by
  induction rs generalizing k A with
  | nil => simp
  | cons r rs ih =>
    rw [List.zipIdx_cons, List.foldl_cons, ih, arena_get_setIfInBounds]
    rcases Nat.lt_trichotomy j.val k with h | h | h
    · simp [h, Nat.lt_succ_of_lt h, Nat.ne_of_gt h]
    · simp [h]
    · obtain ⟨d, hd⟩ := Nat.exists_eq_add_of_lt h
      simp [hd, show ¬k + d + 1 < k + 1 by omega, show ¬k + d + 1 < k by omega, show k + d + 1 - (k + 1) = d by omega,
        show k + d + 1 - k = d + 1 by omega, show k ≠ k + d + 1 by omega]

/-- The leaf step writes the symbols present at the first indices and nothing else (R86). -/
theorem leafStep_get (f : FreqTable) (A : Arena) (j : NodeIx) :
    (leafStep f A).get j = (((present f)[j.val]?).map fun r => Node.leaf r.2 r.1 true).getD (A.get j) := by
  simpa [leafStep] using foldl_leaves_get (present f) 0 A j

theorem leafStep_get_of_lt {f : FreqTable} {j : NodeIx} (h : j.val < (present f).length) (A : Arena) :
    (leafStep f A).get j = .leaf (present f)[j.val].2 (present f)[j.val].1 true := by
  simp [leafStep_get, h]

theorem leafStep_twin (f : FreqTable) (A A' : Arena) :
    ArenaTwin (leafStep f A) (leafStep f A') (present f).length where
  same j hj := by rw [leafStep_get_of_lt hj, leafStep_get_of_lt hj]
  closed j hj f' l r v hg := by rw [leafStep_get_of_lt hj] at hg; cases hg

/-! ### TREE -/

/-- What TREE builds does not depend on the arena at entry (41_tree_builder.md R93). -/
theorem buildTree_twin (f : FreqTable) (A A' : Arena) :
    (buildTree f (present f).length A').2 = (buildTree f (present f).length A).2 ∧
      ArenaTwin (buildTree f (present f).length A).1 (buildTree f (present f).length A').1
        (buildTree f (present f).length A).2 := by
  have h := leafStep_twin f A A'
  unfold buildTree
  rw [liveSet_congr h.same]
  exact mergeLoop_twin h

/-- One node at least is live at the end of TREE: with 256 leaves at the most there is room for all the merges. -/
theorem buildTree_live {f : FreqTable} (hf : present f ≠ []) (A : Arena) :
    liveSet (buildTree f (present f).length A).1 (buildTree f (present f).length A).2 ≠ [] := by
  have hpos := List.length_pos_iff.mpr hf
  have hmax := present_length_le f
  have hzero : (⟨0, by decide⟩ : NodeIx) ∈ liveSet (leafStep f A) (present f).length := by
    rw [mem_liveSet, leafStep_get_of_lt hpos]
    exact ⟨hpos, rfl⟩
  have hlen : (liveSet (leafStep f A) (present f).length).length ≤ (present f).length :=
    (List.length_filterMap_le _ _).trans_eq List.length_range
  exact mergeLoop_live (List.ne_nil_of_mem hzero) (by omega)

/-- Two scratch states hold one tree: ROOT, and all that can be reached from it. -/
def TreeTwin (w w' : Scratch) : Prop :=
  w'.root = w.root ∧ ∃ n, ArenaTwin w.node w'.node n ∧ w.root.val < n

/-! ### CODE -/

theorem leafPaths_twin {A A' : Arena} {n : Nat} (h : ArenaTwin A A' n) (d : Nat) {i : NodeIx} (hi : i.val < n)
    (p : Bits) : leafPaths A' d i p = leafPaths A d i p := by
  induction d generalizing i p with
  | zero => rfl
  | succ d ih =>
    unfold leafPaths
    rw [h.same i hi]
    cases hg : A.get i with
    | leaf => rfl
    | internal f l r v =>
      obtain ⟨hl, hr⟩ := h.closed i hi _ _ _ _ hg
      dsimp only
      rw [ih hl, ih hr]

theorem codeTable_twin {w w' : Scratch} (h : TreeTwin w w') : codeTable w'.node w'.root = codeTable w.node w.root := by
  obtain ⟨hroot, n, hA, hn⟩ := h
  unfold codeTable
  rw [hroot, hA.same _ hn]
  split
  · rfl
  · rw [leafPaths_twin hA _ hn]

end Sys2Proof.Machine
end

section
/-! Two runs side by side (45_compressor.md R124, 46_decompressor.md R136): from states that agree on the input, on OUT
and on what the phase to come reads of the scratch state, each rule takes the same course and ends in states that agree
again. -/

namespace Sys2Proof.Machine

/-- Two parts of a rule stand at the same place, in states related by `G` or `E`. -/
def Run.Rel (G E : State → State → Prop) : Run → Run → Prop
  | .going s, .going s' => G s s'
  | .ended s, .ended s' => E s s'
  | .broken _, .broken _ => True
  | _, _ => False

namespace Run

variable {G G' E : State → State → Prop} {r r' : Run}

theorem Rel.andThen {k k' : State → Run} (h : Rel G E r r') (hk : ∀ s s', G s s' → Rel G' E (k s) (k' s')) :
    Rel G' E (r.andThen k) (r'.andThen k') := by
  cases r <;> cases r'
  case going.going s s' => exact hk s s' h
  case ended.ended => exact h
  case broken.broken => trivial
  all_goals exact h.elim

theorem Rel.imp (h : Rel G E r r') (hG : ∀ s s', G s s' → G' s s') : Rel G' E r r' := by
  cases r <;> cases r'
  case going.going s s' => exact hG s s' h
  case ended.ended => exact h
  case broken.broken => trivial
  all_goals exact h.elim

/-- Both take the same branch. -/
theorem Rel.ite {c c' : Prop} [Decidable c] [Decidable c'] {q q' : Run} (hc : c' ↔ c) (h : c → Rel G E r r')
    (h' : ¬c → Rel G E q q') : Rel G E (if c then r else q) (if c' then r' else q') := by
  by_cases hcc : c
  · rw [if_pos hcc, if_pos (hc.mpr hcc)]; exact h hcc
  · rw [if_neg hcc, if_neg (mt hc.mp hcc)]; exact h' hcc

end Run

/-- Two states show the host the same and have the same input: all but the scratch state, the rest of IN and the model's
own counters. -/
structure Twin (s s' : State) : Prop where
  cfg : s'.cfg = s.cfg
  status : s'.status = s.status
  inLen : s'.inLen = s.inLen
  outLen : s'.outLen = s.outLen
  outMem : s'.outMem = s.outMem
  inByte : ∀ a, a < s.inLen.toNat → s'.inByte a = s.inByte a

/-- What phase `p` of the operation `op` reads of the scratch state is the same in both. -/
def WorkTwin (op : Op) (p : Phase) (w w' : Scratch) : Prop :=
  match p with
  | .idle | .freq | .hdrr => True
  | .tree => w'.k = w.k ∧ w'.total = w.total ∧ w'.freq = w.freq ∧ (op = .decompress → w'.iptr = w.iptr)
  | .code => w'.k = w.k ∧ w'.total = w.total ∧ w'.freq = w.freq ∧ TreeTwin w w'
  | .hdrw => w'.k = w.k ∧ w'.total = w.total ∧ w'.freq = w.freq ∧ w'.code = w.code
  | .pack => w'.optr = w.optr ∧ w'.code = w.code
  | .trav => w'.total = w.total ∧ w'.iptr = w.iptr ∧ TreeTwin w w'

/-- Both stand before phase `p` of `op` and agree on what it reads. -/
def TwinAt (op : Op) (p : Phase) (s s' : State) : Prop := Twin s s' ∧ WorkTwin op p s.work s'.work

namespace Twin

variable {s s' : State}

theorem setWork (h : Twin s s') (w w' : Scratch) : Twin (s.setWork w) (s'.setWork w') :=
  ⟨h.cfg, h.status, h.inLen, h.outLen, h.outMem, h.inByte⟩

theorem setPhase (h : Twin s s') (p : Phase) : Twin (s.setPhase p) (s'.setPhase p) :=
  ⟨h.cfg, by simp [h.status], h.inLen, h.outLen, h.outMem, h.inByte⟩

theorem raise (h : Twin s s') (e : ErrCode) : Twin (s.raise e) (s'.raise e) :=
  ⟨h.cfg, by simp [h.status], h.inLen, rfl, rfl, h.inByte⟩

theorem finish (h : Twin s s') {n n' : Word64} (hn : n' = n) : Twin (s.finish n) (s'.finish n') := by
  subst hn
  exact ⟨h.cfg, by simp [h.status], h.inLen, rfl, by simp [h.outMem], h.inByte⟩

theorem putAll (h : Twin s s') (a : Nat) (B : List Byte) :
    Twin { s with outMem := s.outMem.putAll a B } { s' with outMem := s'.outMem.putAll a B } :=
  ⟨h.cfg, h.status, h.inLen, h.outLen, by simp only [h.outMem], h.inByte⟩

theorem inBytes (h : Twin s s') {a n : Nat} (hin : a + n ≤ s.inLen.toNat) : s'.inBytes a n = s.inBytes a n :=
  List.map_congr_left fun i hi => h.inByte _ (by have := List.mem_range.mp hi; omega)

end Twin

section

variable {s s' : State} {G E : State → State → Prop}

/-- Bytes of the input are the same in both. -/
theorem rel_memRead (h : Twin s s') {a n : Nat} (hin : a + n ≤ s.inLen.toNat) {k k' : List Byte → Run}
    (hk : ∀ B, (k B).Rel G E (k' B)) : (memRead s a n k).Rel G E (memRead s' a n k') := by
  refine .ite (by rw [h.cfg]) (fun _ => ?_) fun _ => trivial
  rw [h.inBytes hin]
  exact hk _

theorem rel_memReadByte (h : Twin s s') {a : Nat} (hin : a < s.inLen.toNat) {k k' : Byte → Run}
    (hk : ∀ b, (k b).Rel G E (k' b)) : (memReadByte s a k).Rel G E (memReadByte s' a k') := by
  refine .ite (by rw [h.cfg]) (fun _ => ?_) fun _ => trivial
  rw [h.inByte a hin]
  exact hk _

/-- A write leaves the scratch state and what the two share of it. -/
theorem rel_memWrite (h : Twin s s') (a : Nat) (B : List Byte) :
    (memWrite s a B).Rel (fun t t' => Twin t t' ∧ t.work = s.work ∧ t'.work = s'.work) E (memWrite s' a B) :=
  .ite (by rw [h.cfg]) (fun _ => ⟨h.putAll a B, rfl, rfl⟩) fun _ => trivial

end

/-! ### COMPRESS -/

theorem rel_freqRule {s s' : State} (h : Twin s s') : (freqRule s).Rel (TwinAt .compress .tree) Twin (freqRule s') := by
  unfold freqRule
  rw [h.inLen]
  refine rel_memRead h (by simp) fun X => .ite Iff.rfl (fun _ => ?_) fun _ => ?_
  · exact (h.setWork _ _).finish rfl
  · exact ⟨(h.setWork _ _).setPhase _, rfl, by simp, rfl, nofun⟩

/-- TREE builds one tree from one table of counts, and leaves the counts and the reader's place. -/
theorem twinAt_treeRule {op : Op} {s s' : State} (hs : Entered op .tree s) (h : TwinAt op .tree s s') :
    TwinAt op (if op = .compress then .code else .trav) (treeRule s) (treeRule s') := by
  obtain ⟨hr, hw⟩ := hs
  obtain ⟨hf, -⟩ := hr.workOk_tree.mp hw
  obtain ⟨ht, hk, htot, hfreq, hip⟩ := h
  have hne : present s.work.freq ≠ [] := by
    have := hf.one_le
    exact List.ne_nil_of_length_pos (by rw [hf.distinct]; exact this)
  obtain ⟨hn, hA⟩ := buildTree_twin s.work.freq s.work.node s'.work.node
  have hlive := buildTree_live hne s.work.node
  rw [hf.distinct] at hn hA hlive
  have htree : TreeTwin (treeRule s).work (treeRule s').work := by
    simp only [treeRule, hk, hfreq, State.setPhase_work, State.setWork_work, hn, liveSet_congr hA.same]
    obtain ⟨i, L, hL⟩ := List.exists_cons_of_ne_nil hlive
    have hi : i ∈ liveSet (buildTree s.work.freq s.work.k.toNat s.work.node).1
        (buildTree s.work.freq s.work.k.toNat s.work.node).2 := by simp [hL]
    exact ⟨by simp [hL], _, hA, by simpa [hL] using ((mem_liveSet _ _ i).mp hi).1⟩
  have htwin : Twin (treeRule s) (treeRule s') := by
    unfold treeRule
    dsimp only
    rw [ht.status]
    exact (ht.setWork _ _).setPhase _
  cases op with
  | compress => exact ⟨htwin, hk, htot, hfreq, htree⟩
  | decompress => exact ⟨htwin, htot, hip rfl, htree⟩
  | noOp => exact absurd hr.runs (by decide)

theorem twinAt_codeRule {s s' : State} (h : TwinAt .compress .code s s') :
    TwinAt .compress .hdrw (codeRule s) (codeRule s') := by
  obtain ⟨ht, hk, htot, hfreq, htree⟩ := h
  exact ⟨(ht.setWork _ _).setPhase _, hk, htot, hfreq, codeTable_twin htree⟩

theorem rel_hdrwRule {s s' : State} (h : TwinAt .compress .hdrw s s') :
    (hdrwRule s).Rel (TwinAt .compress .pack) Twin (hdrwRule s') := by
  obtain ⟨ht, hk, htot, hfreq, hcode⟩ := h
  have hbytes : headerBytes s'.work = headerBytes s.work := by simp only [headerBytes, hk, htot, hfreq]
  unfold hdrwRule
  rw [hk, ht.cfg, hbytes]
  refine .ite Iff.rfl (fun _ => ht.raise _) fun _ => (rel_memWrite ht _ _).andThen fun t t' htt => ?_
  obtain ⟨htt, hw, hw'⟩ := htt
  exact ⟨(htt.setWork _ _).setPhase _, by simp [hw, hw', hbytes], by simpa [hw, hw'] using hcode⟩

/-- What the packer reads of the scratch state is the same in both. -/
structure PackTwin (s s' : State) : Prop where
  twin : Twin s s'
  optr : s'.work.optr = s.work.optr
  acc : s'.work.acc = s.work.acc
  nacc : s'.work.nacc = s.work.nacc

theorem rel_flushByte {s s' : State} (h : PackTwin s s') : (flushByte s).Rel PackTwin Twin (flushByte s') := by
  unfold flushByte
  rw [h.optr, h.twin.cfg, h.acc]
  refine .ite Iff.rfl (fun _ => h.twin.raise _) fun _ => (rel_memWrite h.twin _ _).andThen fun t t' htt => ?_
  obtain ⟨htt, hw, hw'⟩ := htt
  exact ⟨htt.setWork _ _, by simp [hw, hw', h.optr], rfl, rfl⟩

theorem rel_putBit {s s' : State} (h : PackTwin s s') (b : Bool) : (putBit b s).Rel PackTwin Twin (putBit b s') := by
  unfold putBit
  dsimp only
  rw [h.nacc, h.acc]
  refine .ite Iff.rfl (fun _ => rel_flushByte ?_) fun _ => ?_
  · exact ⟨h.twin.setWork _ _, h.optr, rfl, rfl⟩
  · exact ⟨(h.twin.setWork _ _).setWork _ _, h.optr, rfl, rfl⟩

theorem rel_putBits {s s' : State} (h : PackTwin s s') (bs : Bits) : (putBits bs s).Rel PackTwin Twin (putBits bs s') := by
  induction bs generalizing s s' with
  | nil => exact h
  | cons b bs ih => exact (rel_putBit h b).andThen fun _ _ => ih

theorem rel_flush {s s' : State} (h : PackTwin s s') : (flush s).Rel PackTwin Twin (flush s') :=
  .ite (by rw [h.nacc]) (fun _ => h) fun _ => rel_flushByte h

theorem rel_packRule {s s' : State} (h : TwinAt .compress .pack s s') :
    (packRule s).Rel (fun _ _ => False) Twin (packRule s') := by
  obtain ⟨ht, ho, hc⟩ := h
  unfold packRule
  dsimp only
  rw [State.setWork_inLen, State.setWork_inLen, ht.inLen]
  refine rel_memRead (ht.setWork _ _) (by simp) fun X => ?_
  rw [State.setWork_work, State.setWork_work, hc]
  refine ((rel_putBits ?_ _).andThen fun _ _ => rel_flush).andThen fun t t' htt => ?_
  · exact ⟨ht.setWork _ _, ho, rfl, rfl⟩
  · exact htt.twin.finish htt.optr

/-! ### DECOMPRESS -/

/-- What HDRR has read so far is the same in both. -/
structure HeaderTwin (s s' : State) : Prop where
  twin : Twin s s'
  k : s'.work.k = s.work.k
  freq : s'.work.freq = s.work.freq
  sum : s'.work.sum = s.work.sum
  iptr : s'.work.iptr = s.work.iptr

theorem rel_need {s s' : State} (h : Twin s s') (hi : s'.work.iptr = s.work.iptr) {m : Nat} (hm : 0 < m)
    {G : State → State → Prop} {k k' : Run} (hk : s.work.iptr.toNat + m ≤ s.inLen.toNat → k.Rel G Twin k') :
    (need m s k).Rel G Twin (need m s' k') :=
  .ite (by rw [hi, h.inLen]) (fun _ => h.raise _) fun _ => hk (by omega)

theorem rel_readRecord {s s' : State} (h : HeaderTwin s s') : (readRecord s).Rel HeaderTwin Twin (readRecord s') := by
  refine rel_need h.twin h.iptr (by decide) fun hin => ?_
  rw [h.iptr]
  refine rel_memReadByte h.twin (by omega) fun sym => rel_memRead h.twin (by omega) fun B => ?_
  have ht (v : Nat) : Twin (s.setIptr v) (s'.setIptr v) := h.twin.setWork _ _
  dsimp only
  refine .ite Iff.rfl (fun _ => (ht _).raise _) fun _ => .ite ?_ (fun _ => (ht _).raise _) fun _ => ?_
  · simp [h.freq]
  · exact ⟨(ht _).setWork _ _, h.k, by simp [h.freq], by simp [h.sum], rfl⟩

theorem rel_readRecords {n : Nat} {s s' : State} (h : HeaderTwin s s') :
    (readRecords n s).Rel HeaderTwin Twin (readRecords n s') := by
  induction n generalizing s s' with
  | zero => exact h
  | succ n ih => exact (rel_readRecord h).andThen fun _ _ => ih

theorem rel_readTotal {s s' : State} (h : HeaderTwin s s') :
    (readTotal s).Rel (TwinAt .decompress .tree) Twin (readTotal s') := by
  refine rel_need h.twin h.iptr (by decide) fun hin => ?_
  rw [h.iptr]
  refine rel_memRead h.twin hin fun B => ?_
  dsimp only
  have ht : Twin
      ((s.setWork { s.work with total := BitVec.ofNat 32 (ube B) }).setIptr (s.work.iptr.toNat + Config.cw))
      ((s'.setWork { s'.work with total := BitVec.ofNat 32 (ube B) }).setIptr (s.work.iptr.toNat + Config.cw)) :=
    (h.twin.setWork _ _).setWork _ _
  refine .ite (by simp [h.sum]) (fun _ => ht.raise _) fun _ => .ite (by simp [h.twin.cfg]) (fun _ => ht.raise _)
    fun _ => ?_
  exact ⟨ht.setPhase _, h.k, rfl, h.freq, fun _ => rfl⟩

theorem rel_hdrrRule {s s' : State} (h : Twin s s') : (hdrrRule s).Rel (TwinAt .decompress .tree) Twin (hdrrRule s') := by
  have ht (v : Nat) : Twin (s.setIptr v) (s'.setIptr v) := h.setWork _ _
  refine .ite (by rw [h.inLen]) (fun _ => h.finish rfl) fun _ => ?_
  refine rel_need (ht 0) rfl (by decide) fun hin => rel_memRead (ht 0) (by simpa using hin) fun B => ?_
  have ht' : Twin ((s.setIptr 0).setIptr Config.cw) ((s'.setIptr 0).setIptr Config.cw) := (ht 0).setWork _ _
  refine .ite Iff.rfl (fun _ => ht'.finish rfl) fun _ => .ite Iff.rfl (fun _ => ht'.raise _) fun _ => ?_
  refine (rel_readRecords ?_).andThen fun _ _ => rel_readTotal
  exact ⟨ht'.setWork _ _, rfl, rfl, rfl, rfl⟩

/-! ### TRAV -/

/-- The bit reader and the counts of symbols stand at the same place; RBYTE matters only while it has unread bits. -/
def ProgressTwin (w w' : Scratch) : Prop :=
  w'.total = w.total ∧ w'.emit = w.emit ∧ w'.optr = w.optr ∧ w'.iptr = w.iptr ∧ w'.nrem = w.nrem ∧
    (w.nrem ≠ 0 → w'.rbyte = w.rbyte)

/-- The traversal stands at the same node of one tree. CUR is a leaf only when the whole tree is. -/
def CursorTwin (w w' : Scratch) : Prop :=
  w'.root = w.root ∧ w'.cur = w.cur ∧ (w.node.get w.cur).isLeaf = (w.node.get w.root).isLeaf ∧
    ∃ n, ArenaTwin w.node w'.node n ∧ w.root.val < n ∧ w.cur.val < n

/-- What TRAV reads of the scratch state is the same in both. -/
structure WalkTwin (s s' : State) : Prop where
  twin : Twin s s'
  progress : ProgressTwin s.work s'.work
  cursor : CursorTwin s.work s'.work

/-- CUR at the root. -/
theorem TreeTwin.start {w w' : Scratch} (h : TreeTwin w w') :
    CursorTwin { w with cur := w.root } { w' with cur := w'.root } := by
  obtain ⟨hroot, n, hA, hr⟩ := h
  exact ⟨hroot, hroot, rfl, n, hA, hr, hr⟩

section

variable {s s' : State} {G : State → State → Prop} {k k' : Bool → State → Run}

theorem rel_shiftBit (h : WalkTwin s s') (hb : s'.work.rbyte = s.work.rbyte)
    (hk : ∀ b t t', WalkTwin t t' → (k b t).Rel G Twin (k' b t')) : (shiftBit s k).Rel G Twin (shiftBit s' k') := by
  obtain ⟨htot, hemit, hoptr, hi, hn, -⟩ := h.progress
  unfold shiftBit
  rw [hb, hn]
  exact hk _ _ _ ⟨h.twin.setWork _ _, ⟨htot, hemit, hoptr, hi, rfl, fun _ => rfl⟩, h.cursor⟩

theorem rel_getBit (h : WalkTwin s s') (hk : ∀ b t t', WalkTwin t t' → (k b t).Rel G Twin (k' b t')) :
    (getBit s k).Rel G Twin (getBit s' k') := by
  obtain ⟨htot, hemit, hoptr, hi, hn, hb⟩ := h.progress
  unfold getBit
  rw [hn, hi, h.twin.inLen]
  refine .ite Iff.rfl (fun _ => ?_) fun hne => rel_shiftBit h (hb hne) hk
  refine .ite Iff.rfl (fun _ => h.twin.raise _) fun hlt => rel_memReadByte h.twin (Nat.not_le.mp hlt) fun B => ?_
  refine rel_shiftBit ?_ rfl hk
  exact ⟨h.twin.setWork _ _, ⟨htot, hemit, hoptr, rfl, rfl, fun _ => rfl⟩, h.cursor⟩

end

/-- The scratch state after one more symbol. -/
def emitted (w : Scratch) : Scratch := { w with optr := BitVec.ofNat 64 (w.optr.toNat + 1), emit := w.emit + 1 }

theorem ProgressTwin.emitted {w w' : Scratch} (h : ProgressTwin w w') : ProgressTwin (emitted w) (emitted w') := by
  obtain ⟨htot, hemit, hoptr, hreader⟩ := h
  exact ⟨htot, by simp [Machine.emitted, hemit], by simp [Machine.emitted, hoptr], hreader⟩

theorem rel_emit {s s' : State} (h : Twin s s') (ho : s'.work.optr = s.work.optr) (sym : Byte) :
    (emit sym s).Rel (fun t t' => Twin t t' ∧ t.work = emitted s.work ∧ t'.work = emitted s'.work) Twin
      (emit sym s') := by
  unfold emit
  rw [ho]
  refine (rel_memWrite h _ _).andThen fun t t' htt => ?_
  obtain ⟨htt, hw, hw'⟩ := htt
  exact ⟨htt.setWork _ _, by rw [hw]; rfl, by rw [hw']; rfl⟩

/-- With a leaf at the root each bit emits its symbol; at an internal node a bit goes to a child, which is in the tree,
and from a leaf there back to the root. -/
theorem rel_walkBit {s s' : State} (h : WalkTwin s s') (b : Bool) : (walkBit b s).Rel WalkTwin Twin (walkBit b s') := by
  obtain ⟨ht, hp, hc⟩ := h
  obtain ⟨-, -, hoptr, -⟩ := id hp
  obtain ⟨hroot, hcur, hleaf, n, hA, hrn, hcn⟩ := id hc
  unfold walkBit
  rw [hroot, hcur, hA.same _ hrn, hA.same _ hcn]
  cases hgr : s.work.node.get s.work.root with
  | leaf =>
    refine (rel_emit ht hoptr _).imp fun t t' htt => ?_
    obtain ⟨htt, hw, hw'⟩ := htt
    exact ⟨htt, by rw [hw, hw']; exact hp.emitted, by rw [hw, hw']; exact hc⟩
  | internal =>
    cases hgc : s.work.node.get s.work.cur with
    | leaf => rw [hgr, hgc] at hleaf; cases hleaf
    | internal f l r v =>
      obtain ⟨hl, hr⟩ := hA.closed _ hcn _ _ _ _ hgc
      have hchild : (if b then r else l).val < n := by split <;> assumption
      simp only [Node.child, State.setWork_work, hA.same _ hchild]
      cases hg : s.work.node.get (if b then r else l) with
      | leaf =>
        refine (rel_emit ?_ ?_ _).andThen fun t t' htt => ?_
        · exact ht.setWork _ _
        · exact hoptr
        · obtain ⟨htt, hw, hw'⟩ := htt
          rw [hw, hw']
          exact ⟨htt.setWork _ _, hp.emitted, TreeTwin.start ⟨hroot, n, hA, hrn⟩⟩
      | internal =>
        refine ⟨ht.setWork _ _, hp, hroot, rfl, ?_, n, hA, hrn, hchild⟩
        rw [State.setWork_work, hg, hgr]; rfl

theorem rel_travLoop {fuel : Nat} {s s' : State} (h : WalkTwin s s') :
    (travLoop fuel s).Rel WalkTwin Twin (travLoop fuel s') := by
  induction fuel generalizing s s' with
  | zero => exact h
  | succ fuel ih =>
    obtain ⟨htot, hemit, -⟩ := h.progress
    refine .ite (by rw [hemit, htot]) (fun _ => rel_getBit h fun b t t' ht => ?_) fun _ => h
    exact (rel_walkBit ht b).andThen fun _ _ => ih

theorem rel_travRule {s s' : State} (h : TwinAt .decompress .trav s s') :
    (travRule s).Rel (fun _ _ => False) Twin (travRule s') := by
  obtain ⟨ht, htot, hip, htree⟩ := h
  unfold travRule
  dsimp only
  rw [State.setWork_inLen, State.setWork_inLen, State.setWork_work, State.setWork_work, ht.inLen, hip]
  refine (rel_travLoop ?_).andThen fun t t' htt => ?_
  · exact ⟨ht.setWork _ _, ⟨htot, rfl, rfl, rfl, rfl, fun hne => absurd rfl hne⟩, htree.start⟩
  · obtain ⟨-, -, hoptr, -⟩ := htt.progress
    exact htt.twin.finish hoptr

end Sys2Proof.Machine
end

section
/-! A command from two idle blocks with the same input: its acceptance and each of the engine's steps agree, so the
whole command does. -/

namespace Sys2Proof.Machine

/-- Two states agree on what the host sees and, while an operation runs, on what the phase to come reads. -/
structure Agree (s s' : State) : Prop where
  twin : Twin s s'
  work : s.status.busy = true → WorkTwin s.status.op s.status.phase s.work s'.work

/-- Both outcomes are next states, and those agree. -/
def OutcomesAgree (o o' : Host.Outcome State Fault Refusal) : Prop :=
  ∃ t t', o = .next t ∧ o' = .next t' ∧ Agree t t'

theorem Entered.agree {op : Op} {p : Phase} {s s' : State} (hs : Entered op p s) (h : TwinAt op p s s') : Agree s s' :=
  ⟨h.1, fun _ => by rw [hs.1.status]; exact h.2⟩

theorem Run.Rel.agree {op : Op} {p : Phase} {r r' : Run} (h : r.Rel (TwinAt op p) Twin r')
    (hs : r.Sat (Entered op p) Halted) : OutcomesAgree r.outcome r'.outcome := by
  cases r <;> cases r'
  case going.going t t' => exact ⟨t, t', rfl, rfl, Entered.agree hs h⟩
  case ended.ended t t' => exact ⟨t, t', rfl, rfl, h, fun hb => absurd (hb.symm.trans hs.2) (by decide)⟩
  case broken.broken => exact hs.elim
  all_goals exact h.elim

/-- The last phase of an operation. -/
theorem Run.Rel.agree_last {r r' : Run} (h : r.Rel (fun _ _ => False) Twin r')
    (hs : r.Sat (fun _ => False) Halted) : OutcomesAgree r.outcome r'.outcome :=
  Run.Rel.agree (op := .noOp) (p := .idle) (h.imp fun _ _ => False.elim) (hs.imp (fun _ => False.elim) fun _ => id)

/-- The engine's step agrees while BUSY = 1: both blocks run the rule of the same phase. -/
theorem engineStep_agree {op : Op} {p : Phase} {s s' : State} (hs : Entered op p s) (h : TwinAt op p s s') :
    OutcomesAgree (engineStep s) (engineStep s') := by
  have hst := hs.1.status
  have hst' : s'.status = _ := h.1.status.trans hst
  rw [engineStep_busy (by rw [hst]), engineStep_busy (by rw [hst']), hst, hst']
  rcases Status.runs_cases hs.1.runs with ⟨rfl, rfl | rfl | rfl | rfl | rfl⟩ | ⟨rfl, rfl | rfl | rfl⟩
  · exact (rel_freqRule h.1).agree (sat_freqRule hs.1)
  · exact ⟨_, _, rfl, rfl, (entered_treeRule hs).agree (twinAt_treeRule hs h)⟩
  · exact ⟨_, _, rfl, rfl, (entered_codeRule hs).agree (twinAt_codeRule h)⟩
  · exact (rel_hdrwRule h).agree (sat_hdrwRule hs)
  · exact (rel_packRule h).agree_last (sat_packRule hs)
  · exact (rel_hdrrRule h.1).agree (sat_hdrrRule hs.1)
  · exact ⟨_, _, rfl, rfl, (entered_treeRule hs).agree (twinAt_treeRule hs h)⟩
  · exact (rel_travRule h).agree_last (sat_travRule hs)

/-- However many steps two blocks take that agree, with no turn of the host's to come, they end in states that the host
cannot tell apart. -/
theorem steps_agree (n : Nat) {s s' : State} (hs : RunInv s) (hs' : RunInv s') (h : Agree s s') (ht : s.turns = [])
    (ht' : s'.turns = []) :
    ∃ t t', steps n s = .next t ∧ steps n s' = .next t' ∧ Twin t t' ∧ RunInv t := by
  induction n generalizing s s' with
  | zero => exact ⟨s, s', rfl, rfl, h.twin, hs⟩
  | succ n ih =>
    have hb' : s'.status.busy = s.status.busy := by rw [h.twin.status]
    cases hb : s.status.busy with
    | false => exact ⟨s, s', steps_idle hb ht _, steps_idle (hb'.trans hb) ht' _, h.twin, hs⟩
    | true =>
      obtain ⟨u, u', hu, hu', hagree⟩ := engineStep_agree (hs.entered hb) ⟨h.twin, h.work hb⟩
      obtain ⟨v, hv, hinv⟩ := hs.engineStep_completes hb
      obtain ⟨v', hv', hinv'⟩ := hs'.engineStep_completes (hb'.trans hb)
      obtain rfl : u = v := by rw [hu] at hv; cases hv; rfl
      obtain rfl : u' = v' := by rw [hu'] at hv'; cases hv'; rfl
      rw [steps_next ((step_nil ht).trans hu), steps_next ((step_nil ht').trans hu')]
      exact ih hinv hinv' hagree ((frame_engineStep hu).1.turns.trans ht) ((frame_engineStep hu').1.turns.trans ht')

/-! ### The command -/

/-- The host's write of w to CMD is `Accept(w)`. -/
theorem step_issue (w : Word) (s : State) : step (issue w s) = .next (State.accept w { s with turns := [] }) := by
  rw [step_host rfl]
  show writeReg 0x00 32 (w.setWidth 64) _ = _
  rw [writeReg_cmd, BitVec.setWidth_setWidth_of_le w (by decide), BitVec.setWidth_eq]
  rfl

/-- Two idle blocks of the same capacities with the same input. -/
structure SameInput (s s' : State) : Prop where
  idle : s.status.busy = false
  idle' : s'.status.busy = false
  cfg : s'.cfg = s.cfg
  inLen : s'.inLen = s.inLen
  input : s'.input = s.input

theorem SameInput.inByte {s s' : State} (h : SameInput s s') (a : Nat) (ha : a < s.inLen.toNat) :
    s'.inByte a = s.inByte a := by
  have hin := h.input
  rw [State.input, State.input, h.inLen, State.inBytes, State.inBytes] at hin
  simpa using List.map_inj_left.mp hin a (List.mem_range.mpr ha)

theorem agree_ite {c c' : Prop} [Decidable c] [Decidable c'] {s s' u u' : State} (hc : c' ↔ c) (h : Agree s s')
    (h' : Agree u u') : Agree (if c then s else u) (if c' then s' else u') := by
  by_cases hcc : c
  · rw [if_pos hcc, if_pos (hc.mpr hcc)]; exact h
  · rw [if_neg hcc, if_neg (mt hc.mp hcc)]; exact h'

/-- The start of an operation, from whatever STATUS, OUT and scratch state `Accept` finds (10_state.md R13). -/
theorem agree_begin {s s' : State} (h : SameInput s s') (op : Op) : Agree (s.fresh.begin op) (s'.fresh.begin op) := by
  have hst : ({ s'.fresh.status with op := op } : Status) = { s.fresh.status with op := op } := by
    simp [State.fresh, Status.cleared, h.idle, h.idle']
  have ht : Twin { s.fresh with status := { s.fresh.status with op := op } }
      { s'.fresh with status := { s'.fresh.status with op := op } } :=
    ⟨h.cfg, hst, h.inLen, rfl, rfl, h.inByte⟩
  have hcap : s'.inLen > s'.cfg.inCap ↔ s.inLen > s.cfg.inCap := by rw [h.inLen, h.cfg]
  have hmax : op = .compress ∧ s'.inLen.toNat > Config.maxn ↔ op = .compress ∧ s.inLen.toNat > Config.maxn := by
    rw [h.inLen]
  refine agree_ite hcap ⟨ht.raise .len, nofun⟩ (agree_ite hmax ⟨ht.raise .len, nofun⟩ ⟨?_, fun _ => ?_⟩)
  · exact ⟨h.cfg, congrArg (Status.started · _) hst, h.inLen, rfl, rfl, h.inByte⟩
  · cases op <;> trivial

theorem agree_accept {s s' : State} (h : SameInput s s') {w : Word} (hw : w = 1 ∨ w = 2) :
    Agree (s.accept w) (s'.accept w) := by
  rw [accept_idle h.idle, accept_idle h.idle']
  rcases hw with rfl | rfl
  · exact agree_begin h .compress
  · exact agree_begin h .decompress

/-- A command issued to two idle blocks with the same input ends in states that the host cannot tell apart. -/
theorem runCommand_agree {s s' : State} (h : SameInput s s') {w : Word} (hw : w = 1 ∨ w = 2) :
    ∃ t t', runCommand w s = .next t ∧ runCommand w s' = .next t' ∧ Twin t t' ∧ RunInv t := by
  have h0 : SameInput { s with turns := [] } { s' with turns := [] } := ⟨h.idle, h.idle', h.cfg, h.inLen, h.input⟩
  rw [runCommand, runCommand, steps_next (step_issue w s), steps_next (step_issue w s')]
  exact steps_agree 5 (runInv_accept h0.idle w) (runInv_accept h0.idle' w) (agree_accept h0 hw)
    (frame_accept w _).1.turns (frame_accept w _).1.turns

/-- Every byte of a result was written, so none of what the host reads of it is a free value. -/
theorem output_twin {t t' : State} (h : Twin t t') (ht : RunInv t) (hd : (t.status.done && !t.status.err) = true) :
    t'.output = t.output := by
  unfold State.output
  rw [h.outLen]
  refine List.map_congr_left fun a ha => ?_
  have ha := List.mem_range.mp ha
  have hv : t.outValid a = true := by simp only [State.outValid, hd, ha, decide_true, Bool.and_self]
  have hv' : t'.outValid a = true := by rw [State.outValid, h.status, h.outLen]; exact hv
  obtain ⟨b, hb⟩ := Option.isSome_iff_exists.mp (ht.outWritten a ha)
  rw [State.outByte, State.outByte, if_pos hv, if_pos hv', h.outMem, hb]
  rfl

/-- Settles O60: acceptance and every engine step agree, and a result is written in full. -/
theorem outcomeDependsOnTheInput : Obligations.OutcomeDependsOnTheInput := by
  intro s s' w hw hb hb' hcfg hlen hin
  obtain ⟨t, t', ht, ht', htwin, hinv⟩ := runCommand_agree ⟨hb, hb', hcfg, hlen, hin⟩ hw
  exact ⟨t, t', ht, ht', htwin.status, htwin.outLen, output_twin htwin hinv⟩

end Sys2Proof.Machine
end

section
/-! Payload bits: which bit of which byte each bit of a sequence is, and the sequence read back (20_memory.md R45,
30_encoding.md R68). -/

namespace Sys2Proof

/-- A number written bit by bit, the most significant first: of n bits, bit j has the weight 2^(n - 1 - j). -/
theorem testBit_foldl_bits (f : Nat → Bool) {n j : Nat} (hj : j < n) :
    ((List.range n).foldl (fun m i => 2 * m + (f i).toNat) 0).testBit (n - 1 - j) = f j := by
  induction n with
  | zero => exact absurd hj (Nat.not_lt_zero j)
  | succ n ih =>
    rw [List.range_succ, List.foldl_append, List.foldl_cons, List.foldl_nil, ← Nat.bit_val, Nat.add_sub_cancel]
    rcases Nat.lt_succ_iff_lt_or_eq.mp hj with hlt | rfl
    · rw [show n - j = (n - 1 - j) + 1 by omega, Nat.testBit_bit_succ, ih hlt]
    · rw [Nat.sub_self, Nat.testBit_bit_zero]

theorem packByte_getLsbD (bs : Bits) {j : Nat} (hj : j < 8) : (packByte bs).getLsbD (7 - j) = bs.getD j false := by
  have hbit := testBit_foldl_bits (fun i => bs.getD i false) hj
  rw [packByte, BitVec.getLsbD_ofNat, hbit, decide_eq_true (by omega), Bool.true_and]

/-- Bit t of the packed sequence is bit `7 − (t mod 8)` of byte `t div 8`; those beyond the last are zeros. -/
theorem packBits_getLsbD (bs : Bits) {t : Nat} (ht : t < 8 * (packBits bs).length) :
    ((packBits bs).getD (t / 8) 0).getLsbD (7 - t % 8) = bs.getD t false := by
  have hq : t / 8 < (packBits bs).length := Nat.div_lt_of_lt_mul ht
  have hbyte : (packBits bs).getD (t / 8) 0 = packByte (bs.drop (8 * (t / 8))) := by
    rw [List.getD_eq_getElem _ _ hq]; simp [packBits]
  have hdrop : (bs.drop (8 * (t / 8))).getD (t % 8) false = bs.getD t false := by
    simp [List.getD_eq_getElem?_getD, Nat.div_add_mod]
  rw [hbyte, packByte_getLsbD _ (Nat.mod_lt t (by decide)), hdrop]

/-- Payload bit t of a byte sequence is bit `7 − (t mod 8)` of byte `t div 8`. -/
theorem unpackBits_getD (B : List Byte) (t : Nat) :
    (unpackBits B).getD t false = (B.getD (t / 8) 0).getLsbD (7 - t % 8) := by
  induction B generalizing t with
  | nil => simp [unpackBits]
  | cons b B ih =>
    rw [unpackBits, List.flatMap_cons]
    rcases Nat.lt_or_ge t ((List.range 8).map fun j => b.getLsbD (7 - j)).length with hlt | hge
    · have ht : t < 8 := hlt
      rw [List.getD_append _ _ _ _ hlt, List.getD_eq_getElem _ _ hlt, List.getElem_map, List.getElem_range,
        Nat.div_eq_of_lt ht, Nat.mod_eq_of_lt ht, List.getD_cons_zero]
    · have ht : 8 ≤ t := hge
      have hrest := ih (t - 8)
      rw [← Nat.mod_eq_sub_mod ht] at hrest
      rw [List.getD_append_right _ _ _ _ hge, Nat.div_eq_sub_div (by decide) ht, List.getD_cons_succ]
      exact hrest

theorem getD_append_replicate_false (bs : Bits) (n t : Nat) :
    (bs ++ List.replicate n false).getD t false = bs.getD t false := by
  rcases Nat.lt_or_ge t bs.length with ht | ht
  · rw [List.getD_append _ _ _ _ ht]
  · rw [List.getD_append_right _ _ _ _ ht, List.getD_eq_default _ _ ht]
    rw [List.getD_eq_getElem?_getD, List.getElem?_getD_replicate_default_eq]

/-- Unpacking gives the sequence back with the zeros that fill its last byte. -/
theorem unpackBits_packBits (bs : Bits) :
    unpackBits (packBits bs) = bs ++ List.replicate (8 * (packBits bs).length - bs.length) false := by
  refine List.ext_getElem ?_ fun t ht ht' => ?_
  · rw [unpackBits_length, List.length_append, List.length_replicate, packBits_length]; omega
  · rw [← List.getD_eq_getElem _ false ht, ← List.getD_eq_getElem _ false ht', unpackBits_getD,
      packBits_getLsbD bs (unpackBits_length _ ▸ ht), getD_append_replicate_false]

/-- Settles O8: each packed byte from its bits, and the two sequences read back compared bit by bit. -/
theorem payloadBitsRoundTrip : Obligations.PayloadBitsRoundTrip := fun bs =>
  ⟨packBits_length bs, fun _ => packBits_getLsbD bs, 8 * (packBits bs).length - bs.length,
    by rw [packBits_length]; omega, unpackBits_packBits bs⟩

end Sys2Proof
end

section
/-! The host's accesses to IN and OUT (20_memory.md R42, R43). -/

namespace Sys2Proof.Machine

/-! ### IN -/

theorem writeIn_beyond {s : State} {a : Nat} (h : s.cfg.inCap.toNat ≤ a) (v : Byte) : writeIn a v s = .next s :=
  if_pos h

theorem writeIn_busy {s : State} {a : Nat} (h : a < s.cfg.inCap.toNat) (hb : s.status.busy = true) (v : Byte) :
    writeIn a v s = .refused .inWriteWhileBusy := by
  rw [writeIn, if_neg (Nat.not_le.mpr h), if_pos hb]

theorem writeIn_idle {s : State} {a : Nat} (h : a < s.cfg.inCap.toNat) (hb : s.status.busy = false) (v : Byte) :
    writeIn a v s = .next { s with inMem := s.inMem.put a v } := by
  rw [writeIn, if_neg (Nat.not_le.mpr h), hb, if_neg Bool.false_ne_true]

theorem inRead_beyond {s : State} {a : Nat} (h : s.cfg.inCap.toNat ≤ a) : s.inRead a = 0 := if_neg (Nat.not_lt.mpr h)

theorem inByte_putIn (s : State) (a : Nat) (v : Byte) (b : Nat) :
    ({ s with inMem := s.inMem.put a v } : State).inByte b = if b = a then v else s.inByte b := by
  rw [State.inByte, Memory.get_put]
  split
  · rfl
  · rfl

theorem inRead_putIn_same {s : State} {a : Nat} (h : a < s.cfg.inCap.toNat) (v : Byte) :
    ({ s with inMem := s.inMem.put a v } : State).inRead a = v := by
  rw [State.inRead, if_pos h, inByte_putIn, if_pos rfl]

/-- Settles O14: one lemma per case of a write, and what each byte of IN is after it. -/
theorem inBufferAccess : Obligations.InBufferAccess := by
  refine fun s a v => ⟨fun h => ⟨writeIn_beyond h v, inRead_beyond h⟩, fun h hb => writeIn_busy h hb v, fun h hb =>
    ⟨{ s with inMem := s.inMem.put a v }, writeIn_idle h hb v, rfl, inRead_putIn_same h v, fun b hne => ?_⟩⟩
  rw [inByte_putIn, if_neg hne]

/-! ### OUT -/

theorem outValid_iff (s : State) (a : Nat) :
    s.outValid a = true ↔ s.status.done = true ∧ s.status.err = false ∧ a < s.outLen.toNat := by
  simp [State.outValid, and_assoc]

theorem readOut_valid {s : State} {a : Nat} {b : Byte} (h : s.outValid a = true) (hb : s.outMem.get a = some b) :
    readOut a s = s.hear (b.setWidth 64) := by
  rw [readOut, State.outByte, if_pos h, if_pos h, hb]
  rfl

theorem readOut_free {s : State} {a : Nat} (h : ¬s.outValid a = true) :
    readOut a s = { s.hear ((Config.freeByte s.draws).setWidth 64) with draws := s.draws + 1 } := by
  rw [readOut, State.outByte, if_neg h, if_neg h]

/-- Settles O15: a write of OUT is ignored by its arm of `hostStep`, and a read is the valid or the free one. -/
theorem outBufferAccess : Obligations.OutBufferAccess := fun s a _ =>
  ⟨rfl, fun h _ hb => congrArg Host.Outcome.next (readOut_valid ((outValid_iff s a).mpr h) hb),
    fun h => congrArg Host.Outcome.next (readOut_free (mt (outValid_iff s a).mp h))⟩

end Sys2Proof.Machine
end

section
/-! The header codec: the encoding of a header and of its records, taken apart and put together (30_encoding.md R65 to
R67, 43_header_codec.md R102, R103). -/

namespace Sys2Proof

/-! ### Integer fields and records at the front of a byte sequence -/

theorem ube_be_of_lt {v : Nat} (h : v < 2 ^ 32) : ube (be v) = v := by
  rw [ube_be_mod, Nat.mod_eq_of_lt h]

/-- Any four bytes are the field of a 32-bit value. -/
theorem four_bytes_eq_be (b0 b1 b2 b3 : Byte) :
    [b0, b1, b2, b3] = be (BitVec.ofNat 32 (ube [b0, b1, b2, b3])).toNat := by
  rw [BitVec.toNat_ofNat, Nat.mod_eq_of_lt (ube_four_lt ..), be_ube_four]

/-- A byte sequence of at least CW bytes starts with the field of some 32-bit value. -/
theorem exists_be_append {C : List Byte} (h : Config.cw ≤ C.length) :
    ∃ (v : Word) (D : List Byte), C = be v.toNat ++ D := by
  match C, h with
  | b0 :: b1 :: b2 :: b3 :: D, _ => exact ⟨_, D, congrArg (· ++ D) (four_bytes_eq_be b0 b1 b2 b3)⟩

/-- A byte sequence of at least 1 + CW bytes starts with a record. -/
theorem exists_encodeRecord_append {C : List Byte} (h : 1 + Config.cw ≤ C.length) :
    ∃ (r : Record) (D : List Byte), C = encodeRecord r ++ D := by
  match C, h with
  | s :: C, h =>
    obtain ⟨v, D, rfl⟩ := exists_be_append (C := C) (Nat.le_of_succ_le_succ h)
    exact ⟨⟨s, v⟩, D, rfl⟩

/-! ### Records -/

/-- What R66 asks of the records that follow records of the symbols `seen`. -/
structure RecordsOk (seen : List Byte) (rs : List Record) : Prop where
  positive : ∀ r ∈ rs, r.count ≠ 0
  distinct : (rs.map Record.sym).Nodup
  unseen : ∀ r ∈ rs, r.sym ∉ seen

theorem recordsOk_nil (seen : List Byte) : RecordsOk seen [] := ⟨nofun, List.nodup_nil, nofun⟩

theorem recordsOk_cons {seen : List Byte} {r : Record} {rs : List Record} :
    RecordsOk seen (r :: rs) ↔ r.count ≠ 0 ∧ r.sym ∉ seen ∧ RecordsOk (r.sym :: seen) rs := by
  constructor
  · rintro ⟨hpos, hdist, hun⟩
    obtain ⟨hc, hpos⟩ := List.forall_mem_cons.mp hpos
    obtain ⟨hs, hun⟩ := List.forall_mem_cons.mp hun
    obtain ⟨hr, hdist⟩ := List.nodup_cons.mp hdist
    refine ⟨hc, hs, hpos, hdist, fun q hq => List.not_mem_cons_of_ne_of_not_mem (fun h => hr ?_) (hun q hq)⟩
    exact h ▸ List.mem_map_of_mem hq
  · rintro ⟨hc, hs, hpos, hdist, hun⟩
    have hr : r.sym ∉ rs.map Record.sym := fun h => by
      obtain ⟨q, hq, he⟩ := List.mem_map.mp h
      exact hun q hq (he ▸ List.mem_cons_self)
    exact ⟨List.forall_mem_cons.mpr ⟨hc, hpos⟩, List.nodup_cons.mpr ⟨hr, hdist⟩,
      List.forall_mem_cons.mpr ⟨hs, fun q hq => List.not_mem_of_not_mem_cons (hun q hq)⟩⟩

/-- With too few bytes for a record the decoder reports E_HDR_TRUNC. -/
theorem decodeRecords_short {C : List Byte} (h : C.length < 1 + Config.cw) (n : Nat) (seen : List Byte) :
    decodeRecords (n + 1) C seen = .error .hdrTrunc := by
  match C, h with
  | [], _ | [_], _ | [_, _], _ | [_, _, _], _ | [_, _, _, _], _ => rfl

/-- One turn of the record loop (43_header_codec.md R102) on the encoding of a record. -/
theorem decodeRecords_encodeRecord (n : Nat) (r : Record) (C seen : List Byte) :
    decodeRecords (n + 1) (encodeRecord r ++ C) seen =
      if r.count = 0 ∨ r.sym ∈ seen then .error .hdrBad
      else (decodeRecords n C (r.sym :: seen)).map fun p => (r :: p.1, p.2) := by
  have hz : r.count.toNat = 0 ↔ r.count = 0 := BitVec.toNat_inj (y := 0)
  have hu : ube [_, _, _, _] = r.count.toNat := ube_be_of_lt r.count.isLt
  simp only [encodeRecord, be, List.cons_append, List.nil_append, decodeRecords, hu, hz]
  by_cases hc : r.count = 0
  · simp [hc]
  · by_cases hs : r.sym ∈ seen
    · simp [hs]
    · simp only [hc, hs, or_self, if_false, BitVec.ofNat_toNat, BitVec.setWidth_eq]
      cases decodeRecords n C (r.sym :: seen) <;> rfl

/-- The encoding of legal records is read back. -/
theorem decodeRecords_flatMap_encodeRecord {seen : List Byte} {rs : List Record} (h : RecordsOk seen rs)
    (rest : List Byte) : decodeRecords rs.length (rs.flatMap encodeRecord ++ rest) seen = .ok (rs, rest) := by
  induction rs generalizing seen with
  | nil => rfl
  | cons r rs ih =>
    obtain ⟨hc, hs, htail⟩ := recordsOk_cons.mp h
    rw [List.flatMap_cons, List.append_assoc, List.length_cons, decodeRecords_encodeRecord,
      if_neg (not_or.mpr ⟨hc, hs⟩), ih htail]
    rfl

/-- What the record loop accepts is the encoding of `n` legal records. -/
theorem decodeRecords_ok {n : Nat} {C seen : List Byte} {rs : List Record} {rest : List Byte}
    (h : decodeRecords n C seen = .ok (rs, rest)) :
    rs.length = n ∧ RecordsOk seen rs ∧ C = rs.flatMap encodeRecord ++ rest := by
  induction n generalizing C seen rs with
  | zero =>
    cases h
    exact ⟨rfl, recordsOk_nil seen, rfl⟩
  | succ n ih =>
    rcases Nat.lt_or_ge C.length (1 + Config.cw) with hlen | hlen
    · rw [decodeRecords_short hlen] at h
      cases h
    · obtain ⟨r, D, rfl⟩ := exists_encodeRecord_append hlen
      rw [decodeRecords_encodeRecord] at h
      split at h
      · cases h
      · next hr =>
        obtain ⟨hc, hs⟩ := not_or.mp hr
        cases hd : decodeRecords n D (r.sym :: seen) with
        | error e => rw [hd] at h; cases h
        | ok p =>
          rw [hd] at h
          cases h
          obtain ⟨hlen, hok, hD⟩ := ih hd
          exact ⟨congrArg (· + 1) hlen, recordsOk_cons.mpr ⟨hc, hs, hok⟩, by
            rw [List.flatMap_cons, List.append_assoc, ← hD]⟩

/-! ### Headers -/

/-- A well-formed header, its conditions as propositions (30_encoding.md R66, R70). -/
theorem wellFormed_iff (h : Header) :
    h.wellFormed = true ↔
      h.records ≠ [] ∧ h.records.length ≤ Config.maxk ∧ RecordsOk [] h.records ∧ h.sum = h.total.toNat := by
  have hok : RecordsOk [] h.records ↔ (∀ r ∈ h.records, r.count ≠ 0) ∧ (h.records.map Record.sym).Nodup :=
    ⟨fun ⟨hpos, hdist, _⟩ => ⟨hpos, hdist⟩,
      fun ⟨hpos, hdist⟩ => ⟨hpos, hdist, fun _ _ => List.not_mem_nil⟩⟩
  simp [hok, Header.wellFormed, Header.nonEmpty, Header.fits, Header.countsPositive, Header.symbolsDistinct,
    Header.sumMatches, Nat.one_le_iff_ne_zero, and_assoc]

/-! The header decoder has one equation per outcome (43_header_codec.md R102). -/

theorem decodeHeader_short {C : List Byte} (h : C.length < Config.cw) : decodeHeader C = .error .hdrTrunc := by
  match C, h with
  | [], _ | [_], _ | [_, _], _ | [_, _, _], _ => rfl

/-- A first field of 0: nothing after it is read (R105). -/
theorem decodeHeader_zero (D : List Byte) : decodeHeader (be 0 ++ D) = .ok (⟨[], 0⟩, D) := by
  have hu : ube [_, _, _, _] = 0 := ube_be_of_lt (v := 0) (by decide)
  simp only [be, List.cons_append, List.nil_append, decodeHeader, hu, if_true]

section

variable {n : Nat} {D : List Byte}

theorem decodeHeader_too_many (hn : Config.maxk < n) (h32 : n < 2 ^ 32) :
    decodeHeader (be n ++ D) = .error .hdrBad := by
  have hu : ube [_, _, _, _] = n := ube_be_of_lt h32
  have h0 : n ≠ 0 := Nat.ne_zero_of_lt hn
  simp only [be, List.cons_append, List.nil_append, decodeHeader, hu, h0, hn, if_false, if_true]

variable (h0 : n ≠ 0) (hn : n ≤ Config.maxk)
include h0 hn

theorem decodeHeader_records_error {e : ErrCode} (hrec : decodeRecords n D [] = .error e) :
    decodeHeader (be n ++ D) = .error e := by
  have hu : ube [_, _, _, _] = n := ube_be_of_lt (Nat.lt_of_le_of_lt hn (by decide))
  simp only [be, List.cons_append, List.nil_append, decodeHeader, hu, h0, Nat.not_lt.mpr hn, if_false, hrec]

theorem decodeHeader_total_short {rs : List Record} {R : List Byte} (hrec : decodeRecords n D [] = .ok (rs, R))
    (hR : R.length < Config.cw) : decodeHeader (be n ++ D) = .error .hdrTrunc := by
  have hu : ube [_, _, _, _] = n := ube_be_of_lt (Nat.lt_of_le_of_lt hn (by decide))
  simp only [be, List.cons_append, List.nil_append, decodeHeader, hu, h0, Nat.not_lt.mpr hn, if_false, hrec]
  match R, hR with
  | [], _ | [_], _ | [_, _], _ | [_, _, _], _ => rfl

theorem decodeHeader_total {h : Header} {payload : List Byte}
    (hrec : decodeRecords n D [] = .ok (h.records, be h.total.toNat ++ payload)) :
    decodeHeader (be n ++ D) = if h.sum = h.total.toNat then .ok (h, payload) else .error .hdrBad := by
  have hu : ube [_, _, _, _] = n := ube_be_of_lt (Nat.lt_of_le_of_lt hn (by decide))
  have ht : ube [_, _, _, _] = h.total.toNat := ube_be_of_lt h.total.isLt
  simp only [be, List.cons_append, List.nil_append] at hrec
  simp only [be, List.cons_append, List.nil_append, decodeHeader, hu, h0, Nat.not_lt.mpr hn, if_false, hrec,
    ht, ne_eq, ite_not]
  rw [BitVec.ofNat_toNat, BitVec.setWidth_eq]
  rfl

end

/-- The encoding of a well-formed header is read back. -/
theorem decodeHeader_encodeHeader {h : Header} (hwf : h.wellFormed = true) (payload : List Byte) :
    decodeHeader (encodeHeader h ++ payload) = .ok (h, payload) := by
  obtain ⟨hne, hk, hok, hsum⟩ := (wellFormed_iff h).mp hwf
  have hrec := decodeRecords_flatMap_encodeRecord hok (be h.total.toNat ++ payload)
  have h0 := mt List.length_eq_zero_iff.mp hne
  rw [encodeHeader, List.append_assoc, List.append_assoc, decodeHeader_total h0 hk hrec, if_pos hsum]

/-- What the decoder accepts, with records, is the encoding of a well-formed header. -/
theorem decodeHeader_ok {C : List Byte} {h : Header} {payload : List Byte} (hdec : decodeHeader C = .ok (h, payload))
    (hne : h.records ≠ []) : h.wellFormed = true ∧ C = encodeHeader h ++ payload := by
  rcases Nat.lt_or_ge C.length Config.cw with hlen | hlen
  · rw [decodeHeader_short hlen] at hdec
    cases hdec
  obtain ⟨k, D, rfl⟩ := exists_be_append hlen
  by_cases h0 : k.toNat = 0
  · rw [h0, decodeHeader_zero] at hdec
    cases hdec
    exact absurd rfl hne
  rcases Nat.lt_or_ge Config.maxk k.toNat with hk | hk
  · rw [decodeHeader_too_many hk k.isLt] at hdec
    cases hdec
  cases hrec : decodeRecords k.toNat D [] with
  | error e =>
    rw [decodeHeader_records_error h0 hk hrec] at hdec
    cases hdec
  | ok p =>
    obtain ⟨rs, R⟩ := p
    obtain ⟨hrs, hok, rfl⟩ := decodeRecords_ok hrec
    rcases Nat.lt_or_ge R.length Config.cw with hR | hR
    · rw [decodeHeader_total_short h0 hk hrec hR] at hdec
      cases hdec
    obtain ⟨t, P, rfl⟩ := exists_be_append hR
    rw [decodeHeader_total (h := ⟨rs, t⟩) h0 hk hrec] at hdec
    split at hdec
    · next hsum =>
      cases hdec
      exact ⟨(wellFormed_iff _).mpr ⟨hne, hrs ▸ hk, hok, hsum⟩, by simp [encodeHeader, hrs]⟩
    · cases hdec

/-- Settles O5: the record loop reads back the records, and the total is their sum. -/
theorem decodeHeaderOfEncodeHeader : Obligations.DecodeHeaderOfEncodeHeader := fun _ payload hwf =>
  decodeHeader_encodeHeader hwf payload

/-- Settles O6: of the decoder's outcomes only one is a header with records. -/
theorem encodeHeaderOfDecodeHeader : Obligations.EncodeHeaderOfDecodeHeader := fun _ _ _ hdec hne =>
  decodeHeader_ok hdec hne

end Sys2Proof
end

section
/-! The command words and the STATUS word (30_encoding.md R62 to R64, R73), and what an illegal command and `WAIT` do
(30_encoding.md R63, R72, 60_exceptions.md R152). -/

namespace Sys2Proof

theorem decode_illegal_command {w : Word} (h1 : w ≠ 1) (h2 : w ≠ 2) : decode (.cmd w) = .error .illegalCommand :=
  (if_neg h1).trans (if_neg h2)

theorem decode_reserved_phase : ∀ p : BitVec 4, 8 ≤ p.toNat → decode (.phase p) = .error .reservedPhase := by decide

/-- Settles O1: one arm of `decode` per word of the table, and the reserved codes. -/
theorem tableWordsDecode : Obligations.TableWordsDecode :=
  ⟨rfl, rfl, rfl, rfl, rfl, rfl, rfl, rfl, rfl, rfl, decode_reserved_phase⟩

end Sys2Proof

namespace Sys2Proof.Machine

/-- `Accept` of an illegal word by an idle block is E_CMD, with OP 0 and PHASE 0 (10_state.md R13, 60_exceptions.md
R152). -/
theorem accept_illegal {w : Word} (h1 : w ≠ 1) (h2 : w ≠ 2) {s : State} (hb : s.status.busy = false) :
    s.accept w = State.raise .cmd { s.fresh with status := { s.fresh.status with op := .noOp } } := by
  rw [accept_idle hb, if_neg h1, if_neg h2]

/-- Settles O2: the host's write is `Accept`, which answers E_CMD and keeps the host's side. -/
theorem illegalCommandReportsECmd : Obligations.IllegalCommandReportsECmd := by
  intro w h1 h2
  refine ⟨decode_illegal_command h1 h2, fun s hb => ⟨_, step_issue w s, ?_⟩⟩
  have hframe := (frame_accept w { s with turns := [] }).1
  rw [accept_illegal (s := { s with turns := [] }) h1 h2 hb] at hframe ⊢
  exact ⟨⟨rfl, rfl, hframe⟩, (rfl : (Status.failure .noOp .cmd .idle).word = 0x00000016), Memory.get_nil⟩

/-- STATUS as its fields side by side, each part's width written out (30_encoding.md R64). -/
theorem extractLsb'_word (t : Status) (start len : Nat) :
    t.word.extractLsb' start len =
      BitVec.extractLsb' (n := 14 + 2 + 4 + 4 + 4 + 1 + 1 + 1 + 1) start len
        (0#14 ++ t.op.bits ++ 0#4 ++ t.phase.bits ++ t.errcode.bits ++ 0#1 ++ BitVec.ofBool t.err ++
          BitVec.ofBool t.done ++ BitVec.ofBool t.busy) := rfl

/-- Settles O3: what stands above or below a field's place is dropped part by part, and the field is left. -/
theorem statusWordFields : Obligations.StatusWordFields := by
  intro t
  refine ⟨?_, ?_, ?_, ?_, ?_, ?_, ?_, ?_, ?_, by decide, by decide, by decide, by decide, by decide, by decide⟩
  all_goals
    simp (disch := decide) only [extractLsb'_word, BitVec.extractLsb'_append_eq_of_le,
      BitVec.extractLsb'_append_eq_of_add_le, Nat.reduceSub, BitVec.extractLsb'_eq_self, BitVec.ofNat_eq_ofNat]

/-- Settles O21: `WAIT` on an idle block records STATUS; on a busy one the engine steps with the `WAIT` still to come. -/
theorem waitPollsUntilIdle : Obligations.WaitPollsUntilIdle := by
  intro s ts ht
  rw [step_host ht]
  constructor
  · intro hb
    exact if_neg (by simp [hb])
  · intro hb
    have hstay : State.expand { s with turns := ts } [.wait] = s := by
      cases s
      cases ht
      rfl
    exact (if_pos hb).trans (congrArg engineStep hstay)

end Sys2Proof.Machine
end

section
/-! Phase FREQ counts the input (40_frequency_analyzer.md R80 to R82): the table it leaves, and the counts of an input
that fits the width of an entry. -/

namespace Sys2Proof.Machine

section

variable {X : List Byte} (hX : X.length ≤ Config.maxn)
include hX

/-- No count of an input of at most MAXN bytes is cut to the width of an entry. -/
theorem toNat_freqAt_countBytes (b : Byte) : (freqAt (countBytes X) b).toNat = X.count b := by
  have hlt : X.count b < 2 ^ 32 := (List.count_le_length.trans hX).trans_lt (by decide)
  rw [freqAt_countBytes, BitVec.toNat_ofNat, Nat.mod_eq_of_lt hlt]

theorem one_le_freqAt_countBytes (b : Byte) : 1 ≤ (freqAt (countBytes X) b).toNat ↔ b ∈ X := by
  rw [toNat_freqAt_countBytes hX]
  exact List.count_pos_iff

theorem freqAt_countBytes_ne_zero {b : Byte} (hb : b ∈ X) : freqAt (countBytes X) b ≠ 0 := fun h0 => by
  have hpos := (one_le_freqAt_countBytes hX b).mpr hb
  rw [h0] at hpos
  exact absurd hpos (by decide)

/-- The symbols present are the distinct bytes of the input. -/
theorem present_countBytes_perm : ((present (countBytes X)).map Prod.fst).Perm X.dedup := by
  refine (List.perm_ext_iff_of_nodup (present_nodup _) X.nodup_dedup).mpr fun b => ?_
  have hb : freqAt (countBytes X) b ≠ 0 ↔ b ∈ X := by
    refine ⟨fun h => ?_, freqAt_countBytes_ne_zero hX⟩
    rw [← one_le_freqAt_countBytes hX, Nat.one_le_iff_ne_zero]
    exact fun h0 => h (BitVec.eq_of_toNat_eq h0)
  simp [mem_present, ← hb]

theorem present_countBytes_length : (present (countBytes X)).length = X.dedup.length := by
  simpa using (present_countBytes_perm hX).length_eq

theorem present_countBytes_length_eq_zero : (present (countBytes X)).length = 0 ↔ X = [] := by
  rw [present_countBytes_length hX, List.length_eq_zero_iff, List.dedup_eq_nil]

end

/-- The scratch state once FREQ has counted (R80). -/
def State.counted (s : State) : Scratch :=
  { s.work with
    freq := countBytes s.input
    k := BitVec.ofNat 9 (present (countBytes s.input)).length
    total := s.inLen.setWidth 32 }

theorem State.input_eq_nil_iff (s : State) : s.input = [] ↔ s.inLen = 0 := by
  rw [← List.length_eq_zero_iff, State.input_length]
  exact BitVec.toNat_inj (y := 0)

section

variable {s : State} (hin : s.inLen.toNat ≤ s.cfg.inCap.toNat) (hmax : s.inLen.toNat ≤ Config.maxn)
include hin hmax

/-- Everything FREQ can do with an input that `Accept` has let in. -/
theorem freqRule_eq : freqRule s =
    if s.inLen = 0 then .ended ((s.setWork s.counted).finish 0) else .going ((s.setWork s.counted).setPhase .tree) := by
  have hzero : (present (countBytes s.input)).length = 0 ↔ s.inLen = 0 :=
    (present_countBytes_length_eq_zero (by simpa using hmax)).trans s.input_eq_nil_iff
  have hread : s.inBytes 0 s.inLen.toNat = s.input := rfl
  rw [freqRule, memRead_ok (by simpa using hin), hread]
  simp only [hzero]
  rfl

theorem exec_freq_empty (h0 : s.inLen = 0) : exec .freq s = .next ((s.setWork s.counted).finish 0) := by
  rw [exec_freq, freqRule_eq hin hmax, if_pos h0, Run.outcome_ended]

theorem exec_freq_nonempty (h0 : s.inLen ≠ 0) : exec .freq s = .next ((s.setWork s.counted).setPhase .tree) := by
  rw [exec_freq, freqRule_eq hin hmax, if_neg h0, Run.outcome_going]

end

theorem State.counted_k_toNat (s : State) : s.counted.k.toNat = (present (countBytes s.input)).length := by
  have := present_length_le (countBytes s.input)
  rw [State.counted, BitVec.toNat_ofNat]
  omega

theorem State.counted_total_toNat {s : State} (hmax : s.inLen.toNat ≤ Config.maxn) :
    s.counted.total.toNat = s.inLen.toNat := by
  rw [State.counted, BitVec.toNat_setWidth, Nat.mod_eq_of_lt (hmax.trans_lt (by decide))]

/-- Settles O23: FREQ's two courses, with the counts of the input. -/
theorem freqCountsTheInput : Obligations.FreqCountsTheInput := by
  intro s hin hmax
  have hX : s.input.length ≤ Config.maxn := by simpa using hmax
  refine ⟨fun h0 => ?_, fun h0 => ?_⟩
  · exact ⟨s.counted.freq, s.counted.k, s.counted.total, exec_freq_nonempty hin hmax h0,
      toNat_freqAt_countBytes hX, s.counted_k_toNat.trans (present_countBytes_length hX), State.counted_total_toNat hmax⟩
  · have hexec := exec_freq_empty hin hmax h0
    exact ⟨_, hexec, ⟨rfl, rfl, (frame_exec hexec).1⟩, fun a => by simp [Memory.get_below]⟩

/-- Settles O24: on an empty input PHASE is not TREE, and on any other the table holds the input's counts. -/
theorem freqTableInvariants : Obligations.FreqTableInvariants := by
  intro s t hin hmax hexec htree
  have hX : s.input.length ≤ Config.maxn := by simpa using hmax
  by_cases h0 : s.inLen = 0
  · rw [exec_freq_empty hin hmax h0] at hexec
    cases hexec
    cases htree
  · rw [exec_freq_nonempty hin hmax h0] at hexec
    cases hexec
    have hne := mt (present_countBytes_length_eq_zero hX).mp (mt s.input_eq_nil_iff.mp h0)
    have htotal := State.counted_total_toNat hmax
    refine ⟨freqOk_countBytes (hX.trans_lt (by decide)) hne rfl rfl ?_, htotal, ?_, one_le_freqAt_countBytes hX⟩
    · rw [State.input_length, BitVec.ofNat_toNat]
      rfl
    · calc s.counted.k.toNat
        _ = s.input.dedup.length := s.counted_k_toNat.trans (present_countBytes_length hX)
        _ ≤ s.input.length := s.input.dedup_sublist.length_le
        _ = s.counted.total.toNat := by rw [htotal, State.input_length]

end Sys2Proof.Machine
end

section
/-! What the merge loop keeps from turn to turn (41_tree_builder.md R86 to R89): below NNODE the arena is a forest over the
leaves whose roots are the live nodes, and each node weighs what its leaves do. -/

namespace Sys2Proof.Machine

/-! ### One turn -/

/-- The arena after a turn that removes `a` and then `b` (R87, R89). -/
def merged (A : Arena) (n : Nat) (a b : NodeIx) : Arena :=
  ((A.set a (A.get a).kill).set b (A.get b).kill).setIfInBounds n
    (.internal ((A.get a).freq + (A.get b).freq) a b true)

theorem merged_get (A : Arena) (n : Nat) (a b j : NodeIx) :
    (merged A n a b).get j =
      if n = j.val then .internal ((A.get a).freq + (A.get b).freq) a b true
      else if j = a ∨ j = b then (A.get j).kill else A.get j := by
  rw [merged, arena_get_setIfInBounds, arena_get_set, arena_get_set]
  by_cases hb : b = j
  · simp [hb]
  · by_cases ha : a = j
    · simp [ha, hb]
    · simp [ha, hb, Ne.symm ha, Ne.symm hb]

/-- While two nodes are live a turn of the loop merges two of them. -/
theorem mergeLoop_succ {A : Arena} {n : Nat} (h : 2 ≤ (liveSet A n).length) (fuel : Nat) :
    ∃ a b, a ∈ liveSet A n ∧ b ∈ liveSet A n ∧ a ≠ b ∧
      mergeLoop (fuel + 1) A n = mergeLoop fuel (merged A n a b) (n + 1) := by
  rw [mergeLoop, if_neg (by omega)]
  cases ha : removeMin A n with
  | none => simp [removeMin_none ha] at h
  | some p =>
    obtain ⟨a, A₁⟩ := p
    obtain ⟨haL, -, rfl⟩ := removeMin_some ha
    have hlen := liveSet_kill_length haL
    cases hb : removeMin (A.set a (A.get a).kill) n with
    | none => simp [removeMin_none hb] at hlen; omega
    | some q =>
      obtain ⟨b, A₂⟩ := q
      obtain ⟨hbL, -, rfl⟩ := removeMin_some hb
      rw [mem_liveSet, arena_get_set] at hbL
      have hne : a ≠ b := by
        rintro rfl
        simp at hbL
      rw [if_neg hne] at hbL
      refine ⟨a, b, haL, (mem_liveSet A n b).mpr hbL, hne, ?_⟩
      simp only [hb, merged, arena_get_set, if_neg hne, if_neg hne.symm, if_true, Node.freq_kill]

theorem liveSet_kill_perm {A : Arena} {n : Nat} {a : NodeIx} (ha : a ∈ liveSet A n) :
    (a :: liveSet (A.set a (A.get a).kill) n).Perm (liveSet A n) := by
  have hnot : a ∉ liveSet (A.set a (A.get a).kill) n := by simp [mem_liveSet, arena_get_set]
  refine (List.perm_ext_iff_of_nodup (List.nodup_cons.mpr ⟨hnot, liveSet_nodup _ n⟩) (liveSet_nodup A n)).mpr fun j => ?_
  rw [List.mem_cons, mem_liveSet, arena_get_set]
  by_cases hj : a = j
  · simp [← hj, ha]
  · simp [hj, Ne.symm hj, mem_liveSet]

/-- The nodes merged leave L, and the new one joins it. -/
theorem liveSet_merged {A : Arena} {n : Nat} {a b : NodeIx} (ha : a ∈ liveSet A n) (hb : b ∈ liveSet A n) (hab : a ≠ b)
    (hn : n < 511) :
    ∃ L, (a :: b :: L).Perm (liveSet A n) ∧ liveSet (merged A n a b) (n + 1) = L ++ [⟨n, hn⟩] := by
  have hkeep : (A.set a (A.get a).kill).get b = A.get b := by rw [arena_get_set, if_neg hab]
  have hb' : b ∈ liveSet (A.set a (A.get a).kill) n := by
    rw [mem_liveSet] at hb ⊢
    rwa [hkeep]
  have hperm := liveSet_kill_perm hb'
  rw [hkeep] at hperm
  exact ⟨_, (hperm.cons a).trans (liveSet_kill_perm ha), liveSet_join _ hn _ a b⟩

section

variable {A : Arena} {n : Nat} {a b i : NodeIx} (hi : i.val < n)
include hi

/-- Below the new node only `live` bits change. -/
theorem merged_get_internal {f : Word} {l r : NodeIx} :
    (∃ v, (merged A n a b).get i = .internal f l r v) ↔ ∃ v, A.get i = .internal f l r v := by
  rw [merged_get, if_neg (Nat.ne_of_gt hi)]
  split
  · cases A.get i <;> simp [Node.kill]
  · rfl

theorem merged_get_leaf {f : Word} {sym : Byte} :
    (∃ v, (merged A n a b).get i = .leaf f sym v) ↔ ∃ v, A.get i = .leaf f sym v := by
  rw [merged_get, if_neg (Nat.ne_of_gt hi)]
  split
  · cases A.get i <;> simp [Node.kill]
  · rfl

theorem merged_get_freq : ((merged A n a b).get i).freq = (A.get i).freq := by
  rw [merged_get, if_neg (Nat.ne_of_gt hi)]
  split <;> simp

theorem merged_get_live : ((merged A n a b).get i).live = true ↔ (A.get i).live = true ∧ i ≠ a ∧ i ≠ b := by
  rw [merged_get, if_neg (Nat.ne_of_gt hi)]
  split
  · next h => rcases h with h | h <;> simp [h]
  · next h => simp [not_or.mp h]

theorem isChild_merged {c : NodeIx} : IsChild (merged A n a b) c i ↔ IsChild A c i := by
  have hiff (f l r) := merged_get_internal (A := A) (a := a) (b := b) hi (f := f) (l := l) (r := r)
  constructor
  · rintro ⟨f, l, r, v, hg, hc⟩
    obtain ⟨v', hg'⟩ := (hiff f l r).mp ⟨v, hg⟩
    exact ⟨f, l, r, v', hg', hc⟩
  · rintro ⟨f, l, r, v, hg, hc⟩
    obtain ⟨v', hg'⟩ := (hiff f l r).mpr ⟨v, hg⟩
    exact ⟨f, l, r, v', hg', hc⟩

end

theorem merged_get_new (A : Arena) {n : Nat} (a b : NodeIx) {i : NodeIx} (hi : i.val = n) :
    (merged A n a b).get i = .internal ((A.get a).freq + (A.get b).freq) a b true := by
  rw [merged_get, if_pos hi.symm]

theorem isChild_merged_new {A : Arena} {n : Nat} {a b i : NodeIx} (hi : i.val = n) {c : NodeIx} :
    IsChild (merged A n a b) c i ↔ c = a ∨ c = b := by
  simp [IsChild, merged_get_new A a b hi]

/-! ### The shape -/

/-- The nodes below `n`: the first `k` are the leaves of `rs`, and each other one stands above its two children (R91 (a),
(b)). -/
structure Layered (rs : List (Byte × Word)) (k : Nat) (A : Arena) (n : Nat) : Prop where
  leaves : ∀ j : NodeIx, j.val < k → ∃ r v, rs[j.val]? = some r ∧ A.get j = .leaf r.2 r.1 v
  inner : ∀ i : NodeIx, k ≤ i.val → i.val < n → ∃ f l r v, A.get i = .internal f l r v ∧ l < i ∧ r < i ∧ l ≠ r

/-- The nodes below NNODE = `n` as the loop keeps them: one that is not live is the child of exactly one, and a live one of
none. -/
structure Forest (rs : List (Byte × Word)) (A : Arena) (n : Nat) : Prop extends Layered rs rs.length A n where
  owned : ∀ c : NodeIx, c.val < n → (A.get c).live ≠ true → ∃! i : NodeIx, i.val < n ∧ IsChild A c i
  top : ∀ c i : NodeIx, c.val < n → (A.get c).live = true → i.val < n → ¬IsChild A c i
  last : ∀ c : NodeIx, c.val + 1 = n → (A.get c).live = true
  count : n + (liveSet A n).length = 2 * rs.length
  le : rs.length ≤ n

section

variable {rs : List (Byte × Word)} {A : Arena} {n k : Nat}

theorem Layered.le_of_internal (h : Layered rs k A n) {i : NodeIx} {f : Word} {l r : NodeIx} {v : Bool}
    (hg : A.get i = .internal f l r v) : k ≤ i.val := by
  by_contra hlt
  obtain ⟨q, u, -, hleaf⟩ := h.leaves i (Nat.not_le.mp hlt)
  cases hg.symm.trans hleaf

theorem Layered.lt_of_leaf (h : Layered rs k A n) {i : NodeIx} (hi : i.val < n) {f : Word} {sym : Byte} {v : Bool}
    (hg : A.get i = .leaf f sym v) : i.val < k := by
  by_contra hge
  obtain ⟨f', l, r, v', hg', -⟩ := h.inner i (Nat.not_lt.mp hge) hi
  cases hg.symm.trans hg'

theorem Layered.child_lt (h : Layered rs k A n) {c i : NodeIx} (hi : i.val < n) (hc : IsChild A c i) : c < i := by
  obtain ⟨f, l, r, v, hg, hc⟩ := hc
  obtain ⟨f', l', r', v', hg', hl, hr, -⟩ := h.inner i (h.le_of_internal hg) hi
  cases hg.symm.trans hg'
  rcases hc with rfl | rfl
  · exact hl
  · exact hr

section

variable {a b : NodeIx} (h : Forest rs A n) (ha : a ∈ liveSet A n) (hb : b ∈ liveSet A n)
include h ha hb

/-- The two merged become the new node's children, and every other node keeps its parent. -/
theorem Forest.merged_owned (hn : n < 511) {c : NodeIx} (hc : c.val < n + 1) (hdead : ((merged A n a b).get c).live ≠ true) :
    ∃! i : NodeIx, i.val < n + 1 ∧ IsChild (merged A n a b) c i := by
  obtain ⟨han, hal⟩ := (mem_liveSet A n a).mp ha
  obtain ⟨hbn, hbl⟩ := (mem_liveSet A n b).mp hb
  have hcn : c.val < n := by
    refine Nat.lt_of_le_of_ne (Nat.le_of_lt_succ hc) fun hcn => hdead ?_
    rw [merged_get_new A a b hcn]
    rfl
  by_cases hcab : c = a ∨ c = b
  · have hlive : (A.get c).live = true := by rcases hcab with rfl | rfl <;> assumption
    refine ⟨⟨n, hn⟩, ⟨Nat.lt_succ_self n, (isChild_merged_new (n := n) rfl).mpr hcab⟩, fun i hi => ?_⟩
    obtain ⟨hin, hci⟩ := hi
    rcases Nat.lt_succ_iff_lt_or_eq.mp hin with hlt | heq
    · exact absurd ((isChild_merged hlt).mp hci) (h.top c i hcn hlive hlt)
    · exact Fin.ext heq
  · have hold : (A.get c).live ≠ true := fun hl => hdead ((merged_get_live hcn).mpr ⟨hl, not_or.mp hcab⟩)
    obtain ⟨i, ⟨hin, hci⟩, huniq⟩ := h.owned c hcn hold
    refine ⟨i, ⟨Nat.lt_succ_of_lt hin, (isChild_merged hin).mpr hci⟩, fun j hj => ?_⟩
    obtain ⟨hjn, hcj⟩ := hj
    rcases Nat.lt_succ_iff_lt_or_eq.mp hjn with hlt | heq
    · exact huniq j ⟨hlt, (isChild_merged hlt).mp hcj⟩
    · exact absurd ((isChild_merged_new heq).mp hcj) hcab

/-- A node still live after the turn is no child: neither of the two merged, nor one that was a child before. -/
theorem Forest.merged_top {c i : NodeIx} (hlive : ((merged A n a b).get c).live = true)
    (hi : i.val < n + 1) : ¬IsChild (merged A n a b) c i := by
  intro hchild
  obtain ⟨han, -⟩ := (mem_liveSet A n a).mp ha
  obtain ⟨hbn, -⟩ := (mem_liveSet A n b).mp hb
  rcases Nat.lt_succ_iff_lt_or_eq.mp hi with hlt | heq
  · rw [isChild_merged hlt] at hchild
    have hcn : c.val < n := Nat.lt_trans (h.child_lt hlt hchild) hlt
    exact h.top c i hcn ((merged_get_live hcn).mp hlive).1 hlt hchild
  · rcases (isChild_merged_new heq).mp hchild with rfl | rfl
    · exact ((merged_get_live han).mp hlive).2.1 rfl
    · exact ((merged_get_live hbn).mp hlive).2.2 rfl

theorem Forest.merged (hab : a ≠ b) (hn : n < 511) : Forest rs (merged A n a b) (n + 1) where
  leaves j hj := by
    obtain ⟨q, u, hq, hg⟩ := h.leaves j hj
    obtain ⟨u', hg'⟩ := (merged_get_leaf (Nat.lt_of_lt_of_le hj h.le)).mpr ⟨u, hg⟩
    exact ⟨q, u', hq, hg'⟩
  inner i hk hi := by
    rcases Nat.lt_succ_iff_lt_or_eq.mp hi with hlt | heq
    · obtain ⟨f, l, r, v, hg, hlr⟩ := h.inner i hk hlt
      obtain ⟨v', hg'⟩ := (merged_get_internal hlt).mpr ⟨v, hg⟩
      exact ⟨f, l, r, v', hg', hlr⟩
    · obtain ⟨han, -⟩ := (mem_liveSet A n a).mp ha
      obtain ⟨hbn, -⟩ := (mem_liveSet A n b).mp hb
      exact ⟨_, a, b, true, merged_get_new A a b heq, han.trans_eq heq.symm, hbn.trans_eq heq.symm, hab⟩
  owned c hc hdead := h.merged_owned ha hb hn hc hdead
  top c i _ hlive hi := h.merged_top ha hb hlive hi
  last c hc := by
    rw [merged_get_new A a b (Nat.succ_injective hc)]
    rfl
  count := by
    obtain ⟨L, hperm, hL⟩ := liveSet_merged ha hb hab hn
    have hlen := hperm.length_eq
    have hcount := h.count
    simp only [hL, List.length_cons, List.length_append, List.length_nil] at hlen ⊢
    omega
  le := Nat.le_succ_of_le h.le

end

end

/-! ### The weights -/

/-- The nodes below NNODE = `n` weigh what their children do (R92), and the live ones `total` together. -/
structure Weighed (total : Nat) (A : Arena) (n : Nat) : Prop where
  inner : ∀ (i : NodeIx) f l r v, i.val < n → A.get i = .internal f l r v →
    f.toNat = (A.get l).freq.toNat + (A.get r).freq.toNat
  sum : ((liveSet A n).map fun i => (A.get i).freq.toNat).sum = total
  range : ∀ i : NodeIx, i.val < n → 1 ≤ (A.get i).freq.toNat ∧ (A.get i).freq.toNat ≤ total

/-- Two live nodes and the rest of L weigh `total`. -/
theorem Weighed.sum_pair {total : Nat} {A : Arena} {n : Nat} (h : Weighed total A n) {a b : NodeIx} {L : List NodeIx}
    (hperm : (a :: b :: L).Perm (liveSet A n)) :
    (A.get a).freq.toNat + (A.get b).freq.toNat + (L.map fun i => (A.get i).freq.toNat).sum = total := by
  rw [← h.sum, ← (hperm.map _).sum_eq, List.map_cons, List.map_cons, List.sum_cons, List.sum_cons, Nat.add_assoc]

section

variable {total : Nat} {A : Arena} {n : Nat} {a b : NodeIx} (h : Weighed total A n) (ha : a ∈ liveSet A n)
  (hb : b ∈ liveSet A n) (hab : a ≠ b) (hn : n < 511)
include h ha hb hab hn

theorem Weighed.pair_le : (A.get a).freq.toNat + (A.get b).freq.toNat ≤ total := by
  obtain ⟨L, hperm, -⟩ := liveSet_merged ha hb hab hn
  exact (Nat.le_add_right _ _).trans_eq (h.sum_pair hperm)

theorem Weighed.toNat_add (htotal : total < 2 ^ 32) :
    ((A.get a).freq + (A.get b).freq).toNat = (A.get a).freq.toNat + (A.get b).freq.toNat := by
  rw [BitVec.toNat_add, Nat.mod_eq_of_lt ((h.pair_le ha hb hab hn).trans_lt htotal)]

theorem Weighed.merged_sum (htotal : total < 2 ^ 32) :
    ((liveSet (merged A n a b) (n + 1)).map fun i => ((merged A n a b).get i).freq.toNat).sum = total := by
  obtain ⟨L, hperm, hL⟩ := liveSet_merged ha hb hab hn
  have hold : (L.map fun i => ((merged A n a b).get i).freq.toNat) = L.map fun i => (A.get i).freq.toNat := by
    refine List.map_congr_left fun i hi => ?_
    have hmem : i ∈ liveSet A n := hperm.mem_iff.mp (List.mem_cons_of_mem _ (List.mem_cons_of_mem _ hi))
    rw [merged_get_freq ((mem_liveSet A n i).mp hmem).1]
  rw [hL, List.map_append, List.sum_append, hold, List.map_singleton, List.sum_singleton, merged_get_new (n := n) A a b rfl,
    Node.freq, h.toNat_add ha hb hab hn htotal, Nat.add_comm]
  exact h.sum_pair hperm

theorem Weighed.merged (htotal : total < 2 ^ 32) {rs : List (Byte × Word)} (hf : Forest rs A n) :
    Weighed total (merged A n a b) (n + 1) where
  inner i f l r v hi hg := by
    rcases Nat.lt_succ_iff_lt_or_eq.mp hi with hlt | heq
    · obtain ⟨v', hg'⟩ := (merged_get_internal hlt).mp ⟨v, hg⟩
      have hl : l.val < n := Nat.lt_trans (hf.child_lt hlt ⟨f, l, r, v', hg', .inl rfl⟩) hlt
      have hr : r.val < n := Nat.lt_trans (hf.child_lt hlt ⟨f, l, r, v', hg', .inr rfl⟩) hlt
      rw [merged_get_freq hl, merged_get_freq hr]
      exact h.inner i f l r v' hlt hg'
    · rw [merged_get_new A a b heq] at hg
      cases hg
      rw [merged_get_freq ((mem_liveSet A n a).mp ha).1, merged_get_freq ((mem_liveSet A n b).mp hb).1]
      exact h.toNat_add ha hb hab hn htotal
  sum := h.merged_sum ha hb hab hn htotal
  range i hi := by
    rcases Nat.lt_succ_iff_lt_or_eq.mp hi with hlt | heq
    · rw [merged_get_freq hlt]
      exact h.range i hlt
    · rw [merged_get_new A a b heq, Node.freq, h.toNat_add ha hb hab hn htotal]
      have hone := (h.range a ((mem_liveSet A n a).mp ha).1).1
      exact ⟨Nat.le_add_right_of_le hone, h.pair_le ha hb hab hn⟩

end

/-! ### The loop -/

theorem liveSet_succ (A : Arena) {n : Nat} (hn : n < 511) (hlive : (A.get ⟨n, hn⟩).live = true) :
    liveSet A (n + 1) = liveSet A n ++ [⟨n, hn⟩] := by
  simp [liveSet, List.range_succ, List.filterMap_append, hn, hlive]

/-- The leaf step leaves every leaf in L, with its count. -/
theorem liveSet_leafStep_freq (f : FreqTable) (A : Arena) {m : Nat} (hm : m ≤ (present f).length) :
    (liveSet (leafStep f A) m).map (fun i => ((leafStep f A).get i).freq) = ((present f).take m).map Prod.snd := by
  induction m with
  | zero => rfl
  | succ m ih =>
    have hmax := present_length_le f
    have hm' : m < 511 := by omega
    have hg := leafStep_get_of_lt (f := f) (j := ⟨m, hm'⟩) hm A
    rw [liveSet_succ _ hm' (by rw [hg]; rfl), List.map_append, ih (Nat.le_of_succ_le hm), List.map_singleton, hg,
      List.take_succ_eq_append_getElem hm, List.map_append]
    rfl

theorem forest_leafStep (f : FreqTable) (A : Arena) :
    Forest (present f) (leafStep f A) (present f).length where
  leaves j hj := ⟨_, true, List.getElem?_eq_getElem hj, leafStep_get_of_lt hj A⟩
  inner i hk hi := absurd hi (Nat.not_lt.mpr hk)
  owned c hc hdead := absurd (by rw [leafStep_get_of_lt hc]; rfl) hdead
  top c i _ _ hi := by
    rintro ⟨f', l, r, v, hg, -⟩
    rw [leafStep_get_of_lt hi] at hg
    cases hg
  last c hc := by
    rw [leafStep_get_of_lt (Nat.lt_of_succ_le hc.le)]
    rfl
  count := by
    have hlen := congrArg List.length (liveSet_leafStep_freq f A le_rfl)
    rw [List.length_map, List.length_map, List.take_length] at hlen
    omega
  le := le_rfl

theorem weighed_leafStep (f : FreqTable) (A : Arena) :
    Weighed ((present f).map fun r => r.2.toNat).sum (leafStep f A) (present f).length where
  inner i f' l r v hi hg := by
    rw [leafStep_get_of_lt hi] at hg
    cases hg
  sum := by
    have hmap := congrArg (List.map BitVec.toNat) (liveSet_leafStep_freq f A le_rfl)
    rw [List.take_length, List.map_map, List.map_map] at hmap
    exact congrArg List.sum hmap
  range i hi := by
    have hmem := List.getElem_mem hi
    rw [leafStep_get_of_lt hi, Node.freq]
    refine ⟨Nat.one_le_iff_ne_zero.mpr fun h0 => ?_, ?_⟩
    · exact ((mem_present f _ _).mp hmem).2 (BitVec.eq_of_toNat_eq h0)
    · exact List.single_le_sum (fun _ _ => Nat.zero_le _) _ (List.mem_map_of_mem hmem)

/-- The loop keeps the shape and the weights until at most one node is live. -/
theorem mergeLoop_forest {rs : List (Byte × Word)} (hrs : rs.length ≤ Config.maxk) {total : Nat} (htotal : total < 2 ^ 32)
    {fuel : Nat} {A : Arena} {n : Nat} (hf : Forest rs A n) (hw : Weighed total A n)
    (hfuel : (liveSet A n).length ≤ fuel) :
    ∃ B m, mergeLoop fuel A n = (B, m) ∧ Forest rs B m ∧ Weighed total B m ∧ (liveSet B m).length ≤ 1 := by
  induction fuel generalizing A n with
  | zero => exact ⟨A, n, rfl, hf, hw, hfuel.trans (Nat.zero_le 1)⟩
  | succ fuel ih =>
    rcases Nat.lt_or_ge 1 (liveSet A n).length with htwo | hone
    · obtain ⟨a, b, ha, hb, hab, hloop⟩ := mergeLoop_succ htwo fuel
      have hcount := hf.count
      have hn : n < 511 := by simp only [Config.maxk] at hrs; omega
      have hf' := hf.merged ha hb hab hn
      rw [hloop]
      refine ih hf' (hw.merged ha hb hab hn htotal hf) ?_
      have hcount' := hf'.count
      omega
    · exact ⟨A, n, by rw [mergeLoop, if_pos hone], hf, hw, hone⟩

/-- What TREE leaves of the arena: one tree, its root the last node (R87). -/
theorem buildTree_forest {f : FreqTable} (hf : present f ≠ []) {total : Nat}
    (hsum : ((present f).map fun r => r.2.toNat).sum = total) (htotal : total < 2 ^ 32) (A : Arena) :
    ∃ B m root, buildTree f (present f).length A = (B, m) ∧ Forest (present f) B m ∧ Weighed total B m ∧
      liveSet B m = [root] ∧ m = 2 * (present f).length - 1 ∧ root.val = 2 * (present f).length - 2 := by
  obtain ⟨B, m, hloop, hB, hw, hone⟩ := mergeLoop_forest (present_length_le f) htotal (forest_leafStep f A)
    (hsum ▸ weighed_leafStep f A) le_rfl
  have hbuild : buildTree f (present f).length A = (B, m) := hloop
  have hne := buildTree_live hf A
  rw [hbuild] at hne
  obtain ⟨root, hroot⟩ := List.length_eq_one_iff.mp (Nat.le_antisymm hone (List.length_pos_iff.mpr hne))
  have hcount := hB.count
  have hpos := List.length_pos_iff.mpr hf
  have hmax := present_length_le f
  rw [hroot, List.length_singleton] at hcount
  have hlast : (⟨m - 1, by omega⟩ : NodeIx) ∈ liveSet B m :=
    (mem_liveSet B m _).mpr ⟨by simp only; omega, hB.last _ (by simp only; omega)⟩
  rw [hroot, List.mem_singleton] at hlast
  refine ⟨B, m, root, hbuild, hB, hw, hroot, by omega, ?_⟩
  rw [← hlast]
  simp only
  omega

end Sys2Proof.Machine
end

section
/-! The tree at the end of TREE (41_tree_builder.md R91, R92) and the paths to its nodes. -/

namespace Sys2Proof.Machine

/-! ### The forest of one tree -/

section

variable {rs : List (Byte × Word)} {A : Arena} {n : Nat} {root : NodeIx}

/-- One node down a path costs one index at least, and every node on the way is internal. -/
theorem Layered.pathTo_bound {k : Nat} (h : Layered rs k A n) (hroot : root.val < n) {i : NodeIx} {p : Bits}
    (hp : PathTo A root i p) : i.val + p.length ≤ root.val ∧ (p = [] ∨ k + p.length ≤ root.val + 1) := by
  have hchild {i c : NodeIx} {p : Bits} (hc : IsChild A c i) (b : Bool) (hi : i.val + p.length ≤ root.val) :
      c.val + (p ++ [b]).length ≤ root.val ∧ (p ++ [b] = [] ∨ k + (p ++ [b]).length ≤ root.val + 1) := by
    have hlt := Fin.lt_def.mp (h.child_lt (by omega) hc)
    obtain ⟨f, l, r, v, hg, -⟩ := hc
    have hk := h.le_of_internal hg
    rw [List.length_append, List.length_singleton]
    exact ⟨by omega, .inr (by omega)⟩
  induction hp with
  | root => exact ⟨le_rfl, .inl rfl⟩
  | left _ hg ih => exact hchild ⟨_, _, _, _, hg, .inl rfl⟩ false ih.1
  | right _ hg ih => exact hchild ⟨_, _, _, _, hg, .inr rfl⟩ true ih.1

/-- Only the root is live. -/
theorem live_eq_decide {i : NodeIx} (hi : i.val < n) (hlive : liveSet A n = [root]) :
    (A.get i).live = decide (i = root) := by
  have hmem := mem_liveSet A n i
  rw [hlive, List.mem_singleton] at hmem
  rw [Bool.eq_iff_iff, decide_eq_true_iff, hmem]
  exact (and_iff_right hi).symm

end

/-! ### TREE -/

/-- What TREE leaves when the precondition of R85 holds: one tree, and its NNODE and ROOT. -/
theorem treeRule_forest {s : State} (h : FreqOk s.work) :
    ∃ B m root, (treeRule s).work = { s.work with node := B, nnode := BitVec.ofNat 10 m, root := root } ∧
      Forest (present s.work.freq) B m ∧ Weighed s.work.total.toNat B m ∧ liveSet B m = [root] ∧
      m = 2 * s.work.k.toNat - 1 ∧ root.val = 2 * s.work.k.toNat - 2 := by
  have hne : present s.work.freq ≠ [] := List.ne_nil_of_length_pos (h.distinct ▸ h.one_le)
  obtain ⟨B, m, root, hbuild, hB, hw, hlive, hm, hroot⟩ :=
    buildTree_forest hne h.sum s.work.total.isLt s.work.node
  rw [h.distinct] at hbuild hm hroot
  refine ⟨B, m, root, ?_, hB, hw, hlive, hm, hroot⟩
  simp [treeRule, hbuild, hlive]

theorem treeOk_treeRule {s : State} (h : FreqOk s.work) : TreeOk (treeRule s).work := by
  obtain ⟨B, m, root, hwork, hB, -, hlive, hm, hroot⟩ := treeRule_forest h
  have hk := h.one_le
  have hmax : s.work.k.toNat ≤ 256 := h.le_maxk
  have hlt {i : NodeIx} : i.val < m ↔ i ≤ root := by rw [Fin.le_def]; omega
  rw [hwork]
  refine ⟨?_, hroot, ?_, ?_, ?_, ?_, ?_⟩
  · show (BitVec.ofNat 10 m).toNat = 2 * s.work.k.toNat - 1
    rw [BitVec.toNat_ofNat]
    omega
  · exact fun j hj => hB.leaves j (h.distinct.symm ▸ hj)
  · exact fun i hi hir => hB.inner i (h.distinct.symm ▸ hi) (hlt.mpr hir)
  · intro c hc
    have hdead : (B.get c).live ≠ true := by
      rw [live_eq_decide (hlt.mpr hc.le) hlive]
      simpa using hc.ne
    simpa only [hlt] using hB.owned c (hlt.mpr hc.le) hdead
  · exact fun i hi => live_eq_decide (hlt.mpr hi) hlive
  · intro i p hp _
    obtain ⟨-, hlen⟩ := hB.pathTo_bound (hlt.mpr le_rfl) hp
    rw [h.distinct] at hlen
    rcases hlen with rfl | hlen
    · exact Nat.zero_le _
    · show p.length ≤ s.work.k.toNat - 1
      omega

theorem treeFreqOk_treeRule {s : State} (h : FreqOk s.work) : TreeFreqOk (treeRule s).work := by
  obtain ⟨B, m, root, hwork, hB, hw, hlive, hm, hroot⟩ := treeRule_forest h
  have hk := h.one_le
  have hlt {i : NodeIx} (hi : i ≤ root) : i.val < m := by rw [Fin.le_def] at hi; omega
  rw [hwork]
  refine ⟨fun i f sym v hi hg => ?_, fun i f l r v hi => hw.inner i f l r v (hlt hi), ?_, fun i hi => hw.range i (hlt hi)⟩
  · obtain ⟨q, v', hq, hg'⟩ := hB.leaves i (hB.lt_of_leaf (hlt hi) hg)
    cases hg.symm.trans hg'
    exact ((mem_present _ _ _).mp (List.mem_of_getElem? hq)).1.symm
  · have hsum := hw.sum
    rw [hlive, List.map_singleton, List.sum_singleton] at hsum
    exact BitVec.eq_of_toNat_eq hsum

/-- R91 is about K, NNODE, ROOT, FREQ and NODE alone. -/
theorem TreeOk.congr {w w' : Scratch} (h : TreeOk w) (hk : w'.k = w.k) (hn : w'.nnode = w.nnode) (hr : w'.root = w.root)
    (hf : w'.freq = w.freq) (hA : w'.node = w.node) : TreeOk w' := by
  obtain ⟨hnnode, hroot, hleaves, hinner, howned, hlive, hdepth⟩ := h
  constructor <;> simp only [hk, hn, hr, hf, hA] <;> assumption

/-- R92 is about TOTAL, ROOT, FREQ and NODE alone. -/
theorem TreeFreqOk.congr {w w' : Scratch} (h : TreeFreqOk w) (ht : w'.total = w.total) (hr : w'.root = w.root)
    (hf : w'.freq = w.freq) (hA : w'.node = w.node) : TreeFreqOk w' := by
  obtain ⟨hleaf, hinner, hroot, hrange⟩ := h
  constructor <;> simp only [ht, hr, hf, hA] <;> assumption

/-! ### Paths in a tree -/

theorem TreeOk.layered {w : Scratch} (h : TreeOk w) :
    Layered (present w.freq) w.k.toNat w.node (w.root.val + 1) where
  leaves := h.leaves
  inner i hk hi := h.inner i hk (Nat.le_of_lt_succ hi)

/-- Every node has a path: up the parents, whose indices rise, to the root. -/
theorem TreeOk.exists_pathTo {w : Scratch} (h : TreeOk w) (c : NodeIx) (hc : c ≤ w.root) : ∃ p, PathTo w.node w.root c p := by
  rcases eq_or_lt_of_le hc with rfl | hlt
  · exact ⟨[], .root⟩
  · obtain ⟨i, ⟨hi, hchild⟩, -⟩ := h.owned c hlt
    have hci := h.layered.child_lt (Nat.lt_succ_of_le hi) hchild
    obtain ⟨p, hp⟩ := h.exists_pathTo i hi
    obtain ⟨f, l, r, v, hg, rfl | rfl⟩ := hchild
    · exact ⟨_, hp.left hg⟩
    · exact ⟨_, hp.right hg⟩
termination_by w.root.val - c.val
decreasing_by
  rw [Fin.lt_def] at hci
  rw [Fin.le_def] at hi
  omega

/-! ### CODE's walk -/

section

variable {A : Arena} {root : NodeIx}

theorem PathTo.eq_root {i : NodeIx} {p : Bits} (hp : PathTo A root i p) (h : p = []) : i = root := by
  cases hp with
  | root => rfl
  | left => simp at h
  | right => simp at h

theorem PathTo.eq_root_of_leaf {f : Word} {sym : Byte} {v : Bool} (hroot : A.get root = .leaf f sym v) {i : NodeIx}
    {p : Bits} (hp : PathTo A root i p) : i = root := by
  induction hp with
  | root => rfl
  | left _ hg ih => rw [ih, hroot] at hg; cases hg
  | right _ hg ih => rw [ih, hroot] at hg; cases hg

/-- The walk lists leaves, each with its path. -/
theorem mem_leafPaths {d : Nat} {i : NodeIx} {q p : Bits} {sym : Byte} (hq : PathTo A root i q)
    (h : (sym, p) ∈ leafPaths A d i q) : ∃ j f v, A.get j = .leaf f sym v ∧ PathTo A root j p := by
  induction d generalizing i q with
  | zero => cases h
  | succ d ih =>
    unfold leafPaths at h
    split at h
    · next hg =>
      cases List.mem_singleton.mp h
      exact ⟨i, _, _, hg, hq⟩
    · next hg =>
      rcases List.mem_append.mp h with h | h
      · exact ih (hq.left hg) h
      · exact ih (hq.right hg) h

/-- The walk from a node is part of the walk from the root, which goes as much deeper as the node's path is long. -/
theorem leafPaths_subset {i : NodeIx} {q : Bits} (hq : PathTo A root i q) (d : Nat) :
    leafPaths A d i q ⊆ leafPaths A (d + q.length) root [] := by
  have hdepth (d : Nat) (p : Bits) (b : Bool) : d + (p ++ [b]).length = d + 1 + p.length := by
    rw [List.length_append, List.length_singleton]
    omega
  induction hq generalizing d with
  | root => exact List.Subset.refl _
  | left _ hg ih =>
    rw [hdepth]
    refine List.Subset.trans ?_ (ih (d + 1))
    rw [leafPaths, hg]
    exact List.subset_append_left _ _
  | right _ hg ih =>
    rw [hdepth]
    refine List.Subset.trans ?_ (ih (d + 1))
    rw [leafPaths, hg]
    exact List.subset_append_right _ _

/-- A leaf whose path is shorter than the walk is deep is in it. -/
theorem mem_leafPaths_of_pathTo {i : NodeIx} {p : Bits} (hp : PathTo A root i p) {f : Word} {sym : Byte} {v : Bool}
    (hg : A.get i = .leaf f sym v) {d : Nat} (hd : p.length < d) : (sym, p) ∈ leafPaths A d root [] := by
  have hsub := leafPaths_subset hp (d - p.length - 1 + 1)
  rw [leafPaths, hg, show d - p.length - 1 + 1 + p.length = d by omega] at hsub
  exact hsub List.mem_cons_self

end

/-- The table holds, of the pairs written to it, one of a symbol's own. -/
theorem mem_of_codePut_foldl {L : List (Byte × Bits)} {sym : Byte} {p : Bits} (h : (sym, p) ∈ L) (t : CodeTable) :
    (sym, codeAt (L.foldl (fun c e => codePut c e.1 e.2) t) sym) ∈ L := by
  induction L using List.reverseRecOn generalizing p with
  | nil => cases h
  | append_singleton L e ih =>
    rw [List.foldl_append, List.foldl_cons, List.foldl_nil, codeAt_codePut]
    split
    · next he => simp [← he]
    · next he =>
      rcases List.mem_append.mp h with h | h
      · exact List.mem_append_left _ (ih h)
      · cases List.mem_singleton.mp h
        exact absurd rfl he

/-- The code word of a symbol of the tree is a path to a leaf of its own, or the one bit of R96. -/
theorem codeTable_cases {w : Scratch} (h : TreeOk w) {i : NodeIx} {f : Word} {sym : Byte} {v : Bool} (hi : i ≤ w.root)
    (hg : w.node.get i = .leaf f sym v) (hk : w.k.toNat ≤ Config.maxk) :
    codeAt (codeTable w.node w.root) sym = [false] ∨
      (∃ j f v, w.node.get j = .leaf f sym v ∧ PathTo w.node w.root j (codeAt (codeTable w.node w.root) sym)) ∧
      codeAt (codeTable w.node w.root) sym ≠ [] := by
  obtain ⟨p, hp⟩ := h.exists_pathTo i hi
  cases hroot : w.node.get w.root with
  | leaf f' sym' v' =>
    left
    rw [hp.eq_root_of_leaf hroot, hroot] at hg
    cases hg
    simp [codeTable, hroot, codeAt_codePut]
  | internal f' l r v' =>
    right
    have htable : codeTable w.node w.root =
        (leafPaths w.node (Config.maxlen + 1) w.root []).foldl (fun c e => codePut c e.1 e.2) codeEmpty := by
      rw [codeTable, hroot]
    have hdepth := h.depth i p hp (by rw [hg]; rfl)
    have hmem := mem_leafPaths_of_pathTo hp hg (d := Config.maxlen + 1)
      (by simp only [Config.maxk, Config.maxlen] at hk ⊢; omega)
    have hcode := mem_of_codePut_foldl hmem codeEmpty
    rw [← htable] at hcode
    obtain ⟨j, f'', v'', hj, hpj⟩ := mem_leafPaths .root hcode
    refine ⟨⟨j, f'', v'', hj, hpj⟩, fun hnil => ?_⟩
    rw [hpj.eq_root hnil, hroot] at hj
    cases hj

/-- Every symbol present has a code word of 1 to MAXLEN bits (42_code_table_generator.md R97). -/
theorem codeTable_length {w : Scratch} (hf : FreqOk w) (h : TreeOk w) {sym : Byte} (hsym : freqAt w.freq sym ≠ 0) :
    1 ≤ (codeAt (codeTable w.node w.root) sym).length ∧
      (codeAt (codeTable w.node w.root) sym).length ≤ Config.maxlen := by
  have hk1 := hf.one_le
  have hk := hf.le_maxk
  obtain ⟨j, hj, hjs⟩ := List.mem_iff_getElem.mp ((mem_present w.freq sym _).mpr ⟨rfl, hsym⟩)
  rw [hf.distinct] at hj
  have hj511 : j < 511 := by simp only [Config.maxk] at hk; omega
  obtain ⟨q, v, hq, hg⟩ := h.leaves ⟨j, hj511⟩ hj
  rw [List.getElem?_eq_some_iff] at hq
  obtain ⟨_, rfl⟩ := hq
  simp only [hjs] at hg
  have hroot : (⟨j, hj511⟩ : NodeIx) ≤ w.root := by
    have := h.root
    rw [Fin.le_def]
    simp only
    omega
  rcases codeTable_cases h hroot hg hk with hone | ⟨⟨i, f, v, hi, hp⟩, hne⟩
  · rw [hone]
    exact ⟨le_rfl, by decide⟩
  · have hdepth := h.depth i _ hp (by rw [hi]; rfl)
    refine ⟨List.length_pos_iff.mpr hne, ?_⟩
    simp only [Config.maxk, Config.maxlen] at hk ⊢
    omega

end Sys2Proof.Machine
end

section
/-! The invariant of the tables, step by step: each phase establishes what the phases after it read of FREQ, NODE and CODE
(40_frequency_analyzer.md R81, 41_tree_builder.md R91, R92, 42_code_table_generator.md R95, R97), and no host move
disturbs it. -/

namespace Sys2Proof.Machine

/-! ### What the invariant says before each phase -/

/-- The first phase of an operation reads no table. -/
theorem tablesInv_first {s : State} (h : s.status.phase = .freq ∨ s.status.phase = .hdrr) : s.TablesInv := by
  constructor <;> rcases h with h | h <;> simp [h]

section

variable {op : Op} {s : State}

theorem tablesInv_tree (h : Running op .tree s) (hc : op = .compress → s.work.freq = countBytes s.input) :
    s.TablesInv := by
  constructor <;> simp +contextual [h.status, hc]

theorem tablesInv_code (h : Running op .code s) (hc : s.work.freq = countBytes s.input) (ht : TreeOk s.work)
    (hf : TreeFreqOk s.work) : s.TablesInv := by
  constructor <;> simp [h.status, hc, ht, hf]

theorem tablesInv_hdrw (h : Running op .hdrw s) (hc : s.work.freq = countBytes s.input) (ht : TreeOk s.work)
    (hf : TreeFreqOk s.work) (hcode : s.work.code = codeTable s.work.node s.work.root) : s.TablesInv := by
  constructor <;> simp [h.status, hc, ht, hf, hcode]

theorem tablesInv_pack (h : Running op .pack s) (hc : ∀ b ∈ s.input,
    1 ≤ (codeAt s.work.code b).length ∧ (codeAt s.work.code b).length ≤ Config.maxlen) : s.TablesInv := by
  constructor <;> simp +contextual [h.status, hc]

theorem tablesInv_trav (h : Running .decompress .trav s) (ht : TreeOk s.work) (hf : TreeFreqOk s.work) :
    s.TablesInv := by
  constructor <;> simp [h.status, ht, hf]

end

/-! ### The phases -/

/-- FREQ goes on with the counts of the input. -/
theorem going_freqRule {s t : State} (h : freqRule s = .going t) : t.work.freq = countBytes t.input := by
  unfold freqRule memRead at h
  split at h
  · dsimp only at h
    split at h
    · cases h
    · cases h
      rfl
  · cases h

theorem tables_freqRule {s : State} (h : Running .compress .freq s) :
    (freqRule s).Sat (fun t => t.TablesInv) Halted :=
  ((sat_freqRule h).and_going fun _ => going_freqRule).imp
    (fun _ ht => tablesInv_tree ht.1.1 fun _ => ht.2) fun _ => id

/-- DECOMPRESS's FREQ is no count of the input, and TREE asks nothing more of it than its precondition. -/
theorem tables_hdrrRule {s : State} (h : Running .decompress .hdrr s) :
    (hdrrRule s).Sat (fun t => t.TablesInv) Halted :=
  (sat_hdrrRule h).imp (fun _ ht => tablesInv_tree ht.1 nofun) fun _ => id

theorem tables_treeRule {op : Op} {s : State} (h : Entered op .tree s)
    (hc : op = .compress → s.work.freq = countBytes s.input) : (treeRule s).TablesInv := by
  have hf := (h.1.workOk_tree.mp h.2).1
  have hr := (entered_treeRule h).1
  cases op with
  | noOp => exact absurd h.1.runs (by decide)
  | compress => exact tablesInv_code hr (hc rfl) (treeOk_treeRule hf) (treeFreqOk_treeRule hf)
  | decompress => exact tablesInv_trav hr (treeOk_treeRule hf) (treeFreqOk_treeRule hf)

theorem tables_codeRule {s : State} (h : Entered .compress .code s) (hc : s.work.freq = countBytes s.input)
    (ht : TreeOk s.work) (hf : TreeFreqOk s.work) : (codeRule s).TablesInv :=
  tablesInv_hdrw (entered_codeRule h).1 hc (ht.congr rfl rfl rfl rfl rfl) (hf.congr rfl rfl rfl rfl) rfl

/-- HDRW leaves CODE. -/
theorem going_hdrwRule {s t : State} (h : hdrwRule s = .going t) : t.work.code = s.work.code := by
  unfold hdrwRule memWrite at h
  split at h
  · cases h
  · split at h <;> cases h
    rfl

/-- Every byte of the input is counted, so it has a code word before PACK. -/
theorem tables_hdrwRule {s : State} (h : Entered .compress .hdrw s) (hc : s.work.freq = countBytes s.input)
    (ht : TreeOk s.work) (hcode : s.work.code = codeTable s.work.node s.work.root) :
    (hdrwRule s).Sat (fun t => t.TablesInv) Halted := by
  have hX : s.input.length ≤ Config.maxn := by simpa using h.1.maxn rfl
  have hf := h.1.workOk_hdrw.mp h.2
  refine ((sat_hdrwRule h).and_going fun t hgo => ?_).imp (fun t ht => tablesInv_pack ht.1.1 ht.2) fun _ => id
  have hframe := frames_hdrwRule s
  rw [hgo] at hframe
  obtain ⟨hhost, hepoch⟩ := hframe
  intro b hb
  rw [State.input_congr hhost.inLen hhost.inMem hepoch] at hb
  rw [going_hdrwRule hgo, hcode]
  refine codeTable_length hf ht ?_
  rw [hc]
  exact freqAt_countBytes_ne_zero hX hb

/-- What a rule answers meets the invariant when it goes on, or has halted. -/
theorem tablesInv_of_outcome {r : Run} {t : State} (h : r.Sat (fun t => t.TablesInv) Halted)
    (ht : r.outcome = .next t) : t.TablesInv := by
  rcases Run.outcome_next ht with rfl | rfl
  · exact h
  · exact tablesInv_idle h.2

/-- The last phase of an operation halts it, and an idle block reads no table. -/
theorem tables_last {r : Run} (h : r.Sat (fun _ => False) Halted) : r.Sat (fun t => t.TablesInv) Halted :=
  h.imp (fun _ => False.elim) fun _ => id

theorem tablesInv_engineStep {s t : State} (h : s.Inv) (ht : s.TablesInv) (hst : engineStep s = .next t) :
    t.TablesInv := by
  cases hb : s.status.busy with
  | false => rw [engineStep_idle hb] at hst; cases hst; exact ht
  | true =>
    have he := h.runInv.entered hb
    rw [engineStep_busy hb] at hst
    rcases Status.runs_cases he.1.runs with ⟨hop, hp | hp | hp | hp | hp⟩ | ⟨hop, hp | hp | hp⟩ <;>
      rw [hop, hp] at he <;> rw [hp] at hst
    · exact tablesInv_of_outcome (tables_freqRule he.1) hst
    · cases hst
      exact tables_treeRule he fun _ => ht.counts hb hop (.inl hp)
    · cases hst
      obtain ⟨hshape, hfreq⟩ := ht.tree hb (.inl hp)
      exact tables_codeRule he (ht.counts hb hop (.inr (.inl hp))) hshape hfreq
    · obtain ⟨hshape, -⟩ := ht.tree hb (.inr (.inl hp))
      exact tablesInv_of_outcome
        (tables_hdrwRule he (ht.counts hb hop (.inr (.inr hp))) hshape (ht.table hb hp)) hst
    · exact tablesInv_of_outcome (tables_last (sat_packRule he)) hst
    · exact tablesInv_of_outcome (tables_hdrrRule he.1) hst
    · cases hst
      exact tables_treeRule he nofun
    · exact tablesInv_of_outcome (tables_last (sat_travRule he)) hst

/-! ### The host's moves -/

/-- Everything a host move can do to the state: nothing but to the host's own side, a reset, a write of IN or IN_LEN while
BUSY = 0, a command, or, polling, the engine's step. -/
inductive HostEffect (s : State) : State → Prop
  | hostSide (ts : List Turn) (vs : List Word64) (d : Nat) : HostEffect s { s with turns := ts, heard := vs, draws := d }
  | reset : HostEffect s (applyReset s)
  | load (hb : s.status.busy = false) (m : Memory) (l : Word64) : HostEffect s { s with inMem := m, inLen := l }
  | command (w : Word) : HostEffect s (s.accept w)
  | engine {t : State} (h : engineStep (s.expand [.wait]) = .next t) : HostEffect s t

theorem hostEffect_writeReg {off width : Nat} {v : Word64} {s t : State} (h : writeReg off width v s = .next t) :
    HostEffect s t := by
  unfold writeReg at h
  split at h
  · cases h; exact .hostSide _ _ _
  split at h
  · rw [writeCmd_eq] at h; cases h; exact .command _
  split at h
  · cases h; exact .hostSide _ _ _
  split at h
  · cases hb : s.status.busy <;> rw [hb] at h <;> cases h
    · exact .load hb _ _
    · exact .hostSide _ _ _
  split at h
  · cases h; exact .hostSide _ _ _
  · cases h

theorem hostEffect_readReg {off width : Nat} {s t : State} (h : readReg off width s = .next t) : HostEffect s t := by
  unfold readReg at h
  repeat' split at h
  all_goals cases h
  all_goals exact .hostSide _ _ _

theorem hostEffect_writeIn {a : Nat} {v : Byte} {s t : State} (h : writeIn a v s = .next t) : HostEffect s t := by
  unfold writeIn at h
  split at h
  · cases h; exact .hostSide _ _ _
  · split at h
    · cases h
    · next hb => cases h; exact .load (Bool.not_eq_true _ ▸ hb) _ _

theorem hostEffect_hostStep {m : HostMove} {s t : State} (h : hostStep m s = .next t) : HostEffect s t := by
  cases m with
  | reset => cases h; exact .reset
  | wrIn a v => exact hostEffect_writeIn h
  | wrReg off width v => exact hostEffect_writeReg h
  | rdReg off width => exact hostEffect_readReg h
  | wait =>
    unfold hostStep at h
    dsimp only at h
    split at h
    · exact .engine h
    · cases h; exact .hostSide _ _ _
  | copyback =>
    unfold hostStep at h
    dsimp only at h
    split at h
    · cases h; exact .hostSide _ _ _
    · cases h
  | result =>
    cases h
    split
    · exact .hostSide _ _ _
    · exact .hostSide _ _ _
  | wrOut a v => cases h; exact .hostSide _ _ _
  | rdIn a => cases h; exact .hostSide _ _ _
  | rdOut a => cases h; exact .hostSide _ _ _
  | dump => cases h; exact .hostSide _ _ _

/-- The invariant of the tables speaks of no turn to come, no value read and no draw. -/
theorem State.TablesInv.host_side {s : State} (h : s.TablesInv) (ts : List Turn) (vs : List Word64) (d : Nat) :
    ({ s with turns := ts, heard := vs, draws := d } : State).TablesInv :=
  ⟨h.counts, h.tree, h.table, h.coded⟩

/-- A command leaves a running operation alone, and from an idle block starts one or ends in an error at once. -/
theorem tablesInv_accept {s : State} (h : s.TablesInv) (w : Word) : (s.accept w).TablesInv := by
  have hbegin (op : Op) : (s.fresh.begin op).TablesInv := by
    rcases begin_cases s.fresh op with ⟨-, hs⟩ | ⟨-, -, hs⟩ <;> rw [hs]
    · exact tablesInv_idle rfl
    · refine tablesInv_first ?_
      cases op <;> simp
  cases hb : s.status.busy with
  | true => rw [accept_busy hb]; exact h
  | false =>
    rw [accept_idle hb]
    split
    · exact hbegin _
    · split
      · exact hbegin _
      · exact tablesInv_idle rfl

theorem tablesInv_hostStep {m : HostMove} {s t : State} (h : s.Inv) (ht : s.TablesInv) (hst : hostStep m s = .next t) :
    t.TablesInv := by
  cases hostEffect_hostStep hst with
  | hostSide ts vs d => exact ht.host_side ts vs d
  | reset => exact tablesInv_idle rfl
  | load hb m l => exact tablesInv_idle hb
  | command w => exact tablesInv_accept ht w
  | engine he => exact tablesInv_engineStep (inv_expand h _) (ht.host_side _ _ _) he

/-- Settles O52: the engine's step by its phases, and the host's moves by what they can do. -/
theorem stepKeepsTheTables : Obligations.StepKeepsTheTables := by
  intro s t h ht hst
  have hrest (ts : List Turn) : ({ s with turns := ts } : State).Inv := h.host_side ts s.heard s.draws
  have htrest (ts : List Turn) : ({ s with turns := ts } : State).TablesInv := ht.host_side ts s.heard s.draws
  unfold step at hst
  split at hst
  · exact tablesInv_engineStep h ht hst
  · exact tablesInv_engineStep (hrest _) (htrest _) hst
  · exact tablesInv_hostStep (hrest _) (htrest _) hst

end Sys2Proof.Machine
end

section
/-! What phase TREE promises (41_tree_builder.md R85 to R93): the turn of the merge loop takes the two least nodes, and the
tree, like the code table read off it, is a function of FREQ alone. -/

namespace Sys2Proof.Machine

/-! ### The two least nodes -/

/-- `a` is the `argmin` over L of the key (freq, index) (R87, R88). -/
def LeastLive (A : Arena) (n : Nat) (a : NodeIx) : Prop :=
  a ∈ liveSet A n ∧ ∀ j ∈ liveSet A n, j ≠ a → keyLt A a j = true

/-- A removal from a non-empty L takes its least node. -/
theorem exists_removeMin {A : Arena} {n : Nat} (h : liveSet A n ≠ []) :
    ∃ a, LeastLive A n a ∧ removeMin A n = some (a, A.set a (A.get a).kill) := by
  cases hr : removeMin A n with
  | none => exact absurd (removeMin_none hr) h
  | some p =>
    obtain ⟨a, B⟩ := p
    obtain ⟨ha, hmin, rfl⟩ := removeMin_some hr
    exact ⟨a, ⟨ha, hmin⟩, rfl⟩

section

variable {A : Arena} {n : Nat} {a b : NodeIx}

theorem mem_liveSet_kill {j : NodeIx} : j ∈ liveSet (A.set a (A.get a).kill) n ↔ j ∈ liveSet A n ∧ j ≠ a := by
  rw [mem_liveSet, mem_liveSet, arena_get_set]
  by_cases h : a = j
  · simp [h]
  · simp [h, Ne.symm h]

/-- Clearing a `live` bit leaves the order of R88. -/
theorem keyLt_kill (i j : NodeIx) : keyLt (A.set a (A.get a).kill) i j = keyLt A i j := by
  have hfreq (i : NodeIx) : ((A.set a (A.get a).kill).get i).freq = (A.get i).freq := by
    rw [arena_get_set]
    split
    · next h => rw [← h, Node.freq_kill]
    · rfl
  rw [keyLt, keyLt, hfreq, hfreq]

/-- The least node once `a` has left is the least of the rest. -/
theorem leastLive_kill : LeastLive (A.set a (A.get a).kill) n b ↔
    (b ∈ liveSet A n ∧ b ≠ a) ∧ ∀ j ∈ liveSet A n, j ≠ a → j ≠ b → keyLt A b j = true := by
  simp only [LeastLive, mem_liveSet_kill, keyLt_kill, and_imp]

/-- A turn with two live nodes or more merges the least and the least of the rest. -/
theorem mergeLoop_least (h : 2 ≤ (liveSet A n).length) : ∃ a b, LeastLive A n a ∧
    LeastLive (A.set a (A.get a).kill) n b ∧ ∀ fuel, mergeLoop (fuel + 1) A n = mergeLoop fuel (merged A n a b) (n + 1) := by
  obtain ⟨a, ha, hra⟩ := exists_removeMin (List.ne_nil_of_length_pos (Nat.lt_of_lt_of_le Nat.two_pos h))
  have hlen := liveSet_kill_length ha.1
  obtain ⟨b, hb, hrb⟩ := exists_removeMin (A := A.set a (A.get a).kill) (n := n) (List.ne_nil_of_length_pos (by omega))
  refine ⟨a, b, ha, hb, fun fuel => ?_⟩
  have hab : a ≠ b := (mem_liveSet_kill.mp hb.1).2.symm
  rw [mergeLoop, if_neg (Nat.not_le.mpr h)]
  simp only [hra, hrb, merged, arena_get_set, if_neg hab, if_neg hab.symm, if_true, Node.freq_kill]

/-- L after the turn: the new node, and all but the two merged. -/
theorem mem_liveSet_merged {j : NodeIx} :
    j ∈ liveSet (merged A n a b) (n + 1) ↔ j.val = n ∨ j ∈ liveSet A n ∧ j ≠ a ∧ j ≠ b := by
  rw [mem_liveSet, mem_liveSet]
  rcases Nat.lt_trichotomy j.val n with hlt | heq | hgt
  · rw [merged_get_live hlt]
    simp [hlt, hlt.ne, Nat.lt_succ_of_lt hlt]
  · simp [merged_get_new A a b heq, heq, Node.live]
  · simp [hgt.ne', hgt.not_gt, Nat.not_lt.mpr (Nat.succ_le_of_lt hgt)]

end

/-- Settles O30: a turn of the loop by its two removals, and the arena it leaves entry by entry. -/
theorem mergeTakesTheTwoLeast : Obligations.MergeTakesTheTwoLeast := by
  intro fuel n A _ h
  obtain ⟨a, b, ⟨ha, hmin⟩, hb, hloop⟩ := mergeLoop_least h
  obtain ⟨⟨hbL, hba⟩, hmin'⟩ := leastLive_kill.mp hb
  refine ⟨a, b, ha, hbL, hba.symm, hmin, hmin', merged A n a b, hloop fuel, fun j => merged_get_new A a b,
    fun j hj => ?_, fun j => mem_liveSet_merged⟩
  rw [merged_get, if_neg hj.ne']

/-! ### The tree -/

/-- Settles O26: the forest the merge loop keeps has become one tree. -/
theorem treeShape : Obligations.TreeShape := fun s h => ⟨treeRule s, exec_tree s, treeOk_treeRule h⟩

/-- Settles O27: the weights the merge loop keeps, at the end of the loop. -/
theorem treeFrequencies : Obligations.TreeFrequencies := fun s h => ⟨treeRule s, exec_tree s, treeFreqOk_treeRule h⟩

/-- Settles O29: with K = 1 entry 0 is a leaf by the shape, and the root, which has freq TOTAL. -/
theorem treeOfOneSymbol : Obligations.TreeOfOneSymbol := by
  intro s h hk
  have hshape := treeOk_treeRule h
  have hfreq := treeFreqOk_treeRule h
  have hk1 : (treeRule s).work.k.toNat = 1 := congrArg BitVec.toNat hk
  have hroot : (treeRule s).work.root = 0 := Fin.ext (by rw [hshape.root, hk1]; rfl)
  have hnnode : (treeRule s).work.nnode = 1 := BitVec.eq_of_toNat_eq (by rw [hshape.nnode, hk1]; rfl)
  obtain ⟨r, v, -, hleaf⟩ := hshape.leaves 0 (by rw [hk1]; exact Nat.one_pos)
  have htotal : r.2 = s.work.total := by
    have hrootFreq := hfreq.root
    rwa [hroot, hleaf] at hrootFreq
  have hcount : r.2 = freqAt s.work.freq r.1 := hfreq.leaf 0 _ _ _ (Fin.zero_le _) hleaf
  exact ⟨treeRule s, r.1, v, exec_tree s, htotal ▸ hleaf, hcount.symm.trans htotal, hnnode, hroot⟩

/-! ### A function of FREQ alone -/

section

variable {s s' : State} (h : FreqOk s.work) (h' : FreqOk s'.work) (hfreq : s.work.freq = s'.work.freq)
include h h' hfreq

/-- K is the number of symbols present. -/
theorem k_eq_of_freq_eq : s'.work.k = s.work.k :=
  BitVec.eq_of_toNat_eq (by rw [← h.distinct, ← h'.distinct, hfreq])

theorem treeRule_nnode_eq : (treeRule s').work.nnode = (treeRule s).work.nnode := by
  have hk : (treeRule s').work.k = (treeRule s).work.k := (k_eq_of_freq_eq h h' hfreq :)
  exact BitVec.eq_of_toNat_eq (by rw [(treeOk_treeRule h).nnode, (treeOk_treeRule h').nnode, hk])

theorem treeRule_root_eq : (treeRule s').work.root = (treeRule s).work.root := by
  have hk : (treeRule s').work.k = (treeRule s).work.k := (k_eq_of_freq_eq h h' hfreq :)
  exact Fin.ext (by rw [(treeOk_treeRule h).root, (treeOk_treeRule h').root, hk])

/-- The two arenas agree on every entry in use. -/
theorem treeRule_arenaTwin :
    ∃ n, ArenaTwin (treeRule s).work.node (treeRule s').work.node n ∧ (treeRule s).work.nnode.toNat ≤ n := by
  obtain ⟨-, htwin⟩ := buildTree_twin s.work.freq s.work.node s'.work.node
  rw [h.distinct] at htwin
  have hnode : (treeRule s').work.node = (buildTree s.work.freq s.work.k.toNat s'.work.node).1 := by
    rw [← k_eq_of_freq_eq h h' hfreq, hfreq]
    rfl
  refine ⟨_, hnode ▸ htwin, ?_⟩
  show (BitVec.ofNat 10 _).toNat ≤ _
  rw [BitVec.toNat_ofNat]
  exact Nat.mod_le _ _

theorem treeRule_treeTwin : TreeTwin (treeRule s).work (treeRule s').work := by
  obtain ⟨n, htwin, hn⟩ := treeRule_arenaTwin h h' hfreq
  have hshape := treeOk_treeRule h
  have hk : 1 ≤ (treeRule s).work.k.toNat := h.one_le
  refine ⟨treeRule_root_eq h h' hfreq, n, htwin, Nat.lt_of_lt_of_le ?_ hn⟩
  rw [hshape.root, hshape.nnode]
  omega

end

/-- Settles O28: NNODE and ROOT by K, the entries in use because no turn of the loop reads beyond them. -/
theorem treeIsAFunctionOfFreq : Obligations.TreeIsAFunctionOfFreq := by
  intro s s' h h' hfreq
  obtain ⟨n, htwin, hn⟩ := treeRule_arenaTwin h h' hfreq
  exact ⟨treeRule s, treeRule s', exec_tree s, exec_tree s', (treeRule_nnode_eq h h' hfreq).symm,
    (treeRule_root_eq h h' hfreq).symm, fun i hi => (htwin.same i (Nat.lt_of_lt_of_le hi hn)).symm⟩

/-- Settles O35: CODE reads nothing but the tree. -/
theorem codeIsAFunctionOfFreq : Obligations.CodeIsAFunctionOfFreq := by
  intro s s' h h' hfreq
  exact ⟨treeRule s, treeRule s', codeRule (treeRule s), codeRule (treeRule s'), exec_tree s, exec_tree s',
    exec_code _, exec_code _, (codeTable_twin (treeRule_treeTwin h h' hfreq)).symm⟩

/-! ### Completion -/

/-- Settles O25: neither rule has a branch that ends early, and each writes its own operands and PHASE. -/
theorem treeAndCodeComplete : Obligations.TreeAndCodeComplete := fun s =>
  ⟨⟨_, _, _, exec_tree s⟩, _, exec_code s⟩

end Sys2Proof.Machine
end

section
/-! The code table at the end of CODE (42_code_table_generator.md R95 to R97): every leaf of the tree has one path, the code
words are these paths, and every infinite walk from the root ends at one leaf. -/

namespace Sys2Proof.Machine

/-! ### Paths -/

section

variable {A : Arena} {root : NodeIx}

/-- The last edge of a path. -/
theorem pathTo_snoc {c : NodeIx} {p : Bits} {b : Bool} :
    PathTo A root c (p ++ [b]) ↔
      ∃ i f l r v, PathTo A root i p ∧ A.get i = .internal f l r v ∧ c = if b then r else l := by
  constructor
  · generalize hq : p ++ [b] = q
    intro h
    cases h with
    | root => simp at hq
    | left hp hg =>
      obtain ⟨rfl, hb⟩ := List.append_inj' hq rfl
      cases hb
      exact ⟨_, _, _, _, _, hp, hg, rfl⟩
    | right hp hg =>
      obtain ⟨rfl, hb⟩ := List.append_inj' hq rfl
      cases hb
      exact ⟨_, _, _, _, _, hp, hg, rfl⟩
  · rintro ⟨i, f, l, r, v, hp, hg, rfl⟩
    cases b with
    | false => exact hp.left hg
    | true => exact hp.right hg

/-- A path leads to one node. -/
theorem PathTo.node_unique {i j : NodeIx} {p : Bits} (hi : PathTo A root i p) (hj : PathTo A root j p) : i = j := by
  induction p using List.reverseRecOn generalizing i j with
  | nil => rw [hi.eq_root rfl, hj.eq_root rfl]
  | append_singleton p b ih =>
    obtain ⟨i', f, l, r, v, hi', hg, rfl⟩ := pathTo_snoc.mp hi
    obtain ⟨j', f', l', r', v', hj', hg', rfl⟩ := pathTo_snoc.mp hj
    rw [ih hi' hj', hg'] at hg
    cases hg
    rfl

/-- A path goes through the node each of its prefixes leads to. -/
theorem PathTo.exists_of_append {j : NodeIx} {p q : Bits} (h : PathTo A root j (p ++ q)) :
    ∃ i, PathTo A root i p ∧ PathTo A i j q := by
  induction q using List.reverseRecOn generalizing j with
  | nil => exact ⟨j, by simpa using h, .root⟩
  | append_singleton q b ih =>
    rw [← List.append_assoc] at h
    obtain ⟨j', f, l, r, v, hj', hg, hj⟩ := pathTo_snoc.mp h
    obtain ⟨i, hi, hq⟩ := ih hj'
    exact ⟨i, hi, pathTo_snoc.mpr ⟨j', f, l, r, v, hq, hg, hj⟩⟩

/-- A leaf is no ancestor: a path that begins with a leaf's path leads to that leaf. -/
theorem PathTo.eq_of_leaf_prefix {i j : NodeIx} {p q : Bits} {f : Word} {sym : Byte} {v : Bool} (hi : PathTo A root i p)
    (hg : A.get i = .leaf f sym v) (hj : PathTo A root j q) (hpq : p <+: q) : j = i := by
  obtain ⟨d, rfl⟩ := hpq
  obtain ⟨i', hi', hd⟩ := hj.exists_of_append
  cases hi.node_unique hi'
  exact hd.eq_root_of_leaf hg

end

/-! ### The leaves and paths of the tree -/

section

variable {w : Scratch} (h : TreeOk w)
include h

theorem TreeOk.pathTo_le {i : NodeIx} {p : Bits} (hp : PathTo w.node w.root i p) : i.val + p.length ≤ w.root.val :=
  (h.layered.pathTo_bound (Nat.lt_succ_self _) hp).1

theorem TreeOk.le_root {i : NodeIx} {p : Bits} (hp : PathTo w.node w.root i p) : i ≤ w.root :=
  Fin.le_def.mpr (Nat.le_of_add_right_le (h.pathTo_le hp))

/-- A node has one path: its parent is one node, and the two children of a node differ. -/
theorem TreeOk.path_unique {i : NodeIx} {p q : Bits} (hp : PathTo w.node w.root i p) (hq : PathTo w.node w.root i q) :
    p = q := by
  induction p using List.reverseRecOn generalizing i q with
  | nil =>
    have hlen := h.pathTo_le hq
    rw [hp.eq_root rfl] at hlen
    exact (List.length_eq_zero_iff.mp (by omega)).symm
  | append_singleton p b ih =>
    have hlen := h.pathTo_le hp
    rw [List.length_append, List.length_singleton] at hlen
    have hlt : i < w.root := Fin.lt_def.mpr (by omega)
    cases q using List.reverseRecOn with
    | nil => exact absurd (hq.eq_root rfl) hlt.ne
    | append_singleton q c =>
      obtain ⟨j, f, l, r, v, hj, hg, hi⟩ := pathTo_snoc.mp hp
      obtain ⟨j', f', l', r', v', hj', hg', hi'⟩ := pathTo_snoc.mp hq
      have hchild : IsChild w.node i j := ⟨f, l, r, v, hg, by rw [hi]; cases b <;> simp⟩
      have hchild' : IsChild w.node i j' := ⟨f', l', r', v', hg', by rw [hi']; cases c <;> simp⟩
      cases (h.owned i hlt).unique ⟨h.le_root hj, hchild⟩ ⟨h.le_root hj', hchild'⟩
      cases hg.symm.trans hg'
      obtain ⟨f', l', r', v', hg', -, -, hne⟩ := h.inner j (h.layered.le_of_internal hg) (h.le_root hj)
      cases hg.symm.trans hg'
      have hbit : Function.Injective fun b : Bool => if b then r else l := Bool.injective_iff.mpr hne
      rw [ih hj hj', hbit (hi.symm.trans hi')]

/-- The leaves are the entries of `present`, in its order. -/
theorem TreeOk.present_of_leaf {i : NodeIx} {f : Word} {sym : Byte} {v : Bool} (hi : i ≤ w.root)
    (hg : w.node.get i = .leaf f sym v) : (present w.freq)[i.val]? = some (sym, f) := by
  obtain ⟨q, v', hq, hg'⟩ := h.leaves i (h.layered.lt_of_leaf (Nat.lt_succ_of_le hi) hg)
  cases hg.symm.trans hg'
  exact hq

theorem TreeOk.freqAt_of_leaf {i : NodeIx} {f : Word} {sym : Byte} {v : Bool} (hi : i ≤ w.root)
    (hg : w.node.get i = .leaf f sym v) : freqAt w.freq sym ≠ 0 := by
  obtain ⟨heq, hne⟩ := (mem_present _ _ _).mp (List.mem_of_getElem? (h.present_of_leaf hi hg))
  rwa [heq]

/-- A symbol has one leaf. -/
theorem TreeOk.leaf_unique {i j : NodeIx} {f f' : Word} {sym : Byte} {v v' : Bool} (hi : i ≤ w.root) (hj : j ≤ w.root)
    (hgi : w.node.get i = .leaf f sym v) (hgj : w.node.get j = .leaf f' sym v') : i = j := by
  have hpi := congrArg (Option.map Prod.fst) (h.present_of_leaf hi hgi)
  have hpj := congrArg (Option.map Prod.fst) (h.present_of_leaf hj hgj)
  rw [← List.getElem?_map] at hpi hpj
  exact Fin.ext ((List.getElem?_inj (List.getElem?_eq_some_iff.mp hpi).1 (present_nodup w.freq)).mp (hpi.trans hpj.symm))

/-- With two symbols or more the root is an internal node. -/
theorem TreeOk.root_internal (hk : 2 ≤ w.k.toNat) : ∃ f l r v, w.node.get w.root = .internal f l r v := by
  obtain ⟨f, l, r, v, hg, -⟩ := h.inner w.root (by rw [h.root]; omega) le_rfl
  exact ⟨f, l, r, v, hg⟩

/-- A symbol present has a leaf in the tree. -/
theorem TreeOk.exists_leaf (hf : FreqOk w) {sym : Byte} (hsym : freqAt w.freq sym ≠ 0) :
    ∃ i f v p, w.node.get i = .leaf f sym v ∧ PathTo w.node w.root i p := by
  have hk1 := hf.one_le
  have hroot := h.root
  have hlt := w.root.isLt
  obtain ⟨j, hj⟩ := List.mem_iff_getElem?.mp ((mem_present w.freq sym _).mpr ⟨rfl, hsym⟩)
  obtain ⟨hjk, -⟩ := List.getElem?_eq_some_iff.mp hj
  rw [hf.distinct] at hjk
  have hjr : j ≤ w.root.val := by omega
  obtain ⟨q, v, hq, hg⟩ := h.leaves ⟨j, by omega⟩ hjk
  cases hq.symm.trans hj
  obtain ⟨p, hp⟩ := h.exists_pathTo ⟨j, by omega⟩ (Fin.le_def.mpr hjr)
  exact ⟨_, _, v, p, hg, hp⟩

/-- Every infinite bit sequence leads from the root to a leaf: every internal node has both children, and they stand below
it. -/
theorem TreeOk.exists_leaf_along (f : Nat → Bool) {i : NodeIx} {n : Nat}
    (hp : PathTo w.node w.root i ((List.range n).map f)) :
    ∃ j c sym v m, w.node.get j = .leaf c sym v ∧ PathTo w.node w.root j ((List.range m).map f) := by
  induction i using WellFoundedLT.induction generalizing n with
  | ind i ih =>
    cases hg : w.node.get i with
    | leaf c sym v => exact ⟨i, c, sym, v, n, hg, hp⟩
    | internal c l r v =>
      have hnext : PathTo w.node w.root (if f n then r else l) ((List.range (n + 1)).map f) := by
        rw [List.range_succ, List.map_append, List.map_singleton]
        exact pathTo_snoc.mpr ⟨i, c, l, r, v, hp, hg, rfl⟩
      have hchild : IsChild w.node (if f n then r else l) i := ⟨c, l, r, v, hg, by cases f n <;> simp⟩
      exact ih _ (h.layered.child_lt (Nat.lt_succ_of_le (h.le_root hp)) hchild) hnext

end

/-! ### The table -/

theorem codeAt_codeTable_of_leaf {A : Arena} {root : NodeIx} {f : Word} {sym : Byte} {v : Bool}
    (hroot : A.get root = .leaf f sym v) (u : Byte) :
    codeAt (codeTable A root) u = if u = sym then [false] else [] := by
  simp [codeTable, hroot, codeAt_codePut, eq_comm]

theorem codeTable_of_internal {A : Arena} {root : NodeIx} {f : Word} {l r : NodeIx} {v : Bool}
    (hroot : A.get root = .internal f l r v) :
    codeTable A root = (leafPaths A (Config.maxlen + 1) root []).foldl (fun c e => codePut c e.1 e.2) codeEmpty := by
  rw [codeTable, hroot]

/-- A symbol to which nothing is written keeps its entry. -/
theorem codeAt_foldl_codePut_of_notMem {L : List (Byte × Bits)} {sym : Byte} (h : ∀ p, (sym, p) ∉ L) (t : CodeTable) :
    codeAt (L.foldl (fun c e => codePut c e.1 e.2) t) sym = codeAt t sym := by
  induction L generalizing t with
  | nil => rfl
  | cons e L ih =>
    rw [List.foldl_cons, ih (fun p hp => h p (List.mem_cons_of_mem _ hp)), codeAt_codePut, if_neg]
    rintro rfl
    exact h e.2 List.mem_cons_self

/-- A symbol with count 0 has no code word. -/
theorem codeAt_codeTable_of_absent {w : Scratch} (h : TreeOk w) {sym : Byte} (hsym : freqAt w.freq sym = 0) :
    codeAt (codeTable w.node w.root) sym = [] := by
  cases hroot : w.node.get w.root with
  | leaf f sym' v =>
    rw [codeAt_codeTable_of_leaf hroot, if_neg]
    rintro rfl
    exact h.freqAt_of_leaf le_rfl hroot hsym
  | internal f l r v =>
    rw [codeTable_of_internal hroot, codeAt_foldl_codePut_of_notMem, codeAt_codeEmpty]
    intro p hp
    obtain ⟨j, f, v, hg, hj⟩ := mem_leafPaths .root hp
    exact h.freqAt_of_leaf (h.le_root hj) hg hsym

section

variable {w : Scratch} (hf : FreqOk w) (h : TreeOk w)
include hf h

/-- When the root is an internal node the code word of a leaf's symbol is the leaf's path. -/
theorem codeAt_codeTable_of_path {f₀ : Word} {l r : NodeIx} {v₀ : Bool} (hroot : w.node.get w.root = .internal f₀ l r v₀)
    {i : NodeIx} {f : Word} {sym : Byte} {v : Bool} {p : Bits} (hg : w.node.get i = .leaf f sym v)
    (hp : PathTo w.node w.root i p) : codeAt (codeTable w.node w.root) sym = p := by
  have hdepth := h.depth i p hp (by rw [hg]; rfl)
  have hk : w.k.toNat ≤ 256 := hf.le_maxk
  have hmem := mem_leafPaths_of_pathTo hp hg (d := Config.maxlen + 1) (by rw [Config.maxlen]; omega)
  have hcode := mem_of_codePut_foldl hmem codeEmpty
  rw [← codeTable_of_internal hroot] at hcode
  obtain ⟨j, f', v', hg', hj⟩ := mem_leafPaths .root hcode
  cases h.leaf_unique (h.le_root hp) (h.le_root hj) hg hg'
  exact h.path_unique hj hp

theorem one_le_length_codeTable_iff (sym : Byte) :
    1 ≤ (codeAt (codeTable w.node w.root) sym).length ↔ freqAt w.freq sym ≠ 0 := by
  refine ⟨fun hlen habs => ?_, fun hsym => (codeTable_length hf h hsym).1⟩
  rw [codeAt_codeTable_of_absent h habs] at hlen
  cases hlen

theorem length_codeTable_le (sym : Byte) :
    (codeAt (codeTable w.node w.root) sym).length ≤ max 1 (w.k.toNat - 1) := by
  by_cases hsym : freqAt w.freq sym = 0
  · rw [codeAt_codeTable_of_absent h hsym]
    exact Nat.zero_le _
  · obtain ⟨i, f, v, p, hg, hp⟩ := h.exists_leaf hf hsym
    rcases codeTable_cases h (h.le_root hp) hg hf.le_maxk with hone | ⟨⟨j, f', v', hgj, hj⟩, -⟩
    · rw [hone]
      exact le_max_left _ _
    · exact (h.depth j _ hj (by rw [hgj]; rfl)).trans (le_max_right _ _)

/-- No code word is a prefix of another symbol's: at a root that is a leaf there is one symbol, elsewhere a leaf is no
ancestor. -/
theorem eq_of_codeTable_prefix {sym sym' : Byte} (hsym : freqAt w.freq sym ≠ 0) (hsym' : freqAt w.freq sym' ≠ 0)
    (hpre : codeAt (codeTable w.node w.root) sym <+: codeAt (codeTable w.node w.root) sym') : sym = sym' := by
  obtain ⟨i, f, v, p, hg, hp⟩ := h.exists_leaf hf hsym
  obtain ⟨j, f', v', q, hg', hq⟩ := h.exists_leaf hf hsym'
  have hij : j = i := by
    cases hroot : w.node.get w.root with
    | leaf => rw [hp.eq_root_of_leaf hroot, hq.eq_root_of_leaf hroot]
    | internal =>
      rw [codeAt_codeTable_of_path hf h hroot hg hp, codeAt_codeTable_of_path hf h hroot hg' hq] at hpre
      exact hp.eq_of_leaf_prefix hg hq hpre
  cases hij
  cases hg.symm.trans hg'
  rfl

end

/-! ### CODE -/

/-- Settles O33: the code words of the symbols present are the paths of their leaves, or the one bit of R96. -/
theorem codeIsPrefixFree : Obligations.CodeIsPrefixFree := by
  intro s t hf h hst
  cases (exec_code s).symm.trans hst
  refine ⟨one_le_length_codeTable_iff hf h, fun sym => ⟨length_codeTable_le hf h sym, ?_⟩,
    fun sym sym' hne hsym hsym' hpre => hne (eq_of_codeTable_prefix hf h hsym hsym' hpre)⟩
  have hk : s.work.k.toNat ≤ 256 := hf.le_maxk
  exact (length_codeTable_le hf h sym).trans (max_le (by decide) (by rw [Config.maxlen]; omega))

/-- Settles O31: the walk gives each leaf's symbol the path to a leaf of that symbol, and a symbol has one leaf, a leaf one
path. -/
theorem codeWordsArePaths : Obligations.CodeWordsArePaths := by
  intro s t hf h hk hst
  cases (exec_code s).symm.trans hst
  obtain ⟨f₀, l, r, v₀, hroot⟩ := h.root_internal hk
  exact ⟨fun i f sym v p _ hg hp => codeAt_codeTable_of_path hf h hroot hg hp,
    fun sym hsym => codeAt_codeTable_of_absent h hsym⟩

/-- Settles O32: CODE's branch for a root that is a leaf. -/
theorem codeOfOneSymbol : Obligations.CodeOfOneSymbol := by
  intro s t f sym v hroot hst
  cases (exec_code s).symm.trans hst
  exact codeAt_codeTable_of_leaf hroot

/-- Of two beginnings of an infinite sequence one is a prefix of the other. -/
theorem map_range_prefix_total (f : Nat → Bool) (a b : Nat) :
    (List.range a).map f <+: (List.range b).map f ∨ (List.range b).map f <+: (List.range a).map f := by
  have hprefix {a b : Nat} (hab : a ≤ b) : (List.range a).map f <+: (List.range b).map f := by
    rw [← Nat.add_sub_cancel' hab, List.range_add, List.map_append]
    exact List.prefix_append _ _
  exact (le_total a b).imp hprefix hprefix

/-- Settles O34: the sequence leads to a leaf, and of two code words that begin it one is a prefix of the other. -/
theorem codeIsComplete : Obligations.CodeIsComplete := by
  intro s t hf h hk hst f
  cases (exec_code s).symm.trans hst
  obtain ⟨f₀, l, r, v₀, hroot⟩ := h.root_internal hk
  obtain ⟨j, c, sym, v, m, hg, hj⟩ := h.exists_leaf_along f (n := 0) .root
  have hcode : codeAt (codeRule s).work.code sym = (List.range m).map f := codeAt_codeTable_of_path hf h hroot hg hj
  have hsym : freqAt s.work.freq sym ≠ 0 := h.freqAt_of_leaf (h.le_root hj) hg
  refine ⟨sym, ⟨hsym, by simp [hcode]⟩, fun sym' ⟨hsym', hcode'⟩ => ?_⟩
  rcases map_range_prefix_total f (codeAt (codeRule s).work.code sym').length m with hpre | hpre <;>
    rw [← hcode, ← hcode'] at hpre
  · exact eq_of_codeTable_prefix hf h hsym' hsym hpre
  · exact (eq_of_codeTable_prefix hf h hsym hsym' hpre).symm

end Sys2Proof.Machine
end

section
/-! The length of a header (43_header_codec.md R101). -/

namespace Sys2Proof

theorem length_flatMap_encodeRecord (rs : List Record) : (rs.flatMap encodeRecord).length = 5 * rs.length := by
  simp [List.length_flatMap, Nat.mul_comm]

theorem encodeHeader_length (h : Header) : (encodeHeader h).length = 5 * h.records.length + 8 := by
  simp only [encodeHeader, List.length_append, be_length, length_flatMap_encodeRecord]
  omega

theorem drop_encodeHeader (h : Header) (payload : List Byte) :
    (encodeHeader h ++ payload).drop (5 * h.records.length + 8) = payload :=
  List.drop_left' (encodeHeader_length h)

/-- Settles O7: a record has 5 bytes and each of the two fields 4; the payload is what is left when they are dropped. -/
theorem headerLength : Obligations.HeaderLength := by
  refine fun h => ⟨?_, encodeHeader_length h, fun payload q => ?_⟩
  · rw [encodeHeader_length]
    simp only [Config.cw]
    omega
  · rw [← List.getElem?_drop, drop_encodeHeader]

end Sys2Proof
end

section
/-! HDRR reads the container as the header decoder does (43_header_codec.md R102): what it has not read yet is a suffix of
the input, each part of the rule takes off the bytes that its part of the decoder does, and their errors agree. -/

namespace Sys2Proof.Machine

/-- What the scratch state held before an error does not matter. -/
@[simp] theorem State.raise_setWork (s : State) (w : Scratch) (e : ErrCode) : (s.setWork w).raise e = s.raise e := rfl

@[simp] theorem State.raise_setIptr (s : State) (v : Nat) (e : ErrCode) : (s.setIptr v).raise e = s.raise e := rfl

/-! ### The unread input -/

/-- The bytes of the input that HDRR has not read yet (43_header_codec.md R102). -/
def State.unread (s : State) : List Byte := s.input.drop s.work.iptr.toNat

theorem State.unread_length (s : State) : s.unread.length = s.inLen.toNat - s.work.iptr.toNat := by simp [State.unread]

theorem State.inBytes_eq_take_drop {s : State} {a n : Nat} (h : a + n ≤ s.inLen.toNat) :
    s.inBytes a n = (s.input.drop a).take n := by
  refine List.ext_getElem (by simp; omega) fun i _ _ => ?_
  simp [State.input, State.inBytes]

theorem State.inBytes_to_end (s : State) (a : Nat) : s.inBytes a (s.inLen.toNat - a) = s.input.drop a := by
  rcases Nat.le_total a s.inLen.toNat with h | h
  · rw [State.inBytes_eq_take_drop (by omega), List.take_of_length_le (by simp)]
  · rw [Nat.sub_eq_zero_of_le h, List.drop_of_length_le (by simpa using h)]
    rfl

/-- `MemRead` of an integer field that stands next in the input. -/
theorem memRead_field {s : State} (hin : s.inLen.toNat ≤ s.cfg.inCap.toNat) {a v : Nat} {C : List Byte}
    (h : s.input.drop a = be v ++ C) (k : List Byte → Run) : memRead s a Config.cw k = k (be v) := by
  have hlen : s.inLen.toNat - a = 4 + C.length := by simpa using congrArg List.length h
  have hread : s.inBytes a 4 = be v := by
    rw [State.inBytes_eq_take_drop (by omega), h, ← be_length v, List.take_left]
  rw [memRead_ok (by rw [Config.cw]; omega), hread]

theorem memReadByte_of_drop {s : State} (hin : s.inLen.toNat ≤ s.cfg.inCap.toNat) {a : Nat} {b : Byte} {C : List Byte}
    (h : s.input.drop a = b :: C) (k : Byte → Run) : memReadByte s a k = k b := by
  have hlen : s.inLen.toNat - a = C.length + 1 := by simpa using congrArg List.length h
  have hb : s.inBytes a 1 = [b] := by rw [State.inBytes_eq_take_drop (by omega), h]; rfl
  rw [memReadByte_ok (by omega), show s.inByte a = b from List.head_eq_of_cons_eq hb]

theorem need_short {s : State} {m : Nat} (h : s.unread.length < m) (k : Run) : need m s k = .ended (s.raise .hdrTrunc) :=
  if_pos (by rwa [← State.unread_length])

theorem need_ok {s : State} {m : Nat} (h : m ≤ s.unread.length) (k : Run) : need m s k = k :=
  if_neg (by rw [← State.unread_length]; exact Nat.not_lt.mpr h)

/-- IPTR moved over the next bytes leaves those after them. -/
theorem State.unread_setWork {s : State} {w : Scratch} {B C : List Byte} (h : s.unread = B ++ C)
    (hw : w.iptr = s.work.iptr + BitVec.ofNat 64 B.length) : (s.setWork w).unread = C := by
  have hlen : s.inLen.toNat - s.work.iptr.toNat = B.length + C.length := by
    rw [← State.unread_length, h, List.length_append]
  have hip : w.iptr.toNat = s.work.iptr.toNat + B.length := by
    have := s.inLen.isLt
    rw [hw, BitVec.toNat_add, BitVec.toNat_ofNat]
    omega
  rw [State.unread, State.input_setWork, State.setWork_work, hip, ← List.drop_drop, ← State.unread, h, List.drop_left]

/-! ### The record loop -/

/-- The sum of the counts of some records (30_encoding.md R66). -/
def countSum (rs : List Record) : Nat := (rs.map fun r => r.count.toNat).sum

/-- The counts of at most MAXK records fit SUM. -/
theorem countSum_lt {rs : List Record} (h : rs.length ≤ Config.maxk) : countSum rs < 2 ^ 40 := by
  have hle := List.sum_le_card_nsmul (rs.map fun r => r.count.toNat) (2 ^ 32 - 1) fun n hn => by
    obtain ⟨r, -, rfl⟩ := List.mem_map.mp hn
    have := r.count.isLt
    omega
  have hmax : rs.length ≤ 256 := h
  simp only [List.length_map, smul_eq_mul] at hle
  rw [countSum]
  omega

/-- FREQ with the counts of some records put in. -/
def putRecords (f : FreqTable) (rs : List Record) : FreqTable := rs.foldl (fun f r => freqPut f r.sym r.count) f

/-- The scratch state once HDRR's loop has read some more records (43_header_codec.md R102). -/
def Scratch.withRecords (w : Scratch) (rs : List Record) : Scratch :=
  { w with
    freq := putRecords w.freq rs
    sum := w.sum + BitVec.ofNat 40 (countSum rs)
    iptr := w.iptr + BitVec.ofNat 64 (5 * rs.length) }

theorem Scratch.withRecords_nil (w : Scratch) : w.withRecords [] = w := by
  simp [Scratch.withRecords, putRecords, countSum]

theorem Scratch.withRecords_cons (w : Scratch) (r : Record) (rs : List Record) :
    w.withRecords (r :: rs) = (w.withRecords [r]).withRecords rs := by
  have hlen : 5 * (rs.length + 1) = 5 + 5 * rs.length := by omega
  simp [Scratch.withRecords, putRecords, countSum, hlen, BitVec.ofNat_add, BitVec.add_assoc]

/-- One record's part of HDRR's loop, as its rule writes it. -/
theorem Scratch.withRecords_singleton (w : Scratch) (r : Record) :
    w.withRecords [r] =
      { w with
        freq := freqPut w.freq r.sym r.count
        sum := BitVec.ofNat 40 (w.sum.toNat + r.count.toNat)
        iptr := BitVec.ofNat 64 (w.iptr.toNat + 1 + Config.cw) } := by
  simp [Scratch.withRecords, putRecords, countSum, BitVec.ofNat_add, BitVec.add_assoc, Config.cw]

theorem unread_withRecords {s : State} {rs : List Record} {C : List Byte}
    (h : s.unread = rs.flatMap encodeRecord ++ C) : (s.setWork (s.work.withRecords rs)).unread = C :=
  State.unread_setWork h (by rw [length_flatMap_encodeRecord]; rfl)

/-- One turn of the loop on the encoding of a record: the checks of `decodeRecords_encodeRecord`. -/
theorem readRecord_encodeRecord {s : State} (hin : s.inLen.toNat ≤ s.cfg.inCap.toNat) {r : Record} {C : List Byte}
    (h : s.unread = encodeRecord r ++ C) :
    readRecord s =
      if r.count = 0 ∨ freqAt s.work.freq r.sym ≠ 0 then .ended (s.raise .hdrBad)
      else .going (s.setWork (s.work.withRecords [r])) := by
  have hsym : s.input.drop s.work.iptr.toNat = r.sym :: (be r.count.toNat ++ C) := h
  have hcount : s.input.drop (s.work.iptr.toNat + 1) = be r.count.toNat ++ C := by
    rw [← List.drop_drop, hsym, List.drop_one, List.tail_cons]
  have hz : r.count.toNat = 0 ↔ r.count = 0 := BitVec.toNat_inj (y := 0)
  rw [readRecord, need_ok (by simp [h, Config.cw]), memReadByte_of_drop hin hsym,
    memRead_field hin hcount, ube_be_of_lt r.count.isLt, Scratch.withRecords_singleton]
  by_cases hc : r.count = 0#32
  · simp [hc]
  · by_cases hs : freqAt s.work.freq r.sym = 0#32 <;> simp [hz, hc, hs, State.setIptr]

theorem readRecord_short {s : State} (h : s.unread.length < 1 + Config.cw) :
    readRecord s = .ended (s.raise .hdrTrunc) := need_short h _

/-! ### The loop and the decoder's records -/

/-- A part of the rule that decodes: its error is raised, on what it decodes the rule goes on. -/
def State.orRaise {α : Type} (s : State) (x : Except ErrCode α) (k : α → Run) : Run :=
  match x with
  | .ok a => k a
  | .error e => .ended (s.raise e)

@[simp] theorem State.orRaise_ok {α : Type} (s : State) (a : α) (k : α → Run) : s.orRaise (.ok a) k = k a := rfl
@[simp] theorem State.orRaise_error {α : Type} (s : State) (e : ErrCode) (k : α → Run) :
    s.orRaise (.error e) k = .ended (s.raise e) := rfl

/-- A symbol has a count other than 0 once a record of it is put in, and no other does. -/
theorem freqAt_withRecords_singleton_ne_zero {w : Scratch} {r : Record} (hc : r.count ≠ 0) (b : Byte) :
    freqAt (w.withRecords [r]).freq b ≠ 0 ↔ b = r.sym ∨ freqAt w.freq b ≠ 0 := by
  rw [Scratch.withRecords_singleton, freqAt_freqPut]
  by_cases h : r.sym = b
  · simpa [h] using hc
  · simp [h, Ne.symm h]

/-- HDRR's record loop is the decoder's, the symbols seen being those with an entry in FREQ. -/
theorem readRecords_eq {n : Nat} {s : State} {seen : List Byte} (hin : s.inLen.toNat ≤ s.cfg.inCap.toNat)
    (hseen : ∀ b, b ∈ seen ↔ freqAt s.work.freq b ≠ 0) :
    readRecords n s =
      s.orRaise (decodeRecords n s.unread seen) fun p => .going (s.setWork (s.work.withRecords p.1)) := by
  induction n generalizing s seen with
  | zero => rw [decodeRecords, State.orRaise_ok, Scratch.withRecords_nil]; rfl
  | succ n ih =>
    rw [readRecords]
    rcases Nat.lt_or_ge s.unread.length (1 + Config.cw) with hlen | hlen
    · rw [readRecord_short hlen, decodeRecords_short hlen]
      rfl
    · obtain ⟨r, C, hC⟩ := exists_encodeRecord_append hlen
      have hrest : (s.setWork (s.work.withRecords [r])).unread = C :=
        unread_withRecords (by rw [hC, List.flatMap_singleton])
      rw [readRecord_encodeRecord hin hC, hC, decodeRecords_encodeRecord]
      simp only [hseen]
      split
      · rfl
      · next hok =>
        obtain ⟨hc, -⟩ := not_or.mp hok
        have hseen' : ∀ b, b ∈ r.sym :: seen ↔ freqAt (s.work.withRecords [r]).freq b ≠ 0 := fun b => by
          rw [List.mem_cons, hseen, freqAt_withRecords_singleton_ne_zero hc]
        rw [Run.andThen_going, ih (s := s.setWork (s.work.withRecords [r])) hin hseen', hrest]
        cases decodeRecords n C (r.sym :: seen) with
        | error e => rfl
        | ok p => exact congrArg (fun w => Run.going (s.setWork w)) (s.work.withRecords_cons r p.1).symm

/-! ### The total -/

theorem readTotal_short {s : State} (h : s.unread.length < Config.cw) : readTotal s = .ended (s.raise .hdrTrunc) :=
  need_short h _

/-- The last field and its checks. -/
theorem readTotal_field {s : State} (hin : s.inLen.toNat ≤ s.cfg.inCap.toNat) {t : Word} {C : List Byte}
    (h : s.unread = be t.toNat ++ C) :
    readTotal s =
      if s.work.sum.toNat ≠ t.toNat then .ended (s.raise .hdrBad)
      else if t.toNat > s.cfg.outCap.toNat then .ended (s.raise .outOvf)
      else .going ((s.setWork { s.work with total := t, iptr := s.work.iptr + 4 }).setPhase .tree) := by
  rw [readTotal, need_ok (by simp [h, Config.cw]), memRead_field hin h, ube_be_of_lt t.isLt]
  simp [State.setIptr, BitVec.ofNat_add, Config.cw]

/-! ### HDRR -/

/-- The scratch state HDRR leaves for a header it accepts (43_header_codec.md R103). -/
def Scratch.loadHeader (w : Scratch) (h : Header) : Scratch :=
  { w with
    k := BitVec.ofNat 9 h.records.length
    freq := putRecords freqZero h.records
    sum := BitVec.ofNat 40 h.sum
    total := h.total
    iptr := BitVec.ofNat 64 (5 * h.records.length + 8) }

/-- The scratch state HDRR's loop over `n` records starts from (43_header_codec.md R102). -/
def Scratch.startRecords (w : Scratch) (n : Nat) : Scratch :=
  { w with k := BitVec.ofNat 9 n, freq := freqZero, sum := 0, iptr := BitVec.ofNat 64 Config.cw }

theorem Scratch.startRecords_sum_toNat (w : Scratch) (n : Nat) {rs : List Record} (h : rs.length ≤ Config.maxk) :
    ((w.startRecords n).withRecords rs).sum.toNat = countSum rs := by
  have hsum : ((w.startRecords n).withRecords rs).sum = BitVec.ofNat 40 (countSum rs) := BitVec.zero_add _
  rw [hsum, BitVec.toNat_ofNat, Nat.mod_eq_of_lt (countSum_lt h)]

/-- The loop and then the last field make `Scratch.loadHeader` of it. -/
theorem Scratch.startRecords_withRecords (w : Scratch) (h : Header) :
    { (w.startRecords h.records.length).withRecords h.records with
      total := h.total
      iptr := ((w.startRecords h.records.length).withRecords h.records).iptr + 4 } = w.loadHeader h := by
  have hip : 4#64 + BitVec.ofNat 64 (5 * h.records.length) + 4 = BitVec.ofNat 64 (5 * h.records.length + 8) := by
    rw [BitVec.ofNat_add, BitVec.add_comm 4#64, BitVec.add_assoc]
    rfl
  simp [Scratch.startRecords, Scratch.withRecords, Scratch.loadHeader, countSum, Header.sum, Config.cw, ← hip]

section

variable {s : State} (hin : s.inLen.toNat ≤ s.cfg.inCap.toNat) (hne : s.input ≠ [])

theorem hdrrRule_empty (h : s.input = []) : hdrrRule s = .ended (s.finish 0) := if_pos (s.input_eq_nil_iff.mp h)

include hne

theorem hdrrRule_short (hlen : s.input.length < Config.cw) : hdrrRule s = .ended (s.raise .hdrTrunc) :=
  (if_neg (mt s.input_eq_nil_iff.mpr hne)).trans (need_short (s := s.setIptr 0) hlen _)

include hin

/-- The first field and its checks. -/
theorem hdrrRule_field {n : Nat} (hn : n < 2 ^ 32) {C : List Byte} (h : s.input = be n ++ C) :
    hdrrRule s =
      if n = 0 then .ended (s.finish 0)
      else if n > Config.maxk then .ended (s.raise .hdrBad)
      else (readRecords n (s.setWork (s.work.startRecords n))).andThen readTotal := by
  have hlen : Config.cw ≤ (s.setIptr 0).unread.length := by
    show 4 ≤ s.input.length
    simp [h]
  rw [hdrrRule, if_neg (mt s.input_eq_nil_iff.mpr hne)]
  dsimp only
  rw [need_ok hlen, memRead_field (s := s.setIptr 0) (a := 0) hin h, ube_be_of_lt hn]
  rfl

end

/-- What HDRR does with a header that decodes (43_header_codec.md R102, R105). -/
def State.acceptHeader (s : State) (h : Header) : Run :=
  if h.records = [] then .ended (s.finish 0)
  else if h.total.toNat > s.cfg.outCap.toNat then .ended (s.raise .outOvf)
  else .going ((s.setWork (s.work.loadHeader h)).setPhase .tree)

/-- After the first field: the record loop and the last field, against the decoder's. -/
theorem readBody_eq {s : State} (hin : s.inLen.toNat ≤ s.cfg.inCap.toNat) {n : Nat} (h0 : n ≠ 0) (hn : n ≤ Config.maxk)
    {D : List Byte} (h : s.input = be n ++ D) :
    (readRecords n (s.setWork (s.work.startRecords n))).andThen readTotal =
      s.orRaise (decodeHeader (be n ++ D)) fun p => s.acceptHeader p.1 := by
  set u := s.setWork (s.work.startRecords n)
  have hu : u.unread = D := congrArg (List.drop 4) h
  have hloop := readRecords_eq (n := n) (s := u) (seen := []) hin fun b => by simp [u, Scratch.startRecords]
  rw [hloop, hu]
  cases hrec : decodeRecords n D [] with
  | error e =>
    rw [decodeHeader_records_error h0 hn hrec]
    rfl
  | ok p =>
    obtain ⟨rs, R⟩ := p
    obtain ⟨hlen, -, hR⟩ := decodeRecords_ok hrec
    have hrest : (u.setWork (u.work.withRecords rs)).unread = R := unread_withRecords (hu.trans hR)
    rw [State.orRaise_ok, Run.andThen_going]
    rcases Nat.lt_or_ge R.length Config.cw with hshort | hlong
    · rw [readTotal_short (hrest ▸ hshort), decodeHeader_total_short h0 hn hrec hshort]
      rfl
    obtain ⟨t, P, rfl⟩ := exists_be_append hlong
    let hdr : Header := ⟨rs, t⟩
    have hsum : (u.work.withRecords rs).sum.toNat = hdr.sum := s.work.startRecords_sum_toNat n (hlen ▸ hn)
    have hne : hdr.records ≠ [] := fun h => h0 (hlen ▸ List.length_eq_zero_iff.mpr h)
    rw [readTotal_field (s := u.setWork (u.work.withRecords rs)) (t := hdr.total) hin hrest,
      decodeHeader_total (h := hdr) h0 hn hrec, State.setWork_work, hsum]
    by_cases hs : hdr.sum = hdr.total.toNat
    · rw [if_neg (not_not.mpr hs), if_pos hs, State.orRaise_ok, State.acceptHeader, if_neg hne,
        ← Scratch.startRecords_withRecords, hlen]
      rfl
    · rw [if_pos hs, if_neg hs]
      rfl

section

variable {s : State} (hin : s.inLen.toNat ≤ s.cfg.inCap.toNat) (hne : s.input ≠ [])
include hin hne

/-- HDRR on a container that is not empty is the header decoder. -/
theorem hdrrRule_eq : hdrrRule s = s.orRaise (decodeHeader s.input) fun p => s.acceptHeader p.1 := by
  rcases Nat.lt_or_ge s.input.length Config.cw with hlen | hlen
  · rw [hdrrRule_short hne hlen, decodeHeader_short hlen]
    rfl
  obtain ⟨k, D, hD⟩ := exists_be_append hlen
  rw [hdrrRule_field hin hne k.isLt hD]
  by_cases h0 : k.toNat = 0
  · rw [if_pos h0, hD, h0, decodeHeader_zero]
    rfl
  rw [if_neg h0]
  rcases Nat.lt_or_ge Config.maxk k.toNat with hk | hk
  · rw [if_pos hk, hD, decodeHeader_too_many hk k.isLt]
    rfl
  · rw [if_neg (Nat.not_lt.mpr hk), readBody_eq hin h0 hk hD, hD]

theorem exec_hdrr_error {e : ErrCode} (h : decodeHeader s.input = .error e) : exec .hdrr s = .next (s.raise e) := by
  rw [exec_hdrr, hdrrRule_eq hin hne, h]
  rfl

end

theorem exec_hdrr_empty {s : State} (h : s.input = []) : exec .hdrr s = .next (s.finish 0) := by
  rw [exec_hdrr, hdrrRule_empty h, Run.outcome_ended]

section

variable {s : State} (hin : s.inLen.toNat ≤ s.cfg.inCap.toNat) {h : Header} {payload : List Byte}
  (hdec : decodeHeader s.input = .ok (h, payload))
include hin hdec

theorem exec_hdrr_ok : exec .hdrr s = (s.acceptHeader h).outcome := by
  have hne : s.input ≠ [] := fun h0 => by
    rw [h0] at hdec
    cases hdec
  rw [exec_hdrr, hdrrRule_eq hin hne, hdec, State.orRaise_ok]

theorem exec_hdrr_noRecords (hr : h.records = []) : exec .hdrr s = .next (s.finish 0) := by
  rw [exec_hdrr_ok hin hdec, State.acceptHeader, if_pos hr, Run.outcome_ended]

theorem exec_hdrr_overflow (hr : h.records ≠ []) (hcap : s.cfg.outCap.toNat < h.total.toNat) :
    exec .hdrr s = .next (s.raise .outOvf) := by
  rw [exec_hdrr_ok hin hdec, State.acceptHeader, if_neg hr, if_pos hcap, Run.outcome_ended]

theorem exec_hdrr_loads (hr : h.records ≠ []) (hcap : h.total.toNat ≤ s.cfg.outCap.toNat) :
    exec .hdrr s = .next ((s.setWork (s.work.loadHeader h)).setPhase .tree) := by
  rw [exec_hdrr_ok hin hdec, State.acceptHeader, if_neg hr, if_neg (Nat.not_lt.mpr hcap), Run.outcome_going]

end

end Sys2Proof.Machine
end

section
/-! What HDRR leaves for a header (43_header_codec.md R103, R104), and the statements about HDRR. -/

namespace Sys2Proof.Machine

/-! ### FREQ -/

section

variable {rs : List Record} (hok : RecordsOk [] rs)

theorem freqAt_putRecords_of_notMem {b : Byte} (hb : b ∉ rs.map Record.sym) (f : FreqTable) :
    freqAt (putRecords f rs) b = freqAt f b := by
  induction rs generalizing f with
  | nil => rfl
  | cons r rs ih =>
    obtain ⟨hne, htail⟩ := not_or.mp (mt List.mem_cons.mpr hb)
    exact (ih htail _).trans ((freqAt_freqPut ..).trans (if_neg (Ne.symm hne)))

theorem freqAt_putRecords_of_mem (hdist : (rs.map Record.sym).Nodup) {r : Record} (hr : r ∈ rs) (f : FreqTable) :
    freqAt (putRecords f rs) r.sym = r.count := by
  induction rs generalizing f with
  | nil => cases hr
  | cons q rs ih =>
    obtain ⟨hq, hdist⟩ := List.nodup_cons.mp hdist
    rcases List.mem_cons.mp hr with rfl | hr
    · exact (freqAt_putRecords_of_notMem hq _).trans ((freqAt_freqPut ..).trans (if_pos rfl))
    · exact ih hdist hr _

include hok

/-- FREQ holds exactly the counts of the records (43_header_codec.md R103). -/
theorem freqAt_putRecords_iff {b : Byte} {c : Word} (hc : c ≠ 0) :
    freqAt (putRecords freqZero rs) b = c ↔ ⟨b, c⟩ ∈ rs := by
  refine ⟨fun h => ?_, fun h => freqAt_putRecords_of_mem hok.distinct h _⟩
  by_cases hb : b ∈ rs.map Record.sym
  · obtain ⟨r, hr, rfl⟩ := List.mem_map.mp hb
    rwa [← h, freqAt_putRecords_of_mem hok.distinct hr]
  · rw [freqAt_putRecords_of_notMem hb, freqAt_freqZero] at h
    exact absurd h.symm hc

/-- The symbols present in FREQ are those of the records. -/
theorem present_putRecords_perm :
    (present (putRecords freqZero rs)).Perm (rs.map fun r => (r.sym, r.count)) := by
  have hnodup : (rs.map fun r => (r.sym, r.count)).Nodup :=
    List.Nodup.of_map Prod.fst (by rw [List.map_map]; exact hok.distinct)
  refine (List.perm_ext_iff_of_nodup (List.Nodup.of_map _ (present_nodup _)) hnodup).mpr fun ⟨b, c⟩ => ?_
  rw [mem_present]
  constructor
  · rintro ⟨h, hc⟩
    exact List.mem_map_of_mem ((freqAt_putRecords_iff hok hc).mp h)
  · intro h
    obtain ⟨r, hr, heq⟩ := List.mem_map.mp h
    cases heq
    exact ⟨freqAt_putRecords_of_mem hok.distinct hr _, hok.positive r hr⟩

/-- The order of the records does not matter (43_header_codec.md R104). -/
theorem putRecords_perm {rs' : List Record} (hp : rs.Perm rs') : putRecords freqZero rs = putRecords freqZero rs' := by
  have hsyms := hp.map Record.sym
  refine freq_ext fun b => ?_
  by_cases hb : b ∈ rs.map Record.sym
  · obtain ⟨r, hr, rfl⟩ := List.mem_map.mp hb
    rw [freqAt_putRecords_of_mem hok.distinct hr,
      freqAt_putRecords_of_mem (hsyms.nodup_iff.mp hok.distinct) (hp.mem_iff.mp hr)]
  · rw [freqAt_putRecords_of_notMem hb, freqAt_putRecords_of_notMem (mt hsyms.mem_iff.mpr hb)]

end

/-! ### The scratch state -/

section

variable {h : Header} (hwf : h.wellFormed = true) (w : Scratch)
include hwf

theorem loadHeader_k_toNat : (w.loadHeader h).k.toNat = h.records.length := by
  obtain ⟨-, hk, -, -⟩ := (wellFormed_iff h).mp hwf
  exact (BitVec.toNat_ofNat ..).trans (Nat.mod_eq_of_lt (hk.trans_lt (by decide)))

theorem loadHeader_sum_toNat : (w.loadHeader h).sum.toNat = h.sum := by
  obtain ⟨-, -, -, hsum⟩ := (wellFormed_iff h).mp hwf
  have := h.total.isLt
  exact (BitVec.toNat_ofNat ..).trans (Nat.mod_eq_of_lt (by omega))

theorem loadHeader_iptr_toNat : (w.loadHeader h).iptr.toNat = 5 * h.records.length + 8 := by
  obtain ⟨-, hk, -, -⟩ := (wellFormed_iff h).mp hwf
  have hmax : h.records.length ≤ 256 := hk
  exact (BitVec.toNat_ofNat ..).trans (Nat.mod_eq_of_lt (by omega))

/-- HDRR establishes the precondition of TREE (43_header_codec.md R103). -/
theorem freqOk_loadHeader : FreqOk (w.loadHeader h) := by
  obtain ⟨hne, hk, hok, hsum⟩ := (wellFormed_iff h).mp hwf
  have hK := loadHeader_k_toNat hwf w
  have hperm : (present (w.loadHeader h).freq).Perm _ := present_putRecords_perm hok
  exact {
    one_le := hK ▸ List.length_pos_of_ne_nil hne
    le_maxk := hK ▸ hk
    distinct := by rw [hK, hperm.length_eq, List.length_map]
    sum := by
      rw [(hperm.map _).sum_eq, List.map_map]
      exact hsum }

/-- Every record counts at least 1. -/
theorem length_records_le_total : h.records.length ≤ h.total.toNat := by
  obtain ⟨-, -, hok, hsum⟩ := (wellFormed_iff h).mp hwf
  rw [← hsum, Header.sum, ← List.length_map (f := fun r : Record => r.count.toNat)]
  refine List.length_le_sum_of_one_le _ fun n hn => ?_
  obtain ⟨r, hr, rfl⟩ := List.mem_map.mp hn
  exact Nat.one_le_iff_ne_zero.mpr (mt (BitVec.toNat_inj (y := 0)).mp (hok.positive r hr))

end

/-! ### The obligations -/

theorem ended_raise (s : State) (e : ErrCode) : Ended s (s.raise e) (Status.failure s.status.op e s.status.phase) 0 :=
  ⟨rfl, rfl, (frame_raise s e).1⟩

theorem ended_finish_zero (s : State) : Ended s (s.finish 0) (Status.success s.status.op) 0 :=
  ⟨rfl, rfl, (frame_finish s 0).1⟩

/-- Settles O41: the outcomes of HDRR follow the decoder's, and what it leaves for a header is `Scratch.loadHeader`. -/
theorem hdrrDecodesTheHeader : Obligations.HdrrDecodesTheHeader := by
  refine fun s hin => ⟨fun h0 => ⟨_, exec_hdrr_empty h0, ended_finish_zero s⟩,
    fun hne e hdec => ⟨_, exec_hdrr_error hin hne hdec, ended_raise s e⟩, fun h payload hdec =>
    ⟨fun hr => ⟨_, exec_hdrr_noRecords hin hdec hr, ended_finish_zero s⟩,
      fun hr hcap => ⟨_, exec_hdrr_overflow hin hdec hr hcap, ended_raise s _⟩, fun hr hcap => ?_⟩⟩
  obtain ⟨hwf, hinput⟩ := decodeHeader_ok hdec hr
  obtain ⟨-, -, hok, -⟩ := (wellFormed_iff h).mp hwf
  have hip := loadHeader_iptr_toNat hwf s.work
  have hpayload : s.input.drop (s.work.loadHeader h).iptr.toNat = payload := by rw [hip, hinput, drop_encodeHeader]
  exact ⟨_, _, _, _, exec_hdrr_loads hin hdec hr hcap, loadHeader_k_toNat hwf s.work, loadHeader_sum_toNat hwf s.work,
    hip, fun b c hc => freqAt_putRecords_iff hok hc, (s.inBytes_to_end _).trans hpayload⟩

/-- HDRR goes on to TREE only with a header that decodes, has records and has a total that fits OUT. -/
theorem exec_hdrr_tree {s t : State} (hin : s.inLen.toNat ≤ s.cfg.inCap.toNat) (hphase : s.status.phase ≠ .tree)
    (hst : exec .hdrr s = .next t) (htree : t.status.phase = .tree) :
    ∃ h payload, decodeHeader s.input = .ok (h, payload) ∧ h.records ≠ [] ∧ h.total.toNat ≤ s.cfg.outCap.toNat ∧
      t = (s.setWork (s.work.loadHeader h)).setPhase .tree := by
  have hfinish : t ≠ s.finish 0 := fun h => by
    rw [h] at htree
    cases htree
  have hraise (e : ErrCode) : t ≠ s.raise e := fun h => hphase (by rw [h] at htree; exact htree)
  have hnext {u : State} (h : exec .hdrr s = .next u) : t = u := Host.Outcome.next.inj (hst.symm.trans h)
  by_cases hne : s.input = []
  · exact absurd (hnext (exec_hdrr_empty hne)) hfinish
  cases hdec : decodeHeader s.input with
  | error e => exact absurd (hnext (exec_hdrr_error hin hne hdec)) (hraise e)
  | ok p =>
    by_cases hr : p.1.records = []
    · exact absurd (hnext (exec_hdrr_noRecords hin hdec hr)) hfinish
    · rcases Nat.lt_or_ge s.cfg.outCap.toNat p.1.total.toNat with hcap | hcap
      · exact absurd (hnext (exec_hdrr_overflow hin hdec hr hcap)) (hraise _)
      · exact ⟨p.1, p.2, rfl, hr, hcap, hnext (exec_hdrr_loads hin hdec hr hcap)⟩

/-- Settles O42: TREE is reached only with what `Scratch.loadHeader` leaves for a well-formed header. -/
theorem hdrrEstablishesFreqOk : Obligations.HdrrEstablishesFreqOk := by
  intro s t hin hphase hst htree
  obtain ⟨h, payload, hdec, hr, hcap, rfl⟩ := exec_hdrr_tree hin hphase hst htree
  obtain ⟨hwf, hinput⟩ := decodeHeader_ok hdec hr
  obtain ⟨-, -, -, hsum⟩ := (wellFormed_iff h).mp hwf
  have hk := loadHeader_k_toNat hwf s.work
  have hip := loadHeader_iptr_toNat hwf s.work
  have hlen : s.inLen.toNat = 5 * h.records.length + 8 + payload.length := by
    rw [← s.input_length, hinput, List.length_append, encodeHeader_length]
  refine ⟨freqOk_loadHeader hwf _, (loadHeader_sum_toNat hwf _).trans hsum, hk.trans_le (length_records_le_total hwf),
    hcap, ?_, ?_⟩
  · rw [State.setPhase_work, State.setWork_work, hip, hk]
  · rw [State.setPhase_work, State.setWork_work, hip]
    show _ ≤ s.inLen.toNat
    omega

/-- A permutation of the records keeps a header well formed. -/
theorem wellFormed_perm {h h' : Header} (hwf : h.wellFormed = true) (hp : h.records.Perm h'.records)
    (ht : h'.total = h.total) : h'.wellFormed = true := by
  obtain ⟨hne, hk, ⟨hpos, hdist, hun⟩, hsum⟩ := (wellFormed_iff h).mp hwf
  refine (wellFormed_iff h').mpr ⟨fun h0 => hne (hp.trans (h0 ▸ .refl _)).eq_nil, hp.length_eq ▸ hk,
    ⟨fun r hr => hpos r (hp.mem_iff.mpr hr), (hp.map _).nodup_iff.mp hdist, fun _ _ => List.not_mem_nil⟩, ?_⟩
  rw [ht, ← hsum]
  exact (hp.map _).sum_eq.symm

/-- HDRR on the encoding of a well-formed header whose total fits OUT. -/
theorem exec_hdrr_encodeHeader {s : State} (hin : s.inLen.toNat ≤ s.cfg.inCap.toNat) {h : Header} {payload : List Byte}
    (hwf : h.wellFormed = true) (hinput : s.input = encodeHeader h ++ payload)
    (hcap : h.total.toNat ≤ s.cfg.outCap.toNat) :
    exec .hdrr s = .next ((s.setWork (s.work.loadHeader h)).setPhase .tree) := by
  obtain ⟨hr, -⟩ := (wellFormed_iff h).mp hwf
  exact exec_hdrr_loads hin (hinput ▸ decodeHeader_encodeHeader hwf payload) hr hcap

/-- Settles O43: what HDRR leaves is made of the number of records, the total and the table, none of which the order
changes. -/
theorem hdrrIgnoresRecordOrder : Obligations.HdrrIgnoresRecordOrder := by
  intro s s' h h' p p' hin hin' hwf hp ht hinput hinput' hcap hcap'
  obtain ⟨-, -, hok, -⟩ := (wellFormed_iff h).mp hwf
  exact ⟨_, _, exec_hdrr_encodeHeader hin hwf hinput hcap,
    exec_hdrr_encodeHeader hin' (wellFormed_perm hwf hp ht) hinput' (ht ▸ hcap'), rfl, rfl, putRecords_perm hok hp,
    congrArg (BitVec.ofNat 9) hp.length_eq, ht.symm⟩

/-- Settles O44: nothing to read is HDRR's first branch, a first field of 0 decodes to no records, and fewer bytes than a
field do not decode. -/
theorem hdrrEmptyContainers : Obligations.HdrrEmptyContainers := by
  refine fun s hin => ⟨fun h => ⟨_, ?_, ended_finish_zero s⟩, fun hpos hshort => ⟨_, ?_, ended_raise s _⟩⟩
  · rcases h with h0 | ⟨rest, hrest⟩
    · exact exec_hdrr_empty (s.input_eq_nil_iff.mpr h0)
    · exact exec_hdrr_noRecords hin (hrest ▸ decodeHeader_zero rest) rfl
  · have hne : s.input ≠ [] := List.ne_nil_of_length_pos (hpos.trans_eq s.input_length.symm)
    exact exec_hdrr_error hin hne (decodeHeader_short (by rw [State.input_length, Config.cw]; omega))

end Sys2Proof.Machine
end

section
/-! HDRW writes the encoding of a well-formed header (43_header_codec.md R100). -/

namespace Sys2Proof.Machine

theorem headerOf_ascending (w : Scratch) : (headerOf w).ascending = true := by
  simpa [Header.ascending, headerOf, List.pairwise_map] using present_ascending w.freq

section

variable {w : Scratch} (h : FreqOk w)
include h

theorem headerOf_length : (headerOf w).records.length = w.k.toNat := by
  rw [headerOf, List.length_map, h.distinct]

theorem headerOf_wellFormed : (headerOf w).wellFormed = true := by
  have hlen := headerOf_length h
  refine (wellFormed_iff _).mpr ⟨?_, hlen ▸ h.le_maxk, ⟨fun r hr => ?_, ?_, fun _ _ => List.not_mem_nil⟩, ?_⟩
  · exact List.ne_nil_of_length_pos (hlen ▸ h.one_le)
  · obtain ⟨q, hq, rfl⟩ := List.mem_map.mp hr
    exact ((mem_present _ _ _).mp hq).2
  · rw [headerOf, List.map_map]
    exact present_nodup w.freq
  · rw [Header.sum, headerOf, List.map_map]
    exact h.sum

/-- What HDRW writes is the encoding of the tables' header. -/
theorem headerBytes_eq_encodeHeader : headerBytes w = encodeHeader (headerOf w) := by
  rw [encodeHeader, headerOf_length h, headerOf, List.flatMap_map]
  rfl

end

/-- The size HDRW compares with OUT_CAP, in numbers. -/
theorem headerSize_eq (k : Nat) : Config.cw + k * (1 + Config.cw) + Config.cw = 5 * k + 8 := by
  simp only [Config.cw]
  omega

theorem exec_hdrw_overflow {s : State} (hcap : s.cfg.outCap.toNat < 5 * s.work.k.toNat + 8) :
    exec .hdrw s = .next (s.raise .outOvf) := by
  rw [exec_hdrw, hdrwRule, headerSize_eq, if_pos hcap, Run.outcome_ended]

theorem exec_hdrw_fits {s : State} (h : FreqOk s.work) (hcap : 5 * s.work.k.toNat + 8 ≤ s.cfg.outCap.toNat) :
    exec .hdrw s =
      .next { s with
        status := { s.status with phase := .pack }
        outMem := s.outMem.putAll 0 (encodeHeader (headerOf s.work))
        work := { s.work with optr := BitVec.ofNat 64 (5 * s.work.k.toNat + 8) } } := by
  have hlen : (headerBytes s.work).length = 5 * s.work.k.toNat + 8 := by rw [headerBytes_length, h.distinct]
  have hfit : 0 + (headerBytes s.work).length ≤ s.cfg.outCap.toNat := by omega
  rw [exec_hdrw, hdrwRule, headerSize_eq, if_neg (Nat.not_lt.mpr hcap), memWrite_ok hfit, ← headerBytes_eq_encodeHeader h,
    ← hlen]
  rfl

/-- Settles O36: HDRW's two branches, and OUT after the header is written. -/
theorem hdrwWritesTheHeader : Obligations.HdrwWritesTheHeader := by
  refine fun s h => ⟨fun hcap => ?_, exec_hdrw_overflow⟩
  have hlen : (encodeHeader (headerOf s.work)).length = 5 * s.work.k.toNat + 8 := by
    rw [encodeHeader_length, headerOf_length h]
  refine ⟨_, _, exec_hdrw_fits h hcap, ?_, hlen, headerOf_ascending _, headerOf_wellFormed h,
    fun q hq => Memory.get_putAll_inside _ _ _ _ hq, fun a ha => Memory.get_putAll_outside _ _ _ _ (.inr (by omega))⟩
  have := s.cfg.outCap.isLt
  exact (BitVec.toNat_ofNat ..).trans (Nat.mod_eq_of_lt (by omega))

end Sys2Proof.Machine
end

section
/-! The bit packer (44_bit_packer_reader.md R110, R111, R117): ACC is the packing of the bits put since the last whole byte,
and a payload is sent to OUT byte by byte. -/

namespace Sys2Proof

theorem packByte_congr {bs cs : Bits} (h : ∀ j, j < 8 → bs.getD j false = cs.getD j false) :
    packByte bs = packByte cs := by
  refine BitVec.eq_of_getLsbD_eq fun i hi => ?_
  have hj : 7 - i < 8 := by omega
  rw [show i = 7 - (7 - i) by omega, packByte_getLsbD _ hj, packByte_getLsbD _ hj, h _ hj]

/-- A byte holds eight bits: those after them are not looked at. -/
theorem packByte_append {g : Bits} (hg : g.length = 8) (bs : Bits) : packByte (g ++ bs) = packByte g :=
  packByte_congr fun _ hj => List.getD_append _ _ _ _ (by omega)

/-- A last group of 1 to 8 bits is one byte. -/
theorem packBits_of_length_le {bs : Bits} (hne : bs ≠ []) (h : bs.length ≤ 8) : packBits bs = [packByte bs] := by
  have hpos := List.length_pos_iff.mpr hne
  rw [packBits, show (bs.length + 7) / 8 = 1 by omega]
  rfl

/-- The first eight bits are the first byte. -/
theorem packBits_append {g : Bits} (hg : g.length = 8) (bs : Bits) : packBits (g ++ bs) = packByte g :: packBits bs := by
  have hrest (q : Nat) : (g ++ bs).drop (8 * (q + 1)) = bs.drop (8 * q) := by
    rw [show 8 * (q + 1) = 8 + 8 * q by omega, ← List.drop_drop, List.drop_left' hg]
  rw [packBits, List.length_append, show (g.length + bs.length + 7) / 8 = (bs.length + 7) / 8 + 1 by omega,
    List.range_succ_eq_map, List.map_cons, List.map_map, Nat.mul_zero, List.drop_zero, packByte_append hg, packBits]
  exact congrArg _ (List.map_congr_left fun q _ => congrArg packByte (hrest q))

end Sys2Proof

namespace Sys2Proof.Machine

theorem setBit_getLsbD (B : Byte) {i j : Nat} (hj : j < 8) (b : Bool) :
    (setBit B i b).getLsbD j = if j = i then b else B.getLsbD j := by
  cases b <;> by_cases h : j = i <;> simp [setBit, hj, h] <;> omega

/-- Setting the next free position of a partial byte appends a bit to those it packs (R110). -/
theorem setBit_packByte {bs : Bits} (h : bs.length < 8) (b : Bool) :
    setBit (packByte bs) (7 - bs.length) b = packByte (bs ++ [b]) := by
  refine BitVec.eq_of_getLsbD_eq fun i hi => ?_
  obtain ⟨j, hj, rfl⟩ : ∃ j, j < 8 ∧ i = 7 - j := ⟨7 - i, by omega, by omega⟩
  rw [setBit_getLsbD _ hi, packByte_getLsbD _ hj, packByte_getLsbD _ hj]
  rcases Nat.lt_trichotomy j bs.length with hlt | rfl | hgt
  · rw [if_neg (by omega), List.getD_append _ _ _ _ hlt]
  · rw [if_pos rfl]
    simp
  · rw [if_neg (by omega), List.getD_eq_default _ _ (by omega), List.getD_eq_default _ _ (by simp; omega)]

/-! ### Bytes sent to OUT -/

/-- The state once the bytes B have been sent to OUT and a new partial byte has begun (R110, R111). -/
def State.sent (s : State) (B : List Byte) : State :=
  { s with
    outMem := s.outMem.putAll s.work.optr.toNat B
    work := { s.work with acc := 0, nacc := 0, optr := BitVec.ofNat 64 (s.work.optr.toNat + B.length) } }

/-- The packer sends the bytes B: E_OUT_OVF when they do not fit. -/
def sendBytes (s : State) (B : List Byte) : Run :=
  if B ≠ [] ∧ s.cfg.outCap.toNat < s.work.optr.toNat + B.length then .ended (s.raise .outOvf) else .going (s.sent B)

theorem sendBytes_fits {s : State} {B : List Byte} (h : s.work.optr.toNat + B.length ≤ s.cfg.outCap.toNat) :
    sendBytes s B = .going (s.sent B) := if_neg fun hn => absurd hn.2 (Nat.not_lt.mpr h)

theorem sendBytes_overflow {s : State} {B : List Byte} (hne : B ≠ [])
    (h : s.cfg.outCap.toNat < s.work.optr.toNat + B.length) : sendBytes s B = .ended (s.raise .outOvf) := if_pos ⟨hne, h⟩

theorem sendBytes_cases (s : State) (B : List Byte) :
    sendBytes s B = .going (s.sent B) ∨ sendBytes s B = .ended (s.raise .outOvf) :=
  (ite_eq_or_eq _ _ _).symm

theorem sendBytes_nil {s : State} (hacc : s.work.acc = 0) (hnacc : s.work.nacc = 0) : sendBytes s [] = .going s := by
  have hw : { s.work with acc := 0, nacc := 0, optr := BitVec.ofNat 64 s.work.optr.toNat } = s.work := by
    rw [BitVec.ofNat_toNat, BitVec.setWidth_eq, ← hacc, ← hnacc]
  rw [sendBytes, if_neg fun h => h.1 rfl]
  exact congrArg (fun w => Run.going { s with work := w }) hw

/-- The partial byte is not among the bytes sent. -/
theorem sendBytes_setAcc (s : State) (acc : Byte) (nacc : BitVec 3) (B : List Byte) :
    sendBytes (s.setWork { s.work with acc, nacc }) B = sendBytes s B := rfl

/-- Bytes sent one after the other: a byte that fits makes the rest fit or not as all of them do. -/
theorem sendBytes_cons (s : State) (x : Byte) (B : List Byte) :
    ((sendBytes s [x]).andThen fun t => sendBytes t B) = sendBytes s (x :: B) := by
  have hlen : s.work.optr.toNat + (x :: B).length = s.work.optr.toNat + 1 + B.length := by rw [List.length_cons]; omega
  rcases Nat.lt_or_ge s.work.optr.toNat s.cfg.outCap.toNat with hlt | hge
  · have hoptr : (s.sent [x]).work.optr.toNat = s.work.optr.toNat + 1 := by
      have := s.cfg.outCap.isLt
      exact (BitVec.toNat_ofNat ..).trans (Nat.mod_eq_of_lt (by simp only [List.length_singleton]; omega))
    have hsent : (s.sent [x]).sent B = s.sent (x :: B) := by
      rw [State.sent, hoptr, ← hlen]
      rfl
    have hfit : B ≠ [] ∧ s.cfg.outCap.toNat < s.work.optr.toNat + 1 + B.length ↔
        x :: B ≠ [] ∧ s.cfg.outCap.toNat < s.work.optr.toNat + 1 + B.length := by
      refine and_congr_left fun h => iff_of_true (fun h0 => ?_) (List.cons_ne_nil _ _)
      subst h0
      exact absurd h (Nat.not_lt.mpr hlt)
    rw [sendBytes_fits (B := [x]) hlt, Run.andThen_going, sendBytes, sendBytes, hoptr, hsent, hlen]
    exact if_congr hfit rfl rfl
  · rw [sendBytes_overflow (List.cons_ne_nil _ _) (Nat.lt_succ_of_le hge),
      sendBytes_overflow (List.cons_ne_nil _ _) (by omega), Run.andThen_ended]

/-- A whole byte is sent (R110), or the padded one (R111). -/
theorem flushByte_eq (s : State) : flushByte s = sendBytes s [s.work.acc] := by
  rw [flushByte]
  split
  · next hge => rw [sendBytes_overflow (List.cons_ne_nil _ _) (Nat.lt_succ_of_le hge)]
  · next hlt =>
    have hfit := Nat.not_le.mp hlt
    rw [sendBytes_fits (B := [_]) hfit, memWrite_ok (B := [_]) hfit]
    rfl

/-! ### PutBit and Flush -/

/-- Everything PutBit can do (R110). -/
theorem putBit_eq (b : Bool) (s : State) : putBit b s =
    if s.work.nacc = 7 then sendBytes s [setBit s.work.acc (7 - s.work.nacc.toNat) b]
    else .going (s.setWork { s.work with
      acc := setBit s.work.acc (7 - s.work.nacc.toNat) b, nacc := s.work.nacc + 1 }) := by
  rw [putBit, flushByte_eq]
  rfl

section

variable {s : State} {bs : Bits} (hlen : bs.length = s.work.nacc.toNat) (hacc : s.work.acc = packByte bs)
include hlen

theorem nacc_eq_ofNat : s.work.nacc = BitVec.ofNat 3 bs.length := by rw [hlen, BitVec.ofNat_toNat, BitVec.setWidth_eq]

include hacc

theorem putBit_partial (h : bs.length < 7) (b : Bool) :
    putBit b s =
      .going (s.setWork { s.work with acc := packByte (bs ++ [b]), nacc := BitVec.ofNat 3 (bs.length + 1) }) := by
  have hn : s.work.nacc ≠ 7 := fun h7 => by
    rw [hlen, h7] at h
    exact absurd h (by decide)
  have hsucc : s.work.nacc + 1 = BitVec.ofNat 3 (bs.length + 1) := by rw [nacc_eq_ofNat hlen, BitVec.ofNat_add]; rfl
  rw [putBit_eq, if_neg hn, hacc, ← hlen, setBit_packByte (by omega), hsucc]

theorem putBit_whole (h : bs.length = 7) (b : Bool) : putBit b s = sendBytes s [packByte (bs ++ [b])] := by
  have hn : s.work.nacc = 7 := by rw [nacc_eq_ofNat hlen, h]; rfl
  rw [putBit_eq, if_pos hn, hacc, ← hlen, setBit_packByte (by omega)]

theorem flush_eq : flush s = sendBytes s (packBits bs) := by
  have hlt : bs.length < 8 := hlen ▸ s.work.nacc.isLt
  rw [flush]
  split
  · next h0 =>
    have hnil : bs = [] := List.length_eq_zero_iff.mp (by rw [hlen, h0]; rfl)
    subst hnil
    exact (sendBytes_nil hacc h0).symm
  · next hne =>
    have hbs : bs ≠ [] := fun h0 => hne (BitVec.eq_of_toNat_eq (by rw [← hlen, h0]; rfl))
    rw [flushByte_eq, hacc, packBits_of_length_le hbs (by omega)]

end

/-- The bits put and then flushed are sent packed, after those that ACC holds. -/
theorem putBits_flush {s : State} {pre : Bits} (hlen : pre.length = s.work.nacc.toNat) (hacc : s.work.acc = packByte pre)
    (bs : Bits) : (putBits bs s).andThen flush = sendBytes s (packBits (pre ++ bs)) := by
  induction bs generalizing s pre with
  | nil => rw [putBits, Run.andThen_going, flush_eq hlen hacc, List.append_nil]
  | cons b bs ih =>
    have hlt : pre.length < 8 := hlen ▸ s.work.nacc.isLt
    rw [putBits, Run.andThen_assoc, List.append_cons]
    rcases Nat.lt_or_eq_of_le (Nat.le_of_lt_succ hlt) with h | h
    · rw [putBit_partial hlen hacc h, Run.andThen_going, ih ?_ rfl, sendBytes_setAcc]
      rw [State.setWork_work, BitVec.toNat_ofNat, List.length_append, List.length_singleton, Nat.mod_eq_of_lt (by omega)]
    · have hbyte : (pre ++ [b]).length = 8 := by rw [List.length_append, h]; rfl
      have hrest : (putBits bs (s.sent [packByte (pre ++ [b])])).andThen flush =
          sendBytes (s.sent [packByte (pre ++ [b])]) (packBits bs) := ih (pre := []) rfl rfl
      rw [putBit_whole hlen hacc h, packBits_append hbyte]
      refine Eq.trans ?_ (sendBytes_cons s _ _)
      rcases sendBytes_cases s [packByte (pre ++ [b])] with hs | hs
      · rw [hs]
        exact hrest
      · rw [hs]
        rfl

/-! ### The end of PACK -/

/-- The operation ends well with the bytes B in OUT from address a on: `MemWrite` and `Finish` (60_exceptions.md R144). -/
def State.finishWith (s : State) (a : Nat) (B : List Byte) : State :=
  State.finish (BitVec.ofNat 64 (a + B.length)) { s with outMem := s.outMem.putAll a B }

section

variable {s : State} {a : Nat} {B : List Byte} (h : a + B.length ≤ s.cfg.outCap.toNat)
include h

theorem finishWith_outLen : (s.finishWith a B).outLen.toNat = a + B.length := by
  have := s.cfg.outCap.isLt
  exact (BitVec.toNat_ofNat ..).trans (Nat.mod_eq_of_lt (by omega))

theorem ended_finishWith : Ended s (s.finishWith a B) (Status.success s.status.op) (a + B.length) :=
  ⟨rfl, finishWith_outLen h, (Frame.of_engine_side s ..).1⟩

/-- OUT holds the bytes written and those below them, and no other. -/
theorem get_finishWith (b : Nat) :
    (s.finishWith a B).outMem.get b = if b < a + B.length then (s.outMem.putAll a B).get b else none := by
  rw [← finishWith_outLen h]
  exact Memory.get_below ..

theorem holds_finishWith : Holds (s.finishWith a B).outMem a B := fun q hq => by
  rw [get_finishWith h, if_pos (by omega), Memory.get_putAll_inside _ _ _ _ hq]

theorem get_finishWith_of_lt {b : Nat} (hb : b < a) : (s.finishWith a B).outMem.get b = s.outMem.get b := by
  rw [get_finishWith h, if_pos (by omega), Memory.get_putAll_outside _ _ _ _ (.inl hb)]

theorem get_finishWith_of_le {b : Nat} (hb : a + B.length ≤ b) : (s.finishWith a B).outMem.get b = none := by
  rw [get_finishWith h, if_neg (Nat.not_lt.mpr hb)]

end

/-- PACK sends the code bits of the input, packed, and finishes at OPTR. -/
theorem packRule_eq {s : State} (hin : s.inLen.toNat ≤ s.cfg.inCap.toNat) : packRule s =
    (sendBytes s (packBits (codeBits s.work.code s.input))).andThen fun t => .ended (t.finish t.work.optr) := by
  have hread : s.inBytes 0 s.inLen.toNat = s.input := rfl
  rw [packRule]
  dsimp only
  rw [memRead_ok (by simpa using hin), putBits_flush (pre := []) rfl rfl, sendBytes_setAcc]
  rfl

theorem exec_pack_fits {s : State} (hin : s.inLen.toNat ≤ s.cfg.inCap.toNat) {P : List Byte}
    (hP : P = packBits (codeBits s.work.code s.input)) (h : s.work.optr.toNat + P.length ≤ s.cfg.outCap.toNat) :
    exec .pack s = .next (s.finishWith s.work.optr.toNat P) := by
  rw [exec_pack, packRule_eq hin, ← hP, sendBytes_fits h]
  rfl

theorem exec_pack_overflow {s : State} (hin : s.inLen.toNat ≤ s.cfg.inCap.toNat) {P : List Byte}
    (hP : P = packBits (codeBits s.work.code s.input)) (hne : P ≠ [])
    (h : s.cfg.outCap.toNat < s.work.optr.toNat + P.length) : exec .pack s = .next (s.raise .outOvf) := by
  rw [exec_pack, packRule_eq hin, ← hP, sendBytes_overflow hne h]
  rfl

/-! ### The obligations -/

/-- Settles O37: a bit joins a partial byte, and the eighth completes the byte that is sent. -/
theorem putBitPacks : Obligations.PutBitPacks := by
  refine fun s bs b hlen hacc => ⟨fun h => putBit_partial hlen hacc h b, fun h hcap => ?_, fun h hcap =>
    ⟨s.raise .outOvf, ?_, ended_raise s _⟩⟩
  · rw [putBit_whole hlen hacc h, sendBytes_fits (B := [_]) hcap]
    rfl
  · rw [putBit_whole hlen hacc h, sendBytes_overflow (List.cons_ne_nil _ _) (Nat.lt_succ_of_le hcap)]

/-- Settles O38: what Flush sends is the packing of the bits in ACC: no byte for none, and one byte for any. -/
theorem flushPadsWithZeros : Obligations.FlushPadsWithZeros := by
  intro s bs hlen hacc
  have hlt : bs.length < 8 := hlen ▸ s.work.nacc.isLt
  refine ⟨fun hnil => ?_, fun hne hcap => ?_, fun hne hcap => ?_⟩
  · subst hnil
    exact (flush_eq hlen hacc).trans (sendBytes_nil hacc (nacc_eq_ofNat hlen))
  · have hbits := packBits_of_length_le hne (by omega)
    rw [flush_eq hlen hacc, hbits, sendBytes_fits (B := [_]) hcap]
    rfl
  · have hbits := packBits_of_length_le hne (by omega)
    rw [flush_eq hlen hacc, hbits, sendBytes_overflow (List.cons_ne_nil _ _) (Nat.lt_succ_of_le hcap)]

/-- Settles O39: the two outcomes of sending the whole payload. -/
theorem packWritesThePayload : Obligations.PackWritesThePayload := fun s _ hin hP =>
  ⟨fun h => ⟨_, exec_pack_fits hin hP h, ended_finishWith h, holds_finishWith h, fun _ => get_finishWith_of_lt h,
      fun _ => get_finishWith_of_le h⟩,
    fun hne h => ⟨_, exec_pack_overflow hin hP hne h, ended_raise s _, fun _ => rfl⟩⟩

/-! ### The number of code bits -/

theorem length_codeBits (c : CodeTable) (X : List Byte) :
    (codeBits c X).length = (X.map fun b => (codeAt c b).length).sum := List.length_flatMap

/-- The code bits counted symbol by symbol (R117). -/
theorem length_codeBits_eq_sum (c : CodeTable) {X : List Byte} (hX : X.length ≤ Config.maxn) :
    (codeBits c X).length = ((present (countBytes X)).map fun r => r.2.toNat * (codeAt c r.1).length).sum := by
  have hcount : ((present (countBytes X)).map fun r => r.2.toNat * (codeAt c r.1).length) =
      ((present (countBytes X)).map Prod.fst).map fun b => X.count b * (codeAt c b).length := by
    rw [List.map_map]
    refine List.map_congr_left fun ⟨b, n⟩ hr => ?_
    obtain ⟨hn, -⟩ := (mem_present _ _ _).mp hr
    rw [← hn, toNat_freqAt_countBytes hX]
    rfl
  calc (codeBits c X).length
    _ = ∑ b ∈ X.toFinset, X.count b • (codeAt c b).length := by rw [length_codeBits, Finset.sum_list_map_count]
    _ = (X.dedup.map fun b => X.count b * (codeAt c b).length).sum := by
      have hdedup : X.dedup.toFinset = X.toFinset := Finset.ext fun b => by simp
      rw [← List.sum_toFinset _ X.nodup_dedup, hdedup]
      rfl
    _ = _ := by rw [hcount, ((present_countBytes_perm hX).map _).sum_eq]

/-- Settles O40: the sum symbol by symbol, and each byte's code word within its bounds. -/
theorem payloadSize : Obligations.PayloadSize := by
  refine fun c X hX => ⟨length_codeBits_eq_sum c hX, fun hc => ?_⟩
  rw [length_codeBits]
  constructor
  · simpa using List.card_nsmul_le_sum (X.map fun b => (codeAt c b).length) 1 (by simpa using fun b hb => (hc b hb).1)
  · have h := List.sum_le_card_nsmul (X.map fun b => (codeAt c b).length) 255 (by simpa using fun b hb => (hc b hb).2)
    rw [List.length_map, smul_eq_mul] at h
    omega

end Sys2Proof.Machine
end

section
/-! The bit reader (44_bit_packer_reader.md R113): it gives the payload's bits one by one. -/

namespace Sys2Proof

theorem unpackBits_cons (b : Byte) (B : List Byte) : unpackBits (b :: B) = unpackBits [b] ++ unpackBits B := by
  simp [unpackBits]

/-- A byte's first bit, and the others as they stand in the byte shifted by one. -/
theorem unpackBits_singleton (b : Byte) : unpackBits [b] = b.msb :: (unpackBits [b <<< 1]).take 7 := by
  simp [unpackBits, List.range_succ, BitVec.msb_eq_getLsbD_last]

end Sys2Proof

namespace Sys2Proof.Machine

/-! ### GetBit -/

/-- Taking the next bit of RBYTE (R113). -/
theorem shiftBit_eq (s : State) (k : Bool → State → Run) : shiftBit s k =
    k s.work.rbyte.msb (s.setWork { s.work with rbyte := s.work.rbyte <<< 1, nrem := s.work.nrem - 1 }) := by
  have hshift : BitVec.ofNat 8 (s.work.rbyte.toNat * 2) = s.work.rbyte <<< 1 := BitVec.eq_of_toNat_eq (by
    simp [BitVec.toNat_shiftLeft, Nat.shiftLeft_eq])
  rw [shiftBit, hshift, BitVec.msb_eq_getLsbD_last]

section

variable {s : State} (k : Bool → State → Run)

theorem getBit_unread (h : s.work.nrem ≠ 0) : getBit s k =
    k s.work.rbyte.msb (s.setWork { s.work with rbyte := s.work.rbyte <<< 1, nrem := s.work.nrem - 1 }) := by
  rw [getBit, if_neg h, shiftBit_eq]

theorem getBit_fetch (h : s.work.nrem = 0) (hip : s.work.iptr.toNat < s.inLen.toNat)
    (hin : s.inLen.toNat ≤ s.cfg.inCap.toNat) : getBit s k =
    k (s.inByte s.work.iptr.toNat).msb (s.setWork { s.work with
      rbyte := s.inByte s.work.iptr.toNat <<< 1, iptr := s.work.iptr + 1, nrem := 7 }) := by
  have hsucc : BitVec.ofNat 64 (s.work.iptr.toNat + 1) = s.work.iptr + 1 := by
    rw [BitVec.ofNat_add, BitVec.ofNat_toNat, BitVec.setWidth_eq]
    rfl
  have hnrem : (8 : BitVec 4) - 1 = 7 := by decide
  rw [getBit, if_pos h, if_neg (Nat.not_le.mpr hip), memReadByte_ok (by omega), shiftBit_eq, hsucc, ← hnrem]
  rfl

theorem getBit_exhausted (h : s.work.nrem = 0) (hip : s.inLen.toNat ≤ s.work.iptr.toNat) :
    getBit s k = .ended (s.raise .payloadTrunc) := by
  rw [getBit, if_pos h, if_pos hip]

end

/-- Settles O45: GetBit's three courses. -/
theorem getBitReads : Obligations.GetBitReads := fun _ k =>
  ⟨getBit_unread k, getBit_fetch k, getBit_exhausted k⟩

/-! ### The bits to come -/

/-- The payload bits that GetBit has still to give: the unread bits of RBYTE and those of the bytes from IPTR on. -/
def State.bitsLeft (s : State) : Bits := (unpackBits [s.work.rbyte]).take s.work.nrem.toNat ++ unpackBits s.unread

/-- While RBYTE holds no unread bit the bits to come are those of the unread input. -/
theorem bitsLeft_of_nrem_eq_zero {s : State} (h : s.work.nrem = 0) : s.bitsLeft = unpackBits s.unread := by
  rw [State.bitsLeft, h]
  rfl

theorem toNat_nrem_sub_one {n : BitVec 4} (h : n ≠ 0) : (n - 1).toNat + 1 = n.toNat := by
  have hpos := mt (BitVec.toNat_inj (y := 0)).mp h
  rw [BitVec.toNat_sub]
  simp only [BitVec.reduceToNat] at hpos ⊢
  omega

theorem bitsLeft_unread {s : State} (h : s.work.nrem ≠ 0) (hle : s.work.nrem.toNat ≤ 8) :
    s.bitsLeft = s.work.rbyte.msb ::
      (s.setWork { s.work with rbyte := s.work.rbyte <<< 1, nrem := s.work.nrem - 1 }).bitsLeft := by
  have hpred := toNat_nrem_sub_one h
  rw [State.bitsLeft, unpackBits_singleton, ← hpred, List.take_succ_cons, List.take_take, List.cons_append,
    Nat.min_eq_left (by omega)]
  rfl

theorem unread_eq_cons {s : State} (h : s.work.iptr.toNat < s.inLen.toNat) :
    s.unread = [s.inByte s.work.iptr.toNat] ++ s.input.drop (s.work.iptr.toNat + 1) := by
  rw [State.unread, List.drop_eq_getElem_cons (by simpa using h)]
  simp [State.input, State.inBytes]

theorem bitsLeft_fetch {s : State} (h : s.work.nrem = 0) (hip : s.work.iptr.toNat < s.inLen.toNat) :
    s.bitsLeft = (s.inByte s.work.iptr.toNat).msb :: (s.setWork { s.work with
      rbyte := s.inByte s.work.iptr.toNat <<< 1, iptr := s.work.iptr + 1, nrem := 7 }).bitsLeft := by
  have hunread := unread_eq_cons hip
  rw [bitsLeft_of_nrem_eq_zero h, State.bitsLeft, State.unread_setWork hunread rfl, hunread, List.singleton_append,
    unpackBits_cons, unpackBits_singleton]
  rfl

theorem bitsLeft_exhausted {s : State} (h : s.work.nrem = 0) (hip : s.inLen.toNat ≤ s.work.iptr.toNat) :
    s.bitsLeft = [] := by
  rw [bitsLeft_of_nrem_eq_zero h, State.unread, List.drop_of_length_le (by simpa using hip)]
  rfl

/-- With bits to come GetBit gives the first and leaves the others, whatever it does to the reader's registers. -/
theorem getBit_cons {s : State} (hin : s.inLen.toNat ≤ s.cfg.inCap.toNat) (hnrem : s.work.nrem.toNat ≤ 8) {b : Bool}
    {bs : Bits} (h : s.bitsLeft = b :: bs) :
    ∃ rbyte iptr nrem, (∀ k, getBit s k = k b (s.setWork { s.work with rbyte, iptr, nrem })) ∧
      (s.setWork { s.work with rbyte, iptr, nrem }).bitsLeft = bs ∧ nrem.toNat ≤ 8 := by
  by_cases h0 : s.work.nrem = 0
  · rcases Nat.lt_or_ge s.work.iptr.toNat s.inLen.toNat with hip | hip
    · obtain ⟨rfl, hbs⟩ := List.cons.inj (h.symm.trans (bitsLeft_fetch h0 hip))
      exact ⟨_, _, _, fun k => getBit_fetch k h0 hip hin, hbs.symm, by decide⟩
    · exact absurd (h.symm.trans (bitsLeft_exhausted h0 hip)) (List.cons_ne_nil _ _)
  · obtain ⟨rfl, hbs⟩ := List.cons.inj (h.symm.trans (bitsLeft_unread h0 hnrem))
    have hpred := toNat_nrem_sub_one h0
    exact ⟨_, _, _, fun k => getBit_unread k h0, hbs.symm, by omega⟩

theorem getBit_nil {s : State} (hnrem : s.work.nrem.toNat ≤ 8) (h : s.bitsLeft = []) (k : Bool → State → Run) :
    getBit s k = .ended (s.raise .payloadTrunc) := by
  by_cases h0 : s.work.nrem = 0
  · rcases Nat.lt_or_ge s.work.iptr.toNat s.inLen.toNat with hip | hip
    · exact absurd ((bitsLeft_fetch h0 hip).symm.trans h) (List.cons_ne_nil _ _)
    · exact getBit_exhausted k h0 hip
  · exact absurd ((bitsLeft_unread h0 hnrem).symm.trans h) (List.cons_ne_nil _ _)

end Sys2Proof.Machine
end

section
/-! The tree traversal (44_bit_packer_reader.md R114 to R116): TRAV decodes the payload's bits as the function `decodeBits`
does, and what that function does with the paths of the tree. -/

namespace Sys2Proof.Machine

/-! ### A decoder of bit sequences -/

/-- The node a bit leads to (R114); a tree of one leaf is not walked (R115). `free` stands for the child of a leaf. -/
def walkTo (A : Arena) (root free cur : NodeIx) (b : Bool) : NodeIx :=
  if (A.get root).isLeaf then root else (A.get cur).child free b

/-- `n` symbols decoded from a bit sequence by walking from the node `cur`; nothing when the bits run out (R114, R116). -/
def decodeBits (A : Arena) (root free : NodeIx) : Nat → NodeIx → Bits → Option (List Byte)
  | 0, _, _ => some []
  | _ + 1, _, [] => none
  | n + 1, cur, b :: bs =>
    match A.get (walkTo A root free cur b) with
    | .leaf _ sym _ => (decodeBits A root free n root bs).map (sym :: ·)
    | .internal .. => decodeBits A root free (n + 1) (walkTo A root free cur b) bs

section

variable {A : Arena} {root free : NodeIx}

theorem decodeBits_zero (cur : NodeIx) (bs : Bits) : decodeBits A root free 0 cur bs = some [] := by
  rw [decodeBits]

theorem decodeBits_nil (n : Nat) (cur : NodeIx) : decodeBits A root free (n + 1) cur [] = none := by
  rw [decodeBits]

theorem decodeBits_leaf {cur : NodeIx} {b : Bool} {f : Word} {sym : Byte} {v : Bool}
    (h : A.get (walkTo A root free cur b) = .leaf f sym v) (n : Nat) (bs : Bits) :
    decodeBits A root free (n + 1) cur (b :: bs) = (decodeBits A root free n root bs).map (sym :: ·) := by
  rw [decodeBits, h]

theorem decodeBits_internal {cur i : NodeIx} {b : Bool} (hi : walkTo A root free cur b = i) (h : (A.get i).isLeaf = false)
    (n : Nat) (bs : Bits) :
    decodeBits A root free (n + 1) cur (b :: bs) = decodeBits A root free (n + 1) i bs := by
  rw [decodeBits, hi]
  cases hg : A.get i with
  | leaf => rw [hg] at h; cases h
  | internal => rfl

/-- As many symbols as were asked for, or none. -/
theorem length_of_decodeBits {n : Nat} {cur : NodeIx} {bs : Bits} {Y : List Byte}
    (h : decodeBits A root free n cur bs = some Y) : Y.length = n := by
  induction bs generalizing n cur Y with
  | nil =>
    cases n with
    | zero => rw [decodeBits_zero] at h; cases h; rfl
    | succ n => rw [decodeBits_nil] at h; cases h
  | cons b bs ih =>
    cases n with
    | zero => rw [decodeBits_zero] at h; cases h; rfl
    | succ n =>
      cases hg : A.get (walkTo A root free cur b) with
      | leaf f sym v =>
        rw [decodeBits_leaf hg] at h
        obtain ⟨Z, hZ, rfl⟩ := Option.map_eq_some_iff.mp h
        rw [List.length_cons, ih hZ]
      | internal =>
        rw [decodeBits_internal rfl (by rw [hg]; rfl)] at h
        exact ih h

/-! ### Bits that are paths of the tree -/

/-- With a leaf at the root every bit gives its symbol (R115). -/
theorem decodeBits_of_leaf {f : Word} {sym : Byte} {v : Bool} (hg : A.get root = .leaf f sym v) (n : Nat) (bs : Bits) :
    decodeBits A root free n root bs = if n ≤ bs.length then some (List.replicate n sym) else none := by
  have hwalk (b : Bool) : A.get (walkTo A root free root b) = .leaf f sym v := by rw [walkTo, hg]; exact hg
  induction bs generalizing n with
  | nil =>
    cases n with
    | zero => rw [decodeBits_zero]; rfl
    | succ n => rw [decodeBits_nil]; rfl
  | cons b bs ih =>
    cases n with
    | zero => rw [decodeBits_zero]; rfl
    | succ n =>
      rw [decodeBits_leaf (hwalk b), ih, List.length_cons, List.replicate_succ]
      by_cases h : n ≤ bs.length <;> simp [h]

section

variable (hroot : (A.get root).isLeaf = false)
include hroot

theorem walkTo_internal {i : NodeIx} {f : Word} {l r : NodeIx} {v : Bool} (hg : A.get i = .internal f l r v) (b : Bool) :
    walkTo A root free i b = if b then r else l := by
  rw [walkTo, hroot, hg]
  rfl

/-- The path of an internal node leads the decoder from the root to that node. -/
theorem decodeBits_path {i : NodeIx} {p : Bits} (hp : PathTo A root i p) (hi : (A.get i).isLeaf = false) (n : Nat)
    (bs : Bits) : decodeBits A root free (n + 1) root (p ++ bs) = decodeBits A root free (n + 1) i bs := by
  induction p using List.reverseRecOn generalizing i bs with
  | nil => rw [hp.eq_root rfl, List.nil_append]
  | append_singleton p b ih =>
    obtain ⟨j, f, l, r, v, hj, hg, rfl⟩ := pathTo_snoc.mp hp
    rw [List.append_assoc, ih hj (by rw [hg]; rfl), List.singleton_append,
      decodeBits_internal (walkTo_internal hroot hg b) hi]

/-- The path of a leaf gives the leaf's symbol. -/
theorem decodeBits_leafPath {i : NodeIx} {p : Bits} (hp : PathTo A root i p) {f : Word} {sym : Byte} {v : Bool}
    (hi : A.get i = .leaf f sym v) (n : Nat) (bs : Bits) :
    decodeBits A root free (n + 1) root (p ++ bs) = (decodeBits A root free n root bs).map (sym :: ·) := by
  rcases List.eq_nil_or_concat p with rfl | ⟨p, b, rfl⟩
  · rw [hp.eq_root rfl] at hi
    rw [hi] at hroot
    cases hroot
  · rw [List.concat_eq_append] at hp ⊢
    obtain ⟨j, f, l, r, v, hj, hg, rfl⟩ := pathTo_snoc.mp hp
    rw [← walkTo_internal hroot hg b] at hi
    rw [List.append_assoc, decodeBits_path hroot hj (by rw [hg]; rfl), List.singleton_append, decodeBits_leaf hi]

/-- The paths of some leaves, one after the other, give their symbols. -/
theorem decodeBits_flatMap {Y : List Byte} {c : Byte → Bits}
    (hY : ∀ y ∈ Y, ∃ i f v, PathTo A root i (c y) ∧ A.get i = .leaf f y v) (n : Nat) (bs : Bits) :
    decodeBits A root free (Y.length + n) root (Y.flatMap c ++ bs) = (decodeBits A root free n root bs).map (Y ++ ·) := by
  induction Y with
  | nil => simp
  | cons y Y ih =>
    obtain ⟨⟨i, f, v, hp, hi⟩, hY⟩ := List.forall_mem_cons.mp hY
    rw [List.flatMap_cons, List.append_assoc, List.length_cons, Nat.add_right_comm, decodeBits_leafPath hroot hp hi,
      ih hY, Option.map_map]
    rfl

end

end

/-! ### TRAV's loop -/

/-- What TRAV keeps from bit to bit, whatever STATUS and NODE hold: OPTR counts the symbols emitted, at most TOTAL, which
fits OUT, and CUR stays at a root that is a leaf. -/
structure Walking (s : State) : Prop where
  inFits : s.inLen.toNat ≤ s.cfg.inCap.toNat
  nrem : s.work.nrem.toNat ≤ 8
  optr : s.work.optr.toNat = s.work.emit.toNat
  le_total : s.work.emit.toNat ≤ s.work.total.toNat
  fits : s.work.total.toNat ≤ s.cfg.outCap.toNat
  cursor : (s.work.node.get s.work.root).isLeaf = true → s.work.cur = s.work.root

/-- The state once a bit has led to a leaf: its symbol is in OUT, and the walk starts again at the root. -/
def State.afterLeaf (s : State) (sym : Byte) : State :=
  { s with outMem := s.outMem.putAll s.work.optr.toNat [sym], work := { emitted s.work with cur := s.work.root } }

/-- The symbols that the bits bs give in the middle of TRAV (R114). -/
def State.decodedFrom (s : State) (bs : Bits) : Option (List Byte) :=
  decodeBits s.work.node s.work.root (Config.freeIndex s.draws) (s.work.total.toNat - s.work.emit.toNat) s.work.cur bs

/-- The end of TRAV with symbols that go to OUT from address a on, or with bits that run out (R114, R116). -/
def State.conclude (s : State) (a : Nat) : Option (List Byte) → State
  | none => s.raise .payloadTrunc
  | some Y => s.finishWith a Y

/-- The node that bit b leads to in the middle of TRAV. -/
def State.walk (s : State) (b : Bool) : NodeIx :=
  walkTo s.work.node s.work.root (Config.freeIndex s.draws) s.work.cur b

theorem emit_ok {s : State} (h : s.work.optr.toNat < s.cfg.outCap.toNat) (sym : Byte) :
    emit sym s = .going { s with outMem := s.outMem.putAll s.work.optr.toNat [sym], work := emitted s.work } := by
  rw [emit, memWrite_ok (B := [sym]) h]
  rfl

theorem afterLeaf_emit {s : State} (hlt : s.work.emit < s.work.total) (sym : Byte) :
    (s.afterLeaf sym).work.emit.toNat = s.work.emit.toNat + 1 := by
  have := BitVec.lt_def.mp hlt
  have := s.work.total.isLt
  exact (BitVec.toNat_add ..).trans (Nat.mod_eq_of_lt (by simp only [BitVec.reduceToNat]; omega))

theorem walk_of_leaf {s : State} {f : Word} {sym : Byte} {v : Bool} (hr : s.work.node.get s.work.root = .leaf f sym v)
    (b : Bool) : s.walk b = s.work.root := if_pos (by rw [hr]; rfl)

theorem walk_of_internal {s : State} {f : Word} {l r : NodeIx} {v : Bool}
    (hr : s.work.node.get s.work.root = .internal f l r v) (b : Bool) :
    s.walk b = (s.work.node.get s.work.cur).child (Config.freeIndex s.draws) b :=
  if_neg (by rw [hr]; exact Bool.false_ne_true)

/-- A tree of one leaf has no internal node to walk to. -/
theorem root_internal_of_walk {s : State} {b : Bool} {f : Word} {l r : NodeIx} {v : Bool}
    (hg : s.work.node.get (s.walk b) = .internal f l r v) :
    ∃ f₀ l₀ r₀ v₀, s.work.node.get s.work.root = .internal f₀ l₀ r₀ v₀ := by
  cases hr : s.work.node.get s.work.root with
  | leaf =>
    rw [walk_of_leaf hr, hr] at hg
    cases hg
  | internal f₀ l₀ r₀ v₀ => exact ⟨f₀, l₀, r₀, v₀, rfl⟩

/-- A bit that leads to an internal node moves CUR there (R114). -/
theorem walkBit_internal {s : State} {b : Bool} {f : Word} {l r : NodeIx} {v : Bool}
    (hg : s.work.node.get (s.walk b) = .internal f l r v) :
    walkBit b s = .going (s.setWork { s.work with cur := s.walk b }) := by
  obtain ⟨f₀, l₀, r₀, v₀, hr⟩ := root_internal_of_walk hg
  rw [walk_of_internal hr] at hg ⊢
  rw [walkBit, hr]
  simp only [State.setWork_work, hg]

/-! ### The symbols that the bits to come give -/

theorem decodedFrom_done {s : State} (h : ¬s.work.emit < s.work.total) (bs : Bits) : s.decodedFrom bs = some [] := by
  rw [State.decodedFrom, Nat.sub_eq_zero_of_le (Nat.not_lt.mp h), decodeBits_zero]

section

variable {s : State} (hlt : s.work.emit < s.work.total)
include hlt

/-- While symbols are to be emitted, how many follow the next one. -/
theorem total_sub_emit : s.work.total.toNat - s.work.emit.toNat = s.work.total.toNat - (s.work.emit.toNat + 1) + 1 := by
  have := BitVec.lt_def.mp hlt
  omega

theorem decodedFrom_nil : s.decodedFrom [] = none := by
  rw [State.decodedFrom, total_sub_emit hlt, decodeBits_nil]

theorem decodedFrom_leaf {b : Bool} {f : Word} {sym : Byte} {v : Bool}
    (hg : s.work.node.get (s.walk b) = .leaf f sym v) (bs : Bits) :
    s.decodedFrom (b :: bs) = ((s.afterLeaf sym).decodedFrom bs).map (sym :: ·) := by
  rw [State.decodedFrom, total_sub_emit hlt, decodeBits_leaf hg, State.decodedFrom, afterLeaf_emit hlt]
  rfl

theorem decodedFrom_internal {b : Bool} {f : Word} {l r : NodeIx} {v : Bool}
    (hg : s.work.node.get (s.walk b) = .internal f l r v) (bs : Bits) :
    s.decodedFrom (b :: bs) = (s.setWork { s.work with cur := s.walk b }).decodedFrom bs := by
  rw [State.decodedFrom, State.decodedFrom, State.setWork_work, total_sub_emit hlt]
  exact decodeBits_internal rfl (congrArg Node.isLeaf hg) _ bs

end

theorem conclude_setWork (s : State) (w : Scratch) (a : Nat) (o : Option (List Byte)) :
    (s.setWork w).conclude a o = s.conclude a o := by cases o <;> rfl

/-- A symbol that is in OUT already is the first of those the operation ends with. -/
theorem conclude_afterLeaf (s : State) (sym : Byte) (o : Option (List Byte)) :
    (s.afterLeaf sym).conclude (s.work.optr.toNat + 1) o = s.conclude s.work.optr.toNat (o.map (sym :: ·)) := by
  cases o with
  | none => rfl
  | some Y =>
    have hlen : s.work.optr.toNat + (sym :: Y).length = s.work.optr.toNat + 1 + Y.length := by
      rw [List.length_cons]; omega
    rw [Option.map_some, State.conclude, State.conclude, State.finishWith, State.finishWith, hlen]
    rfl

/-- The end of TRAV when the bits bs are to come. -/
def State.travResult (s : State) (bs : Bits) : State := s.conclude s.work.optr.toNat (s.decodedFrom bs)

theorem travResult_done {s : State} (h : ¬s.work.emit < s.work.total) (bs : Bits) :
    s.travResult bs = s.finish s.work.optr := by
  rw [State.travResult, decodedFrom_done h, State.conclude, State.finishWith, List.length_nil, Nat.add_zero,
    BitVec.ofNat_toNat, BitVec.setWidth_eq]
  rfl

theorem travResult_nil {s : State} (h : s.work.emit < s.work.total) : s.travResult [] = s.raise .payloadTrunc := by
  rw [State.travResult, decodedFrom_nil h]
  rfl

/-- The reader's registers matter only for which bits are to come. -/
theorem travResult_setReader (s : State) (rbyte : Byte) (iptr : Word64) (nrem : BitVec 4) (bs : Bits) :
    (s.setWork { s.work with rbyte, iptr, nrem }).travResult bs = s.travResult bs := conclude_setWork ..

section

variable {s : State} (h : Walking s)
include h

theorem Walking.setReader (rbyte : Byte) (iptr : Word64) {nrem : BitVec 4} (hn : nrem.toNat ≤ 8) :
    Walking (s.setWork { s.work with rbyte, iptr, nrem }) :=
  ⟨h.inFits, hn, h.optr, h.le_total, h.fits, h.cursor⟩

theorem Walking.setCur {i : NodeIx} (hroot : (s.work.node.get s.work.root).isLeaf = false) :
    Walking (s.setWork { s.work with cur := i }) :=
  ⟨h.inFits, h.nrem, h.optr, h.le_total, h.fits, fun hl => by rw [State.setWork_work, hroot] at hl; cases hl⟩

theorem Walking.optr_lt (hlt : s.work.emit < s.work.total) : s.work.optr.toNat < s.cfg.outCap.toNat :=
  (h.optr.trans_lt (BitVec.lt_def.mp hlt)).trans_le h.fits

theorem Walking.afterLeaf_optr (hlt : s.work.emit < s.work.total) (sym : Byte) :
    (s.afterLeaf sym).work.optr.toNat = s.work.optr.toNat + 1 := by
  have := h.optr_lt hlt
  have := s.cfg.outCap.isLt
  exact (BitVec.toNat_ofNat ..).trans (Nat.mod_eq_of_lt (by omega))

theorem Walking.afterLeaf (hlt : s.work.emit < s.work.total) (sym : Byte) : Walking (s.afterLeaf sym) where
  inFits := h.inFits
  nrem := h.nrem
  optr := by rw [h.afterLeaf_optr hlt, afterLeaf_emit hlt, h.optr]
  le_total := (afterLeaf_emit hlt sym).trans_le (BitVec.lt_def.mp hlt)
  fits := h.fits
  cursor _ := rfl

/-- A bit that leads to a leaf emits its symbol (R114, R115). -/
theorem walkBit_leaf (hlt : s.work.emit < s.work.total) {b : Bool} {f : Word} {sym : Byte} {v : Bool}
    (hg : s.work.node.get (s.walk b) = .leaf f sym v) : walkBit b s = .going (s.afterLeaf sym) := by
  cases hr : s.work.node.get s.work.root with
  | leaf =>
    have hcur := h.cursor (by rw [hr]; rfl)
    rw [walk_of_leaf hr, hr] at hg
    cases hg
    rw [walkBit, hr, State.afterLeaf, ← hcur]
    exact emit_ok (h.optr_lt hlt) sym
  | internal =>
    rw [walk_of_internal hr] at hg
    rw [walkBit, hr]
    simp only [State.setWork_work, hg]
    rw [emit_ok (by exact h.optr_lt hlt)]
    rfl

end

/-- One bit of the walk: what is to come decodes to the same end. -/
theorem walkBit_travResult {s : State} (h : Walking s) (hlt : s.work.emit < s.work.total) (b : Bool) :
    ∃ t, walkBit b s = .going t ∧ Walking t ∧ t.bitsLeft = s.bitsLeft ∧
      ∀ bs, t.travResult bs = s.travResult (b :: bs) := by
  cases hg : s.work.node.get (s.walk b) with
  | leaf f sym v =>
    refine ⟨_, walkBit_leaf h hlt hg, h.afterLeaf hlt sym, rfl, fun bs => ?_⟩
    rw [State.travResult, h.afterLeaf_optr hlt, conclude_afterLeaf, ← decodedFrom_leaf hlt hg, State.travResult]
  | internal f l r v =>
    obtain ⟨f₀, l₀, r₀, v₀, hr⟩ := root_internal_of_walk hg
    refine ⟨_, walkBit_internal hg, h.setCur (by rw [hr]; rfl), rfl, fun bs => ?_⟩
    rw [State.travResult, conclude_setWork, ← decodedFrom_internal hlt hg]
    rfl

/-- TRAV's loop, given more turns than there are bits, ends as the decoder does. -/
theorem travLoop_eq {fuel : Nat} {s : State} (h : Walking s) (hfuel : s.bitsLeft.length < fuel) :
    ((travLoop fuel s).andThen fun t => .ended (t.finish t.work.optr)) = .ended (s.travResult s.bitsLeft) := by
  induction fuel generalizing s with
  | zero => exact absurd hfuel (Nat.not_lt_zero _)
  | succ fuel ih =>
    rw [travLoop]
    by_cases hlt : s.work.emit < s.work.total
    · rw [if_pos hlt]
      cases hbits : s.bitsLeft with
      | nil =>
        rw [getBit_nil h.nrem hbits, travResult_nil hlt]
        rfl
      | cons b bs =>
        rw [hbits, List.length_cons] at hfuel
        obtain ⟨rbyte, iptr, nrem, hget, hleft, hnrem⟩ := getBit_cons h.inFits h.nrem hbits
        obtain ⟨t, hwalk, ht, hbs, hres⟩ := walkBit_travResult (h.setReader rbyte iptr hnrem) hlt b
        rw [hleft] at hbs
        rw [hget, hwalk, Run.andThen_going, ih ht (by rw [hbs]; omega), hbs, hres, travResult_setReader]
    · rw [if_neg hlt, Run.andThen_going, travResult_done hlt]

/-- The symbols that the payload gives TRAV, TOTAL of them, or none when its bits run out (R114, R116). -/
def State.symbols (s : State) : Option (List Byte) :=
  decodeBits s.work.node s.work.root (Config.freeIndex s.draws) s.work.total.toNat s.work.root (unpackBits s.unread)

section

variable {s : State} (hin : s.inLen.toNat ≤ s.cfg.inCap.toNat) (hcap : s.work.total.toNat ≤ s.cfg.outCap.toNat)
include hcap

theorem symbols_fit {Y : List Byte} (hY : s.symbols = some Y) : 0 + Y.length ≤ s.cfg.outCap.toNat := by
  rw [length_of_decodeBits hY, Nat.zero_add]
  exact hcap

theorem ended_symbols {Y : List Byte} (hY : s.symbols = some Y) :
    Ended s (s.finishWith 0 Y) (Status.success s.status.op) s.work.total.toNat := by
  have hend := ended_finishWith (symbols_fit hcap hY)
  rwa [length_of_decodeBits hY, Nat.zero_add] at hend

include hin

/-- TRAV ends as the decoder does on the payload's bits. -/
theorem exec_trav_eq : exec .trav s = .next (s.conclude 0 s.symbols) := by
  have h : Walking (s.setWork { s.work with optr := 0, emit := 0, cur := s.work.root, nrem := 0 }) :=
    ⟨hin, Nat.zero_le _, rfl, Nat.zero_le _, hcap, fun _ => rfl⟩
  have hbits : (s.setWork { s.work with optr := 0, emit := 0, cur := s.work.root, nrem := 0 }).bitsLeft =
      unpackBits s.unread := bitsLeft_of_nrem_eq_zero rfl
  have hloop := travLoop_eq (fuel := 8 * (s.inLen.toNat - s.work.iptr.toNat) + 1) h (by
    rw [hbits, unpackBits_length, State.unread_length]
    exact Nat.lt_succ_self _)
  rw [hbits, State.travResult, conclude_setWork] at hloop
  rw [exec_trav, travRule]
  exact congrArg Run.outcome hloop

theorem exec_trav_decodes {Y : List Byte} (hY : s.symbols = some Y) : exec .trav s = .next (s.finishWith 0 Y) := by
  rw [exec_trav_eq hin hcap, hY]
  rfl

theorem exec_trav_truncated (hY : s.symbols = none) : exec .trav s = .next (s.raise .payloadTrunc) := by
  rw [exec_trav_eq hin hcap, hY]
  rfl

end

/-! ### The obligations -/

theorem isSome_of_holds {m : Memory} {B : List Byte} (h : Holds m 0 B) {a : Nat} (ha : a < B.length) :
    (m.get a).isSome := by
  rw [← Nat.zero_add a, h a ha, List.getElem?_eq_getElem ha]
  rfl

/-- Settles O46: as many symbols as TOTAL are in OUT, or the bits ran out. -/
theorem travEnds : Obligations.TravEnds := by
  intro s hin hcap
  cases hY : s.symbols with
  | none => exact ⟨_, exec_trav_truncated hin hcap hY, .inr ⟨ended_raise s _, fun _ => rfl⟩⟩
  | some Y =>
    have hlen : Y.length = s.work.total.toNat := length_of_decodeBits hY
    have hfit := symbols_fit hcap hY
    exact ⟨_, exec_trav_decodes hin hcap hY, .inl ⟨ended_symbols hcap hY,
      fun a ha => isSome_of_holds (holds_finishWith hfit) (by omega), fun a ha => get_finishWith_of_le hfit (by omega)⟩⟩

/-- Settles O47: each path gives its leaf's symbol, and nothing more is asked for. -/
theorem travDecodesPaths : Obligations.TravDecodesPaths := by
  intro s Y c rest hin _ hcap hroot hY hbits hlen
  have hsym : s.symbols = some Y := by
    rw [State.inBytes_to_end] at hbits
    rw [State.symbols, State.unread, hbits, ← hlen, ← Nat.add_zero Y.length, decodeBits_flatMap hroot hY, decodeBits_zero,
      Option.map_some, List.append_nil]
  exact ⟨_, exec_trav_decodes hin hcap hsym, ended_symbols hcap hsym, holds_finishWith (symbols_fit hcap hsym)⟩

/-- Settles O48: the decoder stands at an internal node with a symbol to find and no bit left. -/
theorem travReportsTruncation : Obligations.TravReportsTruncation := by
  intro s Y c j q hin _ hcap hroot hY hq hj hbits hlen
  have hsym : s.symbols = none := by
    obtain ⟨n, hn⟩ := Nat.exists_eq_add_of_lt hlen
    rw [State.inBytes_to_end] at hbits
    rw [State.symbols, State.unread, hbits, hn, Nat.add_assoc, decodeBits_flatMap hroot hY, ← List.append_nil q,
      decodeBits_path hroot hq hj, decodeBits_nil, Option.map_none]
  exact ⟨_, exec_trav_truncated hin hcap hsym, ended_raise s _⟩

/-- Settles O49: with a leaf at the root the number of bits decides. -/
theorem travOfOneSymbol : Obligations.TravOfOneSymbol := by
  intro s f sym v hin _ hcap hg
  have hsym : s.symbols = if s.work.total.toNat ≤ 8 * (s.inLen.toNat - s.work.iptr.toNat)
      then some (List.replicate s.work.total.toNat sym) else none := by
    rw [State.symbols, decodeBits_of_leaf hg, unpackBits_length, State.unread_length]
  refine ⟨fun hle => ?_, fun hlt => ?_⟩
  · rw [if_pos hle] at hsym
    exact ⟨_, exec_trav_decodes hin hcap hsym, ended_symbols hcap hsym, holds_finishWith (symbols_fit hcap hsym)⟩
  · rw [if_neg (Nat.not_le.mpr hlt)] at hsym
    exact ⟨_, exec_trav_truncated hin hcap hsym, ended_raise s _⟩

end Sys2Proof.Machine
end

section
/-! A command as a whole (10_state.md R13, 70_reset_and_hazards.md R170): its acceptance, the engine's steps that follow it,
and the result that the host reads at the end. -/

namespace Sys2Proof.Machine

/-! ### Acceptance -/

/-- The operation `op` has been accepted and stands before its first phase `p` (10_state.md R13). -/
def State.begun (s : State) (op : Op) (p : Phase) : State :=
  { s.fresh with status := ⟨true, false, false, .noError, p, op⟩ }

theorem fresh_status {s : State} (hb : s.status.busy = false) :
    s.fresh.status = ⟨false, false, false, .noError, .idle, s.status.op⟩ := by
  simp [State.fresh, Status.cleared, hb]

section

variable {s : State} (hb : s.status.busy = false) {op : Op}
include hb

/-- A length beyond IN_CAP, or for COMPRESS beyond MAXN, gives E_LEN (45_compressor.md R121, 46_decompressor.md R131). -/
theorem begin_tooLong
    (h : s.inLen.toNat > s.cfg.inCap.toNat ∨ op = .compress ∧ s.inLen.toNat > Config.maxn) :
    s.fresh.begin op = State.raise .len { s.fresh with status := ⟨false, false, false, .noError, .idle, op⟩ } := by
  rcases begin_cases s.fresh op with ⟨-, heq⟩ | ⟨hin, hmax, -⟩
  · rw [heq, fresh_status hb]
  · rcases h with h | ⟨hop, h⟩
    · exact absurd hin (Nat.not_le.mpr h)
    · exact absurd (hmax hop) (Nat.not_le.mpr h)

/-- Any other length starts the operation. -/
theorem begin_fits (hin : s.inLen.toNat ≤ s.cfg.inCap.toNat) (hmax : op = .compress → s.inLen.toNat ≤ Config.maxn) :
    s.fresh.begin op = s.begun op (if op = .compress then .freq else .hdrr) := by
  rcases begin_cases s.fresh op with ⟨h, -⟩ | ⟨-, -, heq⟩
  · rcases h with h | ⟨hop, h⟩
    · exact absurd hin (Nat.not_le.mpr h)
    · exact absurd (hmax hop) (Nat.not_le.mpr h)
  · rw [heq, fresh_status hb]
    rfl

theorem accept_compress : s.accept 1 = s.fresh.begin .compress := by rw [accept_idle hb, if_pos rfl]

theorem accept_compress_fits (hin : s.inLen.toNat ≤ s.cfg.inCap.toNat) (hmax : s.inLen.toNat ≤ Config.maxn) :
    s.accept 1 = s.begun .compress .freq := by
  rw [accept_compress hb, begin_fits hb hin fun _ => hmax, if_pos rfl]

end

theorem running_begun_compress {s : State} (hin : s.inLen.toNat ≤ s.cfg.inCap.toNat)
    (hmax : s.inLen.toNat ≤ Config.maxn) : Running .compress .freq (s.begun .compress .freq) :=
  ⟨rfl, rfl, Memory.wf_nil, nofun, rfl, hin, fun _ => hmax⟩

/-- Settles O9: `Accept` while BUSY = 1, and the two ends of the length checks. -/
theorem compressAcceptance : Obligations.CompressAcceptance := by
  refine fun s => ⟨fun hb => ?_, fun hb hlong => ⟨s.accept 1, rfl, ?_⟩, fun hb hin hmax => ⟨s.accept 1, rfl, ?_⟩⟩
  · exact congrArg _ (accept_busy hb _)
  · have haccept := (accept_compress hb).trans (begin_tooLong hb (hlong.imp_right fun h => ⟨rfl, h⟩))
    have hstatus : (s.accept 1).status = Status.failure .compress .len .idle := by rw [haccept]; rfl
    refine ⟨⟨hstatus, ?_, (frame_accept 1 s).1⟩, ?_⟩
    · rw [haccept]; rfl
    · rw [hstatus]; decide
  · have haccept := accept_compress_fits hb hin hmax
    have hstatus : (s.accept 1).status = ⟨true, false, false, .noError, .freq, .compress⟩ := by rw [haccept]; rfl
    refine ⟨⟨hstatus, ?_, (frame_accept 1 s).1⟩, ?_, fun a => ?_⟩
    · rw [haccept]; rfl
    · rw [hstatus]; decide
    · rw [haccept]; rfl

/-! ### The engine's steps -/

/-- With no turn of the host's to come, steps keep the frame. -/
theorem frame_steps {n : Nat} {s t : State} (ht : s.turns = []) (h : steps n s = .next t) : Frame s t := by
  induction n generalizing s with
  | zero => cases h; exact .refl _
  | succ n ih =>
    cases hstep : step s with
    | next u =>
      rw [steps_next hstep] at h
      have hu := frame_engineStep ((step_nil ht).symm.trans hstep)
      exact hu.trans (ih (hu.1.turns.trans ht) h)
    | fault f => simp [steps, hstep] at h
    | refused r => simp [steps, hstep] at h

/-- After `n` steps from `s` STATUS is `st` and the result is the bytes B: they are OUT[0 .. OUT_LEN). -/
def EndsWith (n : Nat) (s : State) (st : Status) (B : List Byte) : Prop :=
  ∃ t, steps n s = .next t ∧ t.status = st ∧ t.outLen.toNat = B.length ∧ Holds t.outMem 0 B

theorem holds_nil (m : Memory) (a : Nat) : Holds m a [] := fun _ hq => absurd hq (Nat.not_lt_zero _)

theorem Holds.append {m : Memory} {a : Nat} {B C : List Byte} (hB : Holds m a B) (hC : Holds m (a + B.length) C) :
    Holds m a (B ++ C) := by
  intro q hq
  rcases Nat.lt_or_ge q B.length with hlt | hge
  · rw [List.getElem?_append_left hlt, hB q hlt]
  · obtain ⟨d, rfl⟩ := Nat.exists_eq_add_of_le hge
    rw [List.length_append] at hq
    rw [← Nat.add_assoc, hC d (by omega), List.getElem?_append_right hge, Nat.add_sub_cancel_left]

/-- An idle block has come to its end. -/
theorem endsWith_idle {s : State} {B : List Byte} (ht : s.turns = []) (hb : s.status.busy = false)
    (hlen : s.outLen.toNat = B.length) (hB : Holds s.outMem 0 B) (n : Nat) : EndsWith n s s.status B :=
  ⟨s, steps_idle hb ht n, rfl, hlen, hB⟩

section

variable {op : Op} {p : Phase} {s : State} (hs : Running op p s) (ht : s.turns = [])
include hs ht

/-- While the operation runs the engine's step is the phase at hand. -/
theorem EndsWith.of_exec {i : Instr} (hi : decode (.phase p.bits) = .ok i) {t : State} (h : exec i s = .next t) {n : Nat}
    {st : Status} {B : List Byte} (hn : EndsWith n t st B) : EndsWith (n + 1) s st B := by
  have hstep : step s = .next t := by
    rw [step_nil ht, engineStep_decoded (by rw [hs.status]) (by rw [hs.status]; exact hi), h]
  obtain ⟨u, hu, hrest⟩ := hn
  exact ⟨u, (steps_next hstep n).trans hu, hrest⟩

theorem endsWith_raise (e : ErrCode) (n : Nat) : EndsWith n (s.raise e) (Status.failure op e p) [] := by
  have hst : (s.raise e).status = Status.failure op e p := by rw [State.raise_status, hs.status]; rfl
  exact hst ▸ endsWith_idle (s := s.raise e) ht rfl rfl (holds_nil _ _) n

theorem endsWith_finish_zero (n : Nat) : EndsWith n (s.finish 0) (Status.success op) [] := by
  have hst : (s.finish 0).status = Status.success op := by rw [State.finish_status, hs.status]; rfl
  exact hst ▸ endsWith_idle (s := s.finish 0) ht rfl rfl (holds_nil _ _) n

/-- The bytes of OUT below `a`, all written before, begin the result. -/
theorem endsWith_finishWith {a : Nat} {H P : List Byte} (ha : a = H.length) (hH : Holds s.outMem 0 H)
    (hcap : a + P.length ≤ s.cfg.outCap.toNat) (n : Nat) :
    EndsWith n (s.finishWith a P) (Status.success op) (H ++ P) := by
  have hend := ended_finishWith hcap
  have hst : (s.finishWith a P).status = Status.success op := by rw [hend.status, hs.status]
  have hbelow : Holds (s.finishWith a P).outMem 0 H := fun q hq => by
    rw [get_finishWith_of_lt hcap (by omega), hH q hq]
  have hpayload : Holds (s.finishWith a P).outMem (0 + H.length) P := by
    rw [Nat.zero_add, ← ha]
    exact holds_finishWith hcap
  refine hst ▸ endsWith_idle (s := s.finishWith a P) ht rfl ?_ (hbelow.append hpayload) n
  rw [hend.outLen, List.length_append, ha]

end

/-! ### The command -/

theorem frame_runCommand {w : Word} {s t : State} (h : runCommand w s = .next t) : Frame { s with turns := [] } t := by
  rw [runCommand, steps_next (step_issue w s)] at h
  exact (frame_accept w _).trans (frame_steps (frame_accept w _).1.turns h)

/-- The host reads of a result what OUT holds of it (20_memory.md R43). -/
theorem output_of_holds {t : State} {B : List Byte} (hv : (t.status.done && !t.status.err) = true)
    (hlen : t.outLen.toNat = B.length) (hB : Holds t.outMem 0 B) : t.output = B := by
  refine List.ext_getElem (by rw [State.output, List.length_map, List.length_range, hlen]) fun a ha ha' => ?_
  have hvalid : t.outValid a = true := by rw [State.outValid, hv, hlen, decide_eq_true ha']; rfl
  have hget := hB a ha'
  rw [Nat.zero_add] at hget
  simp [State.output, State.outByte, hvalid, hget, ha']

section

variable {w : Word} {s : State} {op : Op}

theorem succeeds_of_endsWith {Y : List Byte}
    (h : EndsWith 5 (State.accept w { s with turns := [] }) (Status.success op) Y) : Succeeds w s op Y := by
  obtain ⟨t, hrun, hst, hlen, hY⟩ := h
  have hcommand : runCommand w s = .next t := (steps_next (step_issue w s) 5).trans hrun
  obtain ⟨hhost, -⟩ := frame_runCommand hcommand
  exact ⟨t, hcommand, hst, output_of_holds (by rw [hst]; rfl) hlen hY, hhost.inMem, hhost.inLen⟩

theorem fails_of_endsWith {e : ErrCode} {p : Phase}
    (h : EndsWith 5 (State.accept w { s with turns := [] }) (Status.failure op e p) []) : Fails w s op e p := by
  obtain ⟨t, hrun, hst, hlen, -⟩ := h
  have hcommand : runCommand w s = .next t := (steps_next (step_issue w s) 5).trans hrun
  obtain ⟨hhost, -⟩ := frame_runCommand hcommand
  exact ⟨t, hcommand, hst, BitVec.eq_of_toNat_eq hlen, hhost.inMem, hhost.inLen⟩

end

end Sys2Proof.Machine
end

section
/-! COMPRESS as a whole (45_compressor.md R123 to R126): the phases up to HDRW leave the tables of the input, HDRW and PACK
write the container of these, and the empty input and the input of one symbol are cases of it. -/

namespace Sys2Proof.Machine

/-! ### From FREQ to CODE -/

/-- The state with the arena that `treeOf` starts from. -/
def State.blankArena (s : State) : State := s.setWork { s.work with node := Scratch.zero.node }

/-- From a blank arena TREE builds the tree of FREQ; one node is live at the end, so ROOT is no free value. -/
theorem treeRule_blankArena {s : State} (h : FreqOk s.work) :
    ((treeRule s.blankArena).work.node, (treeRule s.blankArena).work.root) = treeOf s.work.freq := by
  have hne : present s.work.freq ≠ [] := List.ne_nil_of_length_pos (h.distinct ▸ h.one_le)
  obtain ⟨i, L, hL⟩ := List.exists_cons_of_ne_nil (buildTree_live hne Scratch.zero.node)
  have hroot : (treeRule s.blankArena).work.root =
      (liveSet (buildTree s.work.freq s.work.k.toNat Scratch.zero.node).1
        (buildTree s.work.freq s.work.k.toNat Scratch.zero.node).2).headD (Config.freeIndex s.draws) := rfl
  rw [h.distinct] at hL
  rw [hroot, treeOf, h.distinct, hL]
  rfl

/-- TREE and CODE leave the code table of FREQ, whatever the arena and the free values were (42_code_table_generator.md
R97 (e)). -/
theorem codeRule_treeRule_code {s : State} (h : FreqOk s.work) :
    (codeRule (treeRule s)).work.code = codesOf s.work.freq := by
  have htwin : TreeTwin (treeRule s.blankArena).work (treeRule s).work :=
    treeRule_treeTwin (h.congr rfl rfl rfl) h rfl
  calc (codeRule (treeRule s)).work.code
    _ = codeTable (treeRule s).work.node (treeRule s).work.root := rfl
    _ = codeTable (treeRule s.blankArena).work.node (treeRule s.blankArena).work.root := codeTable_twin htwin
    _ = codesOf s.work.freq := by rw [codesOf, ← treeRule_blankArena h]

/-- The state before HDRW: FREQ, TREE and CODE have run (45_compressor.md R122). -/
def State.prepared (s : State) : State := codeRule (treeRule ((s.setWork s.counted).setPhase .tree))

section

variable {s : State} (hs : Running .compress .freq s) (h0 : s.inLen ≠ 0)
include hs h0

theorem entered_counted : Entered .compress .tree ((s.setWork s.counted).setPhase .tree) := by
  have hsat := sat_freqRule hs
  rwa [freqRule_eq hs.inFits (hs.maxn rfl), if_neg h0] at hsat

theorem freqOk_counted : FreqOk s.counted := by
  obtain ⟨hr, hw⟩ := entered_counted hs h0
  exact (hr.workOk_tree.mp hw).1

theorem entered_prepared : Entered .compress .hdrw s.prepared :=
  entered_codeRule (entered_treeRule (entered_counted hs h0))

theorem prepared_code : s.prepared.work.code = codesOf (countBytes s.input) :=
  codeRule_treeRule_code (s := (s.setWork s.counted).setPhase .tree) (freqOk_counted hs h0)

/-- FREQ, TREE and CODE are three steps, none of which ends the operation on an input that is not empty. -/
theorem endsWith_of_prepared (ht : s.turns = []) {n : Nat} {st : Status} {B : List Byte}
    (h : EndsWith n s.prepared st B) : EndsWith (n + 3) s st B := by
  have hfreq := entered_counted hs h0
  have htree := entered_treeRule hfreq
  exact .of_exec hs ht rfl (exec_freq_nonempty hs.inFits (hs.maxn rfl) h0)
    (.of_exec hfreq.1 ht rfl (exec_tree _) (.of_exec htree.1 ht rfl (exec_code _) h))

end

/-! ### HDRW and PACK -/

/-- The container of the tables: the header that HDRW writes and the payload that PACK writes (30_encoding.md R65, R68). -/
def State.container (s : State) : List Byte :=
  encodeHeader (headerOf s.work) ++ packBits (codeBits s.work.code s.input)

/-- The closed form is the container of the input's tables (45_compressor.md R123). -/
theorem container_eq_compressed {s : State} (hok : FreqOk s.work) (h0 : s.inLen ≠ 0)
    (hmax : s.inLen.toNat ≤ Config.maxn) (hfreq : s.work.freq = countBytes s.input)
    (hcode : s.work.code = codesOf (countBytes s.input)) : s.container = compressed s.input := by
  have hlen : s.input.length < 2 ^ 32 := by rw [State.input_length]; exact hmax.trans_lt (by decide)
  have htotal : s.work.total.toNat = s.input.length := by rw [← hok.sum, hfreq, sum_present_countBytes _ hlen]
  rw [State.container, ← headerBytes_eq_encodeHeader hok, headerBytes, ← hok.distinct, htotal, hcode, hfreq, compressed,
    if_neg (mt s.input_eq_nil_iff.mp h0)]

/-- The state before PACK: HDRW has written the header (43_header_codec.md R100). -/
def State.headed (s : State) : State :=
  { s with
    status := { s.status with phase := .pack }
    outMem := s.outMem.putAll 0 (encodeHeader (headerOf s.work))
    work := { s.work with optr := BitVec.ofNat 64 (5 * s.work.k.toNat + 8) } }

section

variable {s : State} (hs : Entered .compress .hdrw s)
include hs

theorem Entered.freqOk_hdrw : FreqOk s.work := hs.1.workOk_hdrw.mp hs.2

theorem length_header : (encodeHeader (headerOf s.work)).length = 5 * s.work.k.toNat + 8 := by
  rw [encodeHeader_length, headerOf_length hs.freqOk_hdrw]

theorem headed_optr : s.headed.work.optr.toNat = (encodeHeader (headerOf s.work)).length := by
  rw [length_header hs]
  exact (BitVec.toNat_ofNat ..).trans (Nat.mod_eq_of_lt (by omega))

theorem running_headed (hcap : 5 * s.work.k.toNat + 8 ≤ s.cfg.outCap.toNat) : Running .compress .pack s.headed := by
  have hfit : 0 + (encodeHeader (headerOf s.work)).length ≤ s.cfg.outCap.toNat := by rwa [length_header hs, Nat.zero_add]
  exact ((hs.1.putAll hfit).setWork _).setPhase rfl

variable (ht : s.turns = [])
include ht

/-- A container that fits is the result: the header stays in OUT below the payload. -/
theorem endsWith_container (hcap : s.container.length ≤ s.cfg.outCap.toNat) :
    EndsWith 2 s (Status.success .compress) s.container := by
  rw [State.container, List.length_append] at hcap
  have hhdr : 5 * s.work.k.toNat + 8 ≤ s.cfg.outCap.toNat := by rw [← length_header hs]; omega
  have hr := running_headed hs hhdr
  have ho := headed_optr hs
  have hfit : s.headed.work.optr.toNat + (packBits (codeBits s.work.code s.input)).length ≤ s.headed.cfg.outCap.toNat :=
    ho ▸ hcap
  have hheader : Holds s.headed.outMem 0 (encodeHeader (headerOf s.work)) := fun _ hq =>
    Memory.get_putAll_inside _ _ _ _ hq
  exact .of_exec hs.1 ht rfl (exec_hdrw_fits hs.freqOk_hdrw hhdr)
    (.of_exec hr ht rfl (exec_pack_fits hr.inFits rfl hfit) (endsWith_finishWith hr ht ho hheader hfit 0))

/-- A container that does not fit ends the operation where the first byte without a place is to be written. -/
theorem endsWith_container_overflow (hcap : s.cfg.outCap.toNat < s.container.length) :
    EndsWith 2 s (Status.failure .compress .outOvf .hdrw) [] ∨ EndsWith 2 s (Status.failure .compress .outOvf .pack) [] := by
  rw [State.container, List.length_append] at hcap
  rcases Nat.lt_or_ge s.cfg.outCap.toNat (5 * s.work.k.toNat + 8) with hlt | hhdr
  · exact .inl (.of_exec hs.1 ht rfl (exec_hdrw_overflow hlt) (endsWith_raise hs.1 ht _ 1))
  · have hr := running_headed hs hhdr
    have ho := headed_optr hs
    have hover : s.headed.cfg.outCap.toNat <
        s.headed.work.optr.toNat + (packBits (codeBits s.work.code s.input)).length := by rw [ho]; exact hcap
    have hne : packBits (codeBits s.work.code s.input) ≠ [] := fun hnil => by
      rw [hnil, length_header hs, List.length_nil] at hcap
      omega
    exact .inr (.of_exec hs.1 ht rfl (exec_hdrw_fits hs.freqOk_hdrw hhdr)
      (.of_exec hr ht rfl (exec_pack_overflow hr.inFits rfl hne hover) (endsWith_raise hr ht _ 0)))

end

/-! ### The command -/

/-- FREQ ends the operation on an empty input (R125). -/
theorem endsWith_of_empty {s : State} (hs : Running .compress .freq s) (h0 : s.inLen = 0) (ht : s.turns = []) (n : Nat) :
    EndsWith (n + 1) s (Status.success .compress) [] :=
  .of_exec hs ht rfl (exec_freq_empty hs.inFits (hs.maxn rfl) h0) (endsWith_finish_zero (hs.setWork s.counted) ht n)

theorem compressed_nil : compressed [] = [] := if_pos rfl

/-- Settles O55: from acceptance on, the phases by what each leaves. -/
theorem compressProducesTheContainer : Obligations.CompressProducesTheContainer := by
  intro s hb hin hmax
  have haccept := accept_compress_fits (s := { s with turns := [] }) hb hin hmax
  have hs : Running .compress .freq (State.begun { s with turns := [] } .compress .freq) :=
    running_begun_compress hin hmax
  by_cases h0 : s.inLen = 0
  · have hnil : compressed s.input = [] := by rw [s.input_eq_nil_iff.mpr h0, compressed_nil]
    rw [hnil]
    refine ⟨fun _ => succeeds_of_endsWith ?_, fun h => absurd h (Nat.not_lt_zero _)⟩
    rw [haccept]
    exact endsWith_of_empty hs h0 rfl 4
  · have hprep := entered_prepared hs h0
    have hcontainer : (State.begun { s with turns := [] } .compress .freq).prepared.container = compressed s.input :=
      container_eq_compressed hprep.freqOk_hdrw h0 hmax rfl (prepared_code hs h0)
    have hend {st : Status} {B : List Byte}
        (h : EndsWith 2 (State.begun { s with turns := [] } .compress .freq).prepared st B) :
        EndsWith 5 (State.accept 1 { s with turns := [] }) st B := by
      rw [haccept]
      exact endsWith_of_prepared hs h0 rfl h
    rw [← hcontainer]
    exact ⟨fun hcap => succeeds_of_endsWith (hend (endsWith_container hprep rfl hcap)),
      fun hcap => (endsWith_container_overflow hprep rfl hcap).imp (fun h => fails_of_endsWith (hend h))
        fun h => fails_of_endsWith (hend h)⟩

/-- Settles O56: the closed form of the empty input is empty, so it fits any OUT. -/
theorem emptyInputGivesTheEmptyContainer : Obligations.EmptyInputGivesTheEmptyContainer := by
  intro s hb h0
  have hnil : compressed s.input = [] := by rw [s.input_eq_nil_iff.mpr h0, compressed_nil]
  have hlen : s.inLen.toNat = 0 := by rw [h0]; rfl
  obtain ⟨hsucceeds, -⟩ := compressProducesTheContainer s hb (hlen ▸ Nat.zero_le _) (hlen ▸ Nat.zero_le _)
  rw [hnil] at hsucceeds
  exact ⟨hsucceeds (Nat.zero_le _), by decide⟩

/-! ### One symbol -/

/-- An input of one symbol has one entry in FREQ. -/
theorem present_countBytes_replicate {n : Nat} (h1 : 1 ≤ n) (hn : n ≤ Config.maxn) (b : Byte) :
    present (countBytes (List.replicate n b)) = [(b, BitVec.ofNat 32 n)] := by
  have hdedup : (List.replicate n b).dedup = [b] := List.replicate_dedup (Nat.one_le_iff_ne_zero.mp h1)
  have hperm := present_countBytes_perm (X := List.replicate n b) (by simpa using hn)
  rw [hdedup, List.perm_singleton] at hperm
  obtain ⟨⟨u, c⟩, hr, hu⟩ := List.map_eq_singleton_iff.mp hperm
  obtain rfl : u = b := hu
  obtain ⟨hc, -⟩ := (mem_present (countBytes (List.replicate n u)) u c).mp (by rw [hr]; exact List.mem_singleton_self _)
  rw [hr, ← hc, freqAt_countBytes, List.count_replicate_self]

/-- The one symbol has the code word 0 (42_code_table_generator.md R96). -/
theorem codeAt_codesOf_of_one {s : State} (hok : FreqOk s.work) {b : Byte} {c : Word}
    (h : present s.work.freq = [(b, c)]) : codeAt (codesOf s.work.freq) b = [false] := by
  have hk : s.work.k.toNat = 1 := by rw [← hok.distinct, h]; rfl
  have hshape := treeOk_treeRule hok
  have hk' : (treeRule s).work.k.toNat = 1 := hk
  have hroot : (treeRule s).work.root.val = 0 := hshape.root.trans (by rw [hk'])
  obtain ⟨r, v, hr, hleaf⟩ := hshape.leaves (treeRule s).work.root (hroot.trans_lt hok.one_le)
  obtain rfl : (b, c) = r := by
    have hr : (present s.work.freq)[(treeRule s).work.root.val]? = some r := hr
    rw [hroot, h] at hr
    exact Option.some.inj hr
  rw [← codeRule_treeRule_code hok]
  exact (codeAt_codeTable_of_leaf hleaf b).trans (if_pos rfl)

theorem codeBits_replicate {c : CodeTable} {b : Byte} {bit : Bool} (h : codeAt c b = [bit]) (n : Nat) :
    codeBits c (List.replicate n b) = List.replicate n bit := by
  rw [codeBits, List.flatMap_replicate, h]
  simp

theorem packByte_replicate_false (n : Nat) : packByte (List.replicate n false) = 0 := by
  have hnil : packByte [] = 0 := by decide
  rw [← hnil]
  exact packByte_congr fun j _ => by simp [List.getD]

theorem packBits_replicate_false (n : Nat) :
    packBits (List.replicate n false) = List.replicate ((n + 7) / 8) 0 := by
  rw [packBits, List.length_replicate]
  refine List.eq_replicate_iff.mpr ⟨by simp, fun x hx => ?_⟩
  obtain ⟨q, -, rfl⟩ := List.mem_map.mp hx
  rw [List.drop_replicate, packByte_replicate_false]

/-- The closed form of one symbol repeated, given that symbol's code word (R126). -/
theorem compressed_replicate {n : Nat} (h1 : 1 ≤ n) (hn : n ≤ Config.maxn) {b : Byte}
    (hcode : codeAt (codesOf (countBytes (List.replicate n b))) b = [false]) :
    compressed (List.replicate n b) = be 1 ++ [b] ++ be n ++ be n ++ List.replicate ((n + 7) / 8) 0 := by
  have hne : List.replicate n b ≠ [] := by simpa using Nat.one_le_iff_ne_zero.mp h1
  have hcount : (BitVec.ofNat 32 n).toNat = n :=
    (BitVec.toNat_ofNat ..).trans (Nat.mod_eq_of_lt (hn.trans_lt (by decide)))
  rw [compressed, if_neg hne, codeBits_replicate hcode, packBits_replicate_false, present_countBytes_replicate h1 hn,
    List.length_replicate, List.flatMap_singleton, hcount, List.length_singleton]
  simp only [List.append_assoc, List.cons_append, List.nil_append]

/-- Settles O57: the closed form for one symbol, whose code word is one bit 0. -/
theorem oneSymbolContainer : Obligations.OneSymbolContainer := by
  intro s b n hb h1 hn hin hcap hX
  have hlen : s.inLen.toNat = n := by rw [← State.input_length, hX, List.length_replicate]
  have h0 : s.inLen ≠ 0 := fun h => by
    rw [h] at hlen
    exact absurd hlen (Nat.ne_of_lt h1)
  have hs := running_begun_compress (hlen.trans_le hin) (hlen.trans_le hn)
  have hcode : codeAt (codesOf (countBytes s.input)) b = [false] :=
    codeAt_codesOf_of_one (s := s.setWork (s.begun .compress .freq).counted) (freqOk_counted hs h0)
      ((congrArg (present ∘ countBytes) hX).trans (present_countBytes_replicate h1 hn b))
  have hY := compressed_replicate h1 hn (hX ▸ hcode)
  obtain ⟨hsucceeds, -⟩ := compressProducesTheContainer s hb (hlen.trans_le hin) (hlen.trans_le hn)
  rw [hX, hY] at hsucceeds
  refine hsucceeds (Nat.le_trans (le_of_eq ?_) hcap)
  simp only [List.length_append, be_length, List.length_replicate, List.length_singleton]

end Sys2Proof.Machine
end

section
/-! The acceptance of DECOMPRESS (46_decompressor.md R131). -/

namespace Sys2Proof.Machine

section

variable {s : State} (hb : s.status.busy = false)
include hb

theorem accept_decompress : s.accept 2 = s.fresh.begin .decompress := by
  rw [accept_idle hb, if_neg (by decide), if_pos rfl]

/-- A container beyond IN_CAP gives E_LEN; MAXN is no limit. -/
theorem accept_decompress_tooLong (h : s.cfg.inCap.toNat < s.inLen.toNat) :
    s.accept 2 = State.raise .len { s.fresh with status := ⟨false, false, false, .noError, .idle, .decompress⟩ } := by
  rw [accept_decompress hb, begin_tooLong hb (.inl h)]

theorem accept_decompress_fits (hin : s.inLen.toNat ≤ s.cfg.inCap.toNat) :
    s.accept 2 = s.begun .decompress .hdrr := by
  have hop : Op.decompress ≠ .compress := by decide
  rw [accept_decompress hb, begin_fits hb hin fun h => absurd h hop, if_neg hop]

end

theorem running_begun_decompress {s : State} (hin : s.inLen.toNat ≤ s.cfg.inCap.toNat) :
    Running .decompress .hdrr (s.begun .decompress .hdrr) :=
  ⟨rfl, rfl, Memory.wf_nil, nofun, rfl, hin, nofun⟩

/-- Settles O10: `Accept` while BUSY = 1, and the two sides of its one length check. -/
theorem decompressAcceptance : Obligations.DecompressAcceptance := by
  refine fun s => ⟨fun hb => congrArg _ (accept_busy hb _), fun hb hlong => ⟨s.accept 2, rfl, ?_⟩,
    fun hb hin => ⟨s.accept 2, rfl, ?_⟩⟩
  · have haccept := accept_decompress_tooLong hb hlong
    have hstatus : (s.accept 2).status = Status.failure .decompress .len .idle := by rw [haccept]; rfl
    have hlen : (s.accept 2).outLen = 0 := by rw [haccept]; rfl
    exact ⟨⟨hstatus, congrArg BitVec.toNat hlen, (frame_accept 2 s).1⟩, by rw [hstatus]; decide⟩
  · have haccept := accept_decompress_fits hb hin
    have hstatus : (s.accept 2).status = ⟨true, false, false, .noError, .hdrr, .decompress⟩ := by rw [haccept]; rfl
    have hlen : (s.accept 2).outLen = 0 := by rw [haccept]; rfl
    exact ⟨⟨hstatus, congrArg BitVec.toNat hlen, (frame_accept 2 s).1⟩, by rw [hstatus]; decide, fun a => by
      rw [haccept]; rfl⟩

end Sys2Proof.Machine
end

section
/-! A sequence cut short, and the header decoder on one (46_decompressor.md R135): the field or record that is no
longer whole is missed where the decoder comes to it. -/

namespace Sys2Proof

/-- C is L without some of its last members. -/
def IsCut {α : Type} (C L : List α) : Prop := C <+: L ∧ C.length < L.length

/-- The cut stands in the first part, or the first part is whole and the cut stands in the second. -/
theorem IsCut.append_cases {α : Type} {C A B : List α} (h : IsCut C (A ++ B)) :
    IsCut C A ∨ ∃ D, C = A ++ D ∧ IsCut D B := by
  obtain ⟨hpre, hlen⟩ := h
  rcases Nat.lt_or_ge C.length A.length with hlt | hge
  · exact .inl ⟨List.prefix_of_prefix_length_le hpre (List.prefix_append A B) hlt.le, hlt⟩
  · obtain ⟨D, rfl⟩ := List.prefix_of_prefix_length_le (List.prefix_append A B) hpre hge
    rw [List.length_append, List.length_append] at hlen
    exact .inr ⟨D, rfl, (List.prefix_append_right_inj A).mp hpre, by omega⟩

theorem not_isCut_nil {α : Type} (C : List α) : ¬IsCut C [] := fun h => Nat.not_lt_zero _ h.2

/-- A cut among legal records misses the first one that is not whole. -/
theorem decodeRecords_cut {seen C : List Byte} {rs : List Record} (h : RecordsOk seen rs)
    (hC : IsCut C (rs.flatMap encodeRecord)) : decodeRecords rs.length C seen = .error .hdrTrunc := by
  induction rs generalizing seen C with
  | nil => exact absurd hC (not_isCut_nil C)
  | cons r rs ih =>
    obtain ⟨hc, hs, htail⟩ := recordsOk_cons.mp h
    rw [List.length_cons]
    rcases hC.append_cases with hr | ⟨D, rfl, hD⟩
    · exact decodeRecords_short hr.2 _ _
    · rw [decodeRecords_encodeRecord, if_neg (not_or.mpr ⟨hc, hs⟩), ih htail hD]
      rfl

/-- A cut in a well-formed header, wherever it is, is E_HDR_TRUNC: what is left passes every check. -/
theorem decodeHeader_cut {h : Header} (hwf : h.wellFormed = true) {C : List Byte} (hC : IsCut C (encodeHeader h)) :
    decodeHeader C = .error .hdrTrunc := by
  obtain ⟨hne, hk, hok, -⟩ := (wellFormed_iff h).mp hwf
  have h0 := mt List.length_eq_zero_iff.mp hne
  rw [encodeHeader, List.append_assoc] at hC
  rcases hC.append_cases with hfield | ⟨D, rfl, hD⟩
  · exact decodeHeader_short hfield.2
  rcases hD.append_cases with hrecords | ⟨R, rfl, hR⟩
  · exact decodeHeader_records_error h0 hk (decodeRecords_cut hok hrecords)
  · exact decodeHeader_total_short h0 hk (decodeRecords_flatMap_encodeRecord hok R) hR.2

/-- The last byte of a packed sequence holds one of its bits, so what is left of the bytes holds fewer bits than were
packed (44_bit_packer_reader.md R111). -/
theorem unpackBits_isCut {bs : Bits} {P : List Byte} (hP : IsCut P (packBits bs)) : IsCut (unpackBits P) bs := by
  obtain ⟨hpre, hlen⟩ := hP
  have hshort : (unpackBits P).length < bs.length := by
    rw [packBits_length] at hlen
    rw [unpackBits_length]
    omega
  have hunpack : unpackBits P <+: unpackBits (packBits bs) := hpre.flatMap _
  rw [unpackBits_packBits] at hunpack
  exact ⟨List.prefix_of_prefix_length_le hunpack (List.prefix_append bs _) hshort.le, hshort⟩

end Sys2Proof
end

section
/-! Code words under the traversal (44_bit_packer_reader.md R114 to R116): the word of a symbol gives that symbol, and a
word cut short gives none, whether the root is a leaf or not. -/

namespace Sys2Proof.Machine

/-- The decoder at the root takes the bits p for the symbol y, and all of them. -/
structure DecodesTo (A : Arena) (root free : NodeIx) (p : Bits) (y : Byte) : Prop where
  whole : ∀ n bs, decodeBits A root free (n + 1) root (p ++ bs) = (decodeBits A root free n root bs).map (y :: ·)
  short : ∀ q, IsCut q p → ∀ n, decodeBits A root free (n + 1) root q = none

section

variable {A : Arena} {root free : NodeIx}

/-- At a root that is a leaf one bit is a word (R115). -/
theorem decodesTo_of_leaf {f : Word} {y : Byte} {v : Bool} (hg : A.get root = .leaf f y v) (b : Bool) :
    DecodesTo A root free [b] y where
  whole n bs := by
    have hwalk : A.get (walkTo A root free root b) = .leaf f y v := by rw [walkTo, hg]; exact hg
    exact decodeBits_leaf hwalk n bs
  short q hq n := by
    rw [List.length_eq_zero_iff.mp (Nat.lt_one_iff.mp hq.2), decodeBits_nil]

/-- A node from which a path goes on is internal. -/
theorem PathTo.isLeaf_eq_false {i : NodeIx} {p : Bits} (hp : PathTo A root i p) (hne : p ≠ []) :
    (A.get root).isLeaf = false := by
  cases hg : A.get root with
  | internal => rfl
  | leaf =>
    cases p using List.reverseRecOn with
    | nil => exact absurd rfl hne
    | append_singleton p b =>
      obtain ⟨j, f, l, r, v, hj, hgj, -⟩ := pathTo_snoc.mp hp
      rw [hj.eq_root_of_leaf hg, hg] at hgj
      cases hgj

/-- Elsewhere a leaf's path is: a cut in it stops at an internal node. -/
theorem decodesTo_of_path (hroot : (A.get root).isLeaf = false) {i : NodeIx} {p : Bits} (hp : PathTo A root i p)
    {f : Word} {y : Byte} {v : Bool} (hg : A.get i = .leaf f y v) : DecodesTo A root free p y where
  whole n bs := decodeBits_leafPath hroot hp hg n bs
  short q hq n := by
    obtain ⟨⟨d, rfl⟩, hlen⟩ := hq
    obtain ⟨j, hj, hd⟩ := hp.exists_of_append
    have hne : d ≠ [] := fun h0 => by simp [h0] at hlen
    rw [← List.append_nil q, decodeBits_path hroot hj (hd.isLeaf_eq_false hne), decodeBits_nil]

/-- Code words one after the other give their symbols. -/
theorem decodeBits_words {Y : List Byte} {c : Byte → Bits} (hY : ∀ y ∈ Y, DecodesTo A root free (c y) y) (bs : Bits) :
    decodeBits A root free Y.length root (Y.flatMap c ++ bs) = some Y := by
  induction Y with
  | nil => exact decodeBits_zero root bs
  | cons y Y ih =>
    obtain ⟨hy, hY⟩ := List.forall_mem_cons.mp hY
    rw [List.flatMap_cons, List.append_assoc, List.length_cons, hy.whole, ih hY, Option.map_some]

/-- Cut short they do not: the word that is no longer whole gives no symbol. -/
theorem decodeBits_words_cut {Y : List Byte} {c : Byte → Bits} (hY : ∀ y ∈ Y, DecodesTo A root free (c y) y) {bs : Bits}
    (hbs : IsCut bs (Y.flatMap c)) : decodeBits A root free Y.length root bs = none := by
  induction Y generalizing bs with
  | nil => exact absurd hbs (not_isCut_nil bs)
  | cons y Y ih =>
    obtain ⟨hy, hY⟩ := List.forall_mem_cons.mp hY
    rw [List.length_cons]
    rcases IsCut.append_cases hbs with hword | ⟨ds, rfl, hds⟩
    · exact hy.short bs hword _
    · rw [hy.whole, ih hY hds, Option.map_none]

end

/-- In a tree the code word of each symbol present is a word of the decoder (42_code_table_generator.md R95, R96). -/
theorem decodesTo_codeTable {w : Scratch} (hf : FreqOk w) (h : TreeOk w) (free : NodeIx) {y : Byte}
    (hy : freqAt w.freq y ≠ 0) : DecodesTo w.node w.root free (codeAt (codeTable w.node w.root) y) y := by
  obtain ⟨i, f, v, p, hg, hp⟩ := h.exists_leaf hf hy
  cases hroot : w.node.get w.root with
  | leaf =>
    rw [hp.eq_root_of_leaf hroot] at hg
    rw [codeAt_codeTable_of_leaf hg, if_pos rfl]
    exact decodesTo_of_leaf hg false
  | internal =>
    rw [codeAt_codeTable_of_path hf h hroot hg hp]
    exact decodesTo_of_path (by rw [hroot]; rfl) hp hg

section

variable {s : State} {X : List Byte} {c : CodeTable}
  (hX : ∀ b ∈ X, DecodesTo s.work.node s.work.root (Config.freeIndex s.draws) (codeAt c b) b)
  (htotal : s.work.total.toNat = X.length)
include hX htotal

/-- TRAV reads the payload of X back: TOTAL stops it before the padding (46_decompressor.md R134). -/
theorem symbols_of_payload (hP : s.unread = packBits (codeBits c X)) : s.symbols = some X := by
  rw [State.symbols, htotal, hP, unpackBits_packBits]
  exact decodeBits_words hX _

/-- Of the payload cut short TRAV reads fewer symbols than TOTAL (46_decompressor.md R135). -/
theorem symbols_of_payload_cut (hP : IsCut s.unread (packBits (codeBits c X))) : s.symbols = none := by
  rw [State.symbols, htotal]
  exact decodeBits_words_cut hX (unpackBits_isCut hP)

end

end Sys2Proof.Machine
end

section
/-! DECOMPRESS as a whole (46_decompressor.md R132 to R135): HDRR and TREE rebuild from the header the tables that
COMPRESS had, and TRAV reads the payload with them. -/

namespace Sys2Proof.Machine

/-! ### From HDRR to TRAV -/

/-- The state before TRAV: HDRR has loaded the header and TREE has run (R132). -/
def State.rebuilt (s : State) (h : Header) : State := treeRule ((s.setWork (s.work.loadHeader h)).setPhase .tree)

section

variable {s : State} (hs : Running .decompress .hdrr s) {h : Header} (hwf : h.wellFormed = true) {payload : List Byte}
  (hinput : s.input = encodeHeader h ++ payload)

include hwf in
theorem freqOk_rebuilt : FreqOk (s.rebuilt h).work := (freqOk_loadHeader hwf s.work).congr rfl rfl rfl

include hwf in
theorem treeOk_rebuilt : TreeOk (s.rebuilt h).work :=
  treeOk_treeRule (s := (s.setWork (s.work.loadHeader h)).setPhase .tree) (freqOk_loadHeader hwf s.work)

include hwf in
/-- The tree is the one whose code words COMPRESS has written (42_code_table_generator.md R97 (e)). -/
theorem codeTable_rebuilt :
    codeTable (s.rebuilt h).work.node (s.rebuilt h).work.root = codesOf (putRecords freqZero h.records) :=
  codeRule_treeRule_code (s := (s.setWork (s.work.loadHeader h)).setPhase .tree) (freqOk_loadHeader hwf s.work)

include hwf hinput in
theorem unread_rebuilt : (s.rebuilt h).unread = payload := by
  show s.input.drop (s.work.loadHeader h).iptr.toNat = payload
  rw [loadHeader_iptr_toNat hwf, hinput, drop_encodeHeader]

include hs hwf hinput

variable (hcap : h.total.toNat ≤ s.cfg.outCap.toNat)
include hcap

theorem entered_loadHeader : Entered .decompress .tree ((s.setWork (s.work.loadHeader h)).setPhase .tree) := by
  have hr : Running .decompress .tree ((s.setWork (s.work.loadHeader h)).setPhase .tree) := (hs.setWork _).setPhase rfl
  have hexec := exec_hdrr_encodeHeader hs.inFits hwf hinput hcap
  obtain ⟨hok, -, -, hfits, hiptr, hle⟩ :=
    hdrrEstablishesFreqOk s _ hs.inFits (by rw [hs.status]; decide) hexec rfl
  exact ⟨hr, hr.workOk_tree.mpr ⟨hok, fun _ => ⟨hfits, hiptr, hle⟩⟩⟩

theorem entered_rebuilt : Entered .decompress .trav (s.rebuilt h) :=
  entered_treeRule (entered_loadHeader hs hwf hinput hcap)

/-- HDRR and TREE are two steps, neither of which ends the operation on a container with a well-formed header. -/
theorem endsWith_of_rebuilt (ht : s.turns = []) {n : Nat} {st : Status} {B : List Byte}
    (hn : EndsWith n (s.rebuilt h) st B) : EndsWith (n + 2) s st B :=
  .of_exec hs ht rfl (exec_hdrr_encodeHeader hs.inFits hwf hinput hcap)
    (.of_exec (entered_loadHeader hs hwf hinput hcap).1 ht rfl (exec_tree _) hn)

end

/-! ### TRAV -/

section

variable {s : State} (hs : Entered .decompress .trav s) (ht : s.turns = []) (n : Nat)
include hs ht

theorem endsWith_symbols {Y : List Byte} (hY : s.symbols = some Y) :
    EndsWith (n + 1) s (Status.success .decompress) Y := by
  obtain ⟨hr, hw⟩ := hs
  obtain ⟨-, hcap, -⟩ := hr.workOk_trav.mp hw
  exact .of_exec hr ht rfl (exec_trav_decodes hr.inFits hcap hY)
    (endsWith_finishWith (H := []) hr ht rfl (holds_nil _ _) (symbols_fit hcap hY) n)

theorem endsWith_noSymbols (hY : s.symbols = none) :
    EndsWith (n + 1) s (Status.failure .decompress .payloadTrunc .trav) [] := by
  obtain ⟨hr, hw⟩ := hs
  obtain ⟨-, hcap, -⟩ := hr.workOk_trav.mp hw
  exact .of_exec hr ht rfl (exec_trav_truncated hr.inFits hcap hY) (endsWith_raise hr ht _ n)

end

/-! ### The container of an input -/

/-- A scratch state with FREQ, K and TOTAL of the input X (40_frequency_analyzer.md R81). -/
def Scratch.ofInput (X : List Byte) : Scratch :=
  { Scratch.zero with
    freq := countBytes X
    k := BitVec.ofNat 9 (present (countBytes X)).length
    total := BitVec.ofNat 32 X.length }

/-- The header of `compress(X)` (45_compressor.md R123). -/
def headerFor (X : List Byte) : Header := headerOf (Scratch.ofInput X)

/-- The payload of `compress(X)`: the code bits of X under the code of its counts, packed. -/
def payloadFor (X : List Byte) : List Byte := packBits (codeBits (codesOf (countBytes X)) X)

theorem mem_records_headerOf (w : Scratch) (b : Byte) (c : Word) :
    ⟨b, c⟩ ∈ (headerOf w).records ↔ freqAt w.freq b = c ∧ c ≠ 0 := by
  rw [← mem_present]
  simp [headerOf]

/-- HDRR recovers the table that the header was made of (43_header_codec.md R100, R102). -/
theorem putRecords_headerOf {w : Scratch} (h : FreqOk w) : putRecords freqZero (headerOf w).records = w.freq := by
  obtain ⟨-, -, hok, -⟩ := (wellFormed_iff _).mp (headerOf_wellFormed h)
  refine freq_ext fun b => ?_
  have hcount {c : Word} (hc : c ≠ 0) :
      freqAt (putRecords freqZero (headerOf w).records) b = c ↔ freqAt w.freq b = c := by
    rw [freqAt_putRecords_iff hok hc, mem_records_headerOf, and_iff_left hc]
  by_cases hb : freqAt w.freq b = 0
  · by_contra hne
    rw [hb] at hne
    exact hne (((hcount hne).mp rfl).symm.trans hb)
  · exact (hcount hb).mpr rfl

theorem length_headerFor (X : List Byte) :
    (encodeHeader (headerFor X)).length = 5 * (present (countBytes X)).length + 8 := by
  rw [encodeHeader_length, headerFor, headerOf, List.length_map]
  rfl

section

variable {X : List Byte} (hne : X ≠ []) (hX : X.length ≤ Config.maxn)
include hX

theorem headerFor_total : (headerFor X).total.toNat = X.length :=
  (BitVec.toNat_ofNat ..).trans (Nat.mod_eq_of_lt (hX.trans_lt (by decide)))

include hne

theorem freqOk_ofInput : FreqOk (Scratch.ofInput X) :=
  freqOk_countBytes (hX.trans_lt (by decide)) (mt (present_countBytes_length_eq_zero hX).mp hne) rfl rfl rfl

theorem headerFor_wellFormed : (headerFor X).wellFormed = true := headerOf_wellFormed (freqOk_ofInput hne hX)

theorem compressed_eq_append : compressed X = encodeHeader (headerFor X) ++ payloadFor X := by
  have hok := freqOk_ofInput hne hX
  have hk : (Scratch.ofInput X).k.toNat = (present (countBytes X)).length := hok.distinct.symm
  have htotal : (Scratch.ofInput X).total.toNat = X.length := headerFor_total hX
  rw [headerFor, ← headerBytes_eq_encodeHeader hok, headerBytes, hk, htotal, compressed, if_neg hne]
  rfl

/-- The tables that DECOMPRESS rebuilds are those of the input. -/
theorem putRecords_headerFor : putRecords freqZero (headerFor X).records = countBytes X :=
  putRecords_headerOf (freqOk_ofInput hne hX)

/-! ### The phases on the container, whole or cut short -/

/-- In the tree that DECOMPRESS rebuilds the code words of COMPRESS stand for the symbols of X. -/
theorem decodesTo_rebuilt (s : State) (free : NodeIx) : ∀ b ∈ X,
    DecodesTo (s.rebuilt (headerFor X)).work.node (s.rebuilt (headerFor X)).work.root free
      (codeAt (codesOf (countBytes X)) b) b := by
  intro b hb
  have hwf := headerFor_wellFormed hne hX
  have hfreq : (s.rebuilt (headerFor X)).work.freq = countBytes X := putRecords_headerFor hne hX
  have hpresent := freqAt_countBytes_ne_zero hX hb
  rw [← hfreq] at hpresent
  rw [← putRecords_headerFor hne hX, ← codeTable_rebuilt hwf]
  exact decodesTo_codeTable (freqOk_rebuilt hwf) (treeOk_rebuilt hwf) free hpresent

section

variable {s : State} (hs : Running .decompress .hdrr s) (ht : s.turns = [])
include hs ht

/-- A cut in the header ends the operation in HDRR. -/
theorem endsWith_headerCut (h0 : s.input ≠ []) (hcut : IsCut s.input (encodeHeader (headerFor X))) (n : Nat) :
    EndsWith (n + 1) s (Status.failure .decompress .hdrTrunc .hdrr) [] :=
  .of_exec hs ht rfl (exec_hdrr_error hs.inFits h0 (decodeHeader_cut (headerFor_wellFormed hne hX) hcut))
    (endsWith_raise hs ht _ n)

variable (hcap : X.length ≤ s.cfg.outCap.toNat) {P : List Byte} (hinput : s.input = encodeHeader (headerFor X) ++ P)
include hcap hinput

/-- The whole container gives X back. -/
theorem endsWith_wholePayload (hP : P = payloadFor X) (n : Nat) :
    EndsWith (n + 3) s (Status.success .decompress) X := by
  have hwf := headerFor_wellFormed hne hX
  have hfits := (headerFor_total hX).trans_le hcap
  have hsym := symbols_of_payload (decodesTo_rebuilt hne hX s _) (headerFor_total hX)
    ((unread_rebuilt hwf hinput).trans hP)
  exact endsWith_of_rebuilt hs hwf hinput hfits ht (endsWith_symbols (entered_rebuilt hs hwf hinput hfits) ht n hsym)

/-- A cut in the payload ends the operation in TRAV. -/
theorem endsWith_payloadCut (hcut : IsCut P (payloadFor X)) (n : Nat) :
    EndsWith (n + 3) s (Status.failure .decompress .payloadTrunc .trav) [] := by
  have hwf := headerFor_wellFormed hne hX
  have hfits := (headerFor_total hX).trans_le hcap
  have hsym := symbols_of_payload_cut (decodesTo_rebuilt hne hX s _) (headerFor_total hX)
    (by rw [unread_rebuilt hwf hinput]; exact hcut)
  exact endsWith_of_rebuilt hs hwf hinput hfits ht (endsWith_noSymbols (entered_rebuilt hs hwf hinput hfits) ht n hsym)

end

end

/-! ### The command -/

section

variable {s : State} (hb : s.status.busy = false) (hin : s.inLen.toNat ≤ s.cfg.inCap.toNat)
include hb hin

theorem succeeds_decompress {Y : List Byte}
    (h : EndsWith 5 (State.begun { s with turns := [] } .decompress .hdrr) (Status.success .decompress) Y) :
    Succeeds 2 s .decompress Y :=
  succeeds_of_endsWith (by rwa [accept_decompress_fits (s := { s with turns := [] }) hb hin])

theorem fails_decompress {e : ErrCode} {p : Phase}
    (h : EndsWith 5 (State.begun { s with turns := [] } .decompress .hdrr) (Status.failure .decompress e p) []) :
    Fails 2 s .decompress e p :=
  fails_of_endsWith (by rwa [accept_decompress_fits (s := { s with turns := [] }) hb hin])

end

/-- HDRR ends the operation on the empty container (43_header_codec.md R105). -/
theorem endsWith_emptyContainer {s : State} (hs : Running .decompress .hdrr s) (ht : s.turns = []) (h0 : s.input = [])
    (n : Nat) : EndsWith (n + 1) s (Status.success .decompress) [] :=
  .of_exec hs ht rfl (exec_hdrr_empty h0) (endsWith_finish_zero hs ht n)

/-- DECOMPRESS undoes the closed form of COMPRESS (R134): HDRR ends it on the empty container, TRAV on any other. -/
theorem decompress_compressed {s : State} {X : List Byte} (hb : s.status.busy = false) (hinput : s.input = compressed X)
    (hin : s.inLen.toNat ≤ s.cfg.inCap.toNat) (hX : X.length ≤ Config.maxn) (hcap : X.length ≤ s.cfg.outCap.toNat) :
    Succeeds 2 s .decompress X := by
  refine succeeds_decompress hb hin ?_
  have hs : Running .decompress .hdrr (State.begun { s with turns := [] } .decompress .hdrr) :=
    running_begun_decompress hin
  by_cases hne : X = []
  · subst hne
    exact endsWith_emptyContainer hs rfl (hinput.trans compressed_nil) 4
  · exact endsWith_wholePayload hne hX hs rfl hcap (hinput.trans (compressed_eq_append hne hX)) rfl 2

/-- Settles O58: COMPRESS gives the closed form, and DECOMPRESS undoes it. -/
theorem roundTrip : Obligations.RoundTrip := by
  intro s X hb hX hin hmax hcap
  subst hX
  have hlen := s.input_length
  obtain ⟨hsucceeds, -⟩ := compressProducesTheContainer s hb (hlen.symm.trans_le hin) (hlen.symm.trans_le hmax)
  exact ⟨_, hsucceeds hcap, fun s' hb' hinput hin' hcap' =>
    decompress_compressed hb' hinput (by rw [← s'.input_length, hinput]; exact hin') hmax hcap'⟩

/-- Settles O59: where the cut stands in the container decides between HDRR and TRAV. -/
theorem truncationIsReported : Obligations.TruncationIsReported := by
  intro s X m hb hne hX hcap hm1 hm hinput hin
  have hs : Running .decompress .hdrr (State.begun { s with turns := [] } .decompress .hdrr) :=
    running_begun_decompress hin
  have hlen : s.inLen.toNat = (compressed X).length - m := by
    rw [← s.input_length, hinput, List.length_take_of_le (Nat.sub_le _ _)]
  have hcut : IsCut s.input (encodeHeader (headerFor X) ++ payloadFor X) := by
    rw [← compressed_eq_append hne hX]
    exact ⟨hinput ▸ List.take_prefix _ _, by rw [s.input_length]; omega⟩
  have hheader := length_headerFor X
  rcases hcut.append_cases with hC | ⟨P, hP, hcutP⟩
  · have hshort := hC.2
    rw [s.input_length, hheader] at hshort
    have h0 : s.input ≠ [] := List.ne_nil_of_length_pos (by rw [s.input_length]; omega)
    exact ⟨fun _ => fails_decompress hb hin (endsWith_headerCut hne hX hs rfl h0 hC 4),
      fun h => absurd h (Nat.not_le.mpr hshort)⟩
  · have hlong : 5 * (present (countBytes X)).length + 8 ≤ s.inLen.toNat := by
      rw [← hheader, ← s.input_length, hP, List.length_append]
      exact Nat.le_add_right _ _
    exact ⟨fun h => absurd h (Nat.not_lt.mpr hlong),
      fun _ => fails_decompress hb hin (endsWith_payloadCut hne hX hs rfl hcap hP hcutP 2)⟩

end Sys2Proof.Machine
end

section
/-! Error entry, normal completion, reset, and a command that an operation ignores (60_exceptions.md R143, R144,
70_reset_and_hazards.md R160, R161, R165). -/

namespace Sys2Proof.Machine

/-- Settles O17: `raise` writes STATUS, OUT_LEN, OUT and the scratch state, and leaves OUT empty. -/
theorem raiseErrReports : Obligations.RaiseErrReports := fun s e => ⟨ended_raise s e, Memory.get_nil⟩

/-- Settles O18: `Finish` keeps of OUT the cells below the length. -/
theorem finishReports : Obligations.FinishReports := fun s len =>
  ⟨⟨rfl, rfl, (frame_finish s len).1⟩, Memory.get_below s.outMem len.toNat⟩

/-- Settles O11: the write is `Accept`, which a running operation does not hear. -/
theorem commandWhileBusyChangesNothing : Obligations.CommandWhileBusyChangesNothing := by
  intro s w v ts hb _ ht
  rw [step_host ht]
  exact (writeReg_cmd v _).trans (congrArg _ (accept_busy (s := { s with turns := ts }) hb _))

/-- Settles O16: reset clears BUSY with the rest of STATUS, so the engine has no step. -/
theorem resetIdlesTheBlock : Obligations.ResetIdlesTheBlock := fun s =>
  ⟨applyReset s, rfl, (by decide : Status.reset.word = 0), rfl, rfl, rfl,
    fun a => ⟨Memory.get_nil a, Memory.get_nil a⟩, engineStep_idle rfl⟩

end Sys2Proof.Machine
end

section
/-! Whose turn changes BUSY (60_exceptions.md R148): which moves of the host can touch STATUS, and when `Accept` starts
an operation. -/

namespace Sys2Proof.Machine

/-- A write of any register but CMD leaves STATUS. -/
theorem writeReg_status {off width : Nat} {v : Word64} {s t : State} (hcmd : ¬(off = 0x00 ∧ width = 32))
    (h : writeReg off width v s = .next t) : t.status = s.status := by
  unfold writeReg at h
  rw [if_neg hcmd] at h
  repeat' split at h
  all_goals cases h
  all_goals rfl

theorem readReg_status {off width : Nat} {s t : State} (h : readReg off width s = .next t) : t.status = s.status := by
  unfold readReg at h
  repeat' split at h
  all_goals cases h
  all_goals rfl

theorem writeIn_status {a : Nat} {v : Byte} {s t : State} (h : writeIn a v s = .next t) : t.status = s.status := by
  unfold writeIn at h
  repeat' split at h
  all_goals cases h
  all_goals rfl

/-- The moves of the host that can touch STATUS: reset, a write of CMD, and a `WAIT` in which the engine steps. -/
theorem hostStep_status {m : HostMove} {s t : State} (h : hostStep m s = .next t) :
    t.status = s.status ∨ m = .reset ∧ t = applyReset s ∨ m = .wait ∧ s.status.busy = true ∨
      ∃ v, m = .wrReg 0x00 32 v ∧ t = s.accept (v.setWidth 32) := by
  cases m with
  | reset => cases h; exact .inr (.inl ⟨rfl, rfl⟩)
  | wrReg off width v =>
    by_cases hcmd : off = 0x00 ∧ width = 32
    · obtain ⟨rfl, rfl⟩ := hcmd
      exact .inr (.inr (.inr ⟨v, rfl, Host.Outcome.next.inj (h.symm.trans (writeReg_cmd v s))⟩))
    · exact .inl (writeReg_status hcmd h)
  | wait =>
    cases hb : s.status.busy with
    | true => exact .inr (.inr (.inl ⟨rfl, rfl⟩))
    | false => simp only [hostStep, hb] at h; cases h; exact .inl rfl
  | copyback =>
    unfold hostStep at h
    dsimp only at h
    split at h <;> cases h
    exact .inl rfl
  | result =>
    cases h
    left
    split <;> rfl
  | wrIn a v => exact .inl (writeIn_status h)
  | rdReg off width => exact .inl (readReg_status h)
  | wrOut a v => cases h; exact .inl rfl
  | rdIn a => cases h; exact .inl rfl
  | rdOut a => cases h; exact .inl rfl
  | dump => cases h; exact .inl rfl

/-- `Accept` sets BUSY only for a command word (10_state.md R13). -/
theorem accept_starts {w : Word} {s : State} (hb : s.status.busy = false) (h : (s.accept w).status.busy = true) :
    w = 1 ∨ w = 2 := by
  by_contra hw
  rw [not_or] at hw
  rw [accept_illegal hw.1 hw.2 hb] at h
  cases h

theorem engineStep_not_starts {s t : State} (hb : s.status.busy = false) (h : engineStep s = .next t) :
    ¬t.status.busy = true := by
  rw [engineStep_idle hb] at h
  cases h
  simp [hb]

/-- A host move that sets BUSY writes a command word to CMD. -/
theorem hostStep_starts {m : HostMove} {s t : State} (hb : s.status.busy = false) (ht : t.status.busy = true)
    (h : hostStep m s = .next t) :
    ∃ v, m = .wrReg 0x00 32 v ∧ (v.setWidth 32 = (1 : Word) ∨ v.setWidth 32 = (2 : Word)) := by
  rcases hostStep_status h with hst | ⟨-, rfl⟩ | ⟨-, hb'⟩ | ⟨v, rfl, rfl⟩
  · rw [hst, hb] at ht; cases ht
  · cases ht
  · rw [hb] at hb'; cases hb'
  · exact ⟨v, rfl, accept_starts hb ht⟩

/-- A host move that clears BUSY is a `WAIT` or a reset. -/
theorem hostStep_stops {m : HostMove} {s t : State} (hb : s.status.busy = true) (ht : t.status.busy = false)
    (h : hostStep m s = .next t) : m = .wait ∨ m = .reset := by
  rcases hostStep_status h with hst | ⟨hm, -⟩ | ⟨hm, -⟩ | ⟨v, -, rfl⟩
  · rw [hst, hb] at ht; cases ht
  · exact .inr hm
  · exact .inl hm
  · rw [accept_busy hb, hb] at ht; cases ht

/-- Settles O19: by whose turn it is; an idle engine has no step, and of the host's moves three can touch STATUS. -/
theorem onlyCommandsStartOperations : Obligations.OnlyCommandsStartOperations := by
  intro s t h
  rcases hs : s.turns with _ | ⟨_ | m, ts⟩
  · rw [step_nil hs] at h
    exact ⟨fun hb ht => absurd ht (engineStep_not_starts hb h), fun _ _ => .inl rfl⟩
  · rw [step_engine hs] at h
    exact ⟨fun hb ht => absurd ht (engineStep_not_starts (s := { s with turns := ts }) hb h),
      fun _ _ => .inr ⟨ts, .inl rfl⟩⟩
  · rw [step_host hs] at h
    refine ⟨fun hb ht => ?_, fun hb ht => .inr ⟨ts, .inr ?_⟩⟩
    · obtain ⟨v, rfl, hv⟩ := hostStep_starts (s := { s with turns := ts }) hb ht h
      exact ⟨v, ts, rfl, hv⟩
    · rcases hostStep_stops (s := { s with turns := ts }) hb ht h with rfl | rfl
      · exact .inl rfl
      · exact .inr rfl

end Sys2Proof.Machine
end

section
/-! Every operation ends (70_reset_and_hazards.md R170): a phase either ends the operation, with DONE = 1, or goes on to
the phase after it, and an operation has few phases. -/

namespace Sys2Proof.Machine

/-- How many phases the operation `op` has from phase `p` on, `p` with them (10_state.md R17). -/
def phasesLeft : Op → Phase → Nat
  | .compress, .freq => 5
  | .compress, .tree => 4
  | .compress, .code => 3
  | .compress, .hdrw => 2
  | .compress, .pack => 1
  | .decompress, .hdrr => 3
  | .decompress, .tree => 2
  | .decompress, .trav => 1
  | _, _ => 0

theorem phasesLeft_pos {op : Op} {p : Phase} (h : Status.runs op p = true) : 0 < phasesLeft op p := by
  rcases Status.runs_cases h with ⟨rfl, rfl | rfl | rfl | rfl | rfl⟩ | ⟨rfl, rfl | rfl | rfl⟩ <;> decide

/-- R170's bound holds from the first phase, and so from any. -/
theorem phasesLeft_le (op : Op) (p : Phase) : phasesLeft op p ≤ if op = .compress then 5 else 3 := by
  cases op <;> cases p <;> decide

/-- The operation has ended, well or in error, and says so. -/
def Reported (t : State) : Prop := t.status.busy = false ∧ t.status.done = true

theorem reported_raise (s : State) (e : ErrCode) : Reported (s.raise e) := ⟨rfl, rfl⟩
theorem reported_finish (s : State) (n : Word64) : Reported (s.finish n) := ⟨rfl, rfl⟩

theorem reported_conclude (s : State) (a : Nat) (o : Option (List Byte)) : Reported (s.conclude a o) := by
  cases o with
  | none => exact reported_raise s _
  | some Y => exact reported_finish _ _

/-- A phase of `op` has ended the operation, or has left it running with PHASE = `q`. -/
def EndsOrPasses (op : Op) (q : Phase) (o : Host.Outcome State Fault Refusal) : Prop :=
  ∃ t, o = .next t ∧ (Reported t ∨ t.status = ⟨true, false, false, .noError, q, op⟩)

section

variable {op : Op} {q : Phase} {o : Host.Outcome State Fault Refusal} {s t : State}

theorem EndsOrPasses.of_reported (h : o = .next t) (ht : Reported t) : EndsOrPasses op q o := ⟨t, h, .inl ht⟩

theorem EndsOrPasses.of_status (h : o = .next t) (ht : t.status = ⟨true, false, false, .noError, q, op⟩) :
    EndsOrPasses op q o := ⟨t, h, .inr ht⟩

/-! ### The phases -/

theorem exec_freq_endsOrPasses (h : Running .compress .freq s) : EndsOrPasses .compress .tree (exec .freq s) := by
  by_cases h0 : s.inLen = 0
  · exact .of_reported (exec_freq_empty h.inFits (h.maxn rfl) h0) (reported_finish _ _)
  · exact .of_status (exec_freq_nonempty h.inFits (h.maxn rfl) h0) (by simp [h.status])

theorem exec_hdrw_endsOrPasses (h : Entered .compress .hdrw s) : EndsOrPasses .compress .pack (exec .hdrw s) := by
  rcases Nat.lt_or_ge s.cfg.outCap.toNat (5 * s.work.k.toNat + 8) with hcap | hcap
  · exact .of_reported (exec_hdrw_overflow hcap) (reported_raise s _)
  · exact .of_status (exec_hdrw_fits h.freqOk_hdrw hcap) (by simp [h.1.status])

/-- PACK ends the operation, so any phase may stand for the one it passes on to. -/
theorem exec_pack_endsOrPasses (h : Entered .compress .pack s) : EndsOrPasses .compress q (exec .pack s) := by
  obtain ⟨hr, hw⟩ := h
  obtain ⟨hoptr, -⟩ := hr.workOk_pack.mp hw
  rcases Nat.lt_or_ge s.cfg.outCap.toNat
    (s.work.optr.toNat + (packBits (codeBits s.work.code s.input)).length) with hcap | hcap
  · have hne : packBits (codeBits s.work.code s.input) ≠ [] := fun hnil => by
      rw [hnil] at hcap
      exact absurd hcap (Nat.not_lt.mpr hoptr)
    exact .of_reported (exec_pack_overflow hr.inFits rfl hne hcap) (reported_raise s _)
  · exact .of_reported (exec_pack_fits hr.inFits rfl hcap) (reported_finish _ _)

theorem exec_hdrr_endsOrPasses (h : Running .decompress .hdrr s) : EndsOrPasses .decompress .tree (exec .hdrr s) := by
  by_cases hne : s.input = []
  · exact .of_reported (exec_hdrr_empty hne) (reported_finish _ _)
  cases hdec : decodeHeader s.input with
  | error e => exact .of_reported (exec_hdrr_error h.inFits hne hdec) (reported_raise s e)
  | ok p =>
    by_cases hr : p.1.records = []
    · exact .of_reported (exec_hdrr_noRecords h.inFits hdec hr) (reported_finish _ _)
    rcases Nat.lt_or_ge s.cfg.outCap.toNat p.1.total.toNat with hcap | hcap
    · exact .of_reported (exec_hdrr_overflow h.inFits hdec hr hcap) (reported_raise s _)
    · exact .of_status (exec_hdrr_loads h.inFits hdec hr hcap) (by simp [h.status])

/-- TRAV ends the operation. -/
theorem exec_trav_endsOrPasses (h : Entered .decompress .trav s) : EndsOrPasses .decompress q (exec .trav s) := by
  obtain ⟨hr, hw⟩ := h
  obtain ⟨-, hcap, -, -⟩ := hr.workOk_trav.mp hw
  exact .of_reported (exec_trav_eq hr.inFits hcap) (reported_conclude s _ _)

/-! ### The operation -/

/-- Every engine step of a running operation ends it or passes to a phase that has fewer after it. -/
theorem Entered.engineStep_endsOrPasses {p : Phase} (h : Entered op p s) :
    ∃ q, phasesLeft op q < phasesLeft op p ∧ EndsOrPasses op q (engineStep s) := by
  have hb : s.status.busy = true := by rw [h.1.status]
  have hp : s.status.phase = p := by rw [h.1.status]
  rw [engineStep_busy hb, hp]
  rcases Status.runs_cases h.1.runs with ⟨rfl, rfl | rfl | rfl | rfl | rfl⟩ | ⟨rfl, rfl | rfl | rfl⟩
  · exact ⟨.tree, by decide, exec_freq_endsOrPasses h.1⟩
  · exact ⟨.code, by decide, .of_status rfl (entered_treeRule h).1.status⟩
  · exact ⟨.hdrw, by decide, .of_status rfl (entered_codeRule h).1.status⟩
  · exact ⟨.pack, by decide, exec_hdrw_endsOrPasses h⟩
  · exact ⟨.idle, by decide, exec_pack_endsOrPasses h⟩
  · exact ⟨.tree, by decide, exec_hdrr_endsOrPasses h.1⟩
  · exact ⟨.trav, by decide, .of_status rfl (entered_treeRule h).1.status⟩
  · exact ⟨.idle, by decide, exec_trav_endsOrPasses h⟩

/-- As many steps as the operation has phases left reach its end, where it then stays. -/
theorem Entered.steps_reported {p : Phase} {n : Nat} (h : Entered op p s) (ht : s.turns = [])
    (hn : phasesLeft op p ≤ n) : ∃ t, steps n s = .next t ∧ Reported t := by
  induction n generalizing p s with
  | zero => exact absurd (phasesLeft_pos h.1.runs) (Nat.not_lt.mpr hn)
  | succ n ih =>
    obtain ⟨q, hq, t, hstep, hend⟩ := h.engineStep_endsOrPasses
    have ht' : t.turns = [] := (frame_engineStep hstep).1.turns.trans ht
    rw [steps_next ((step_nil ht).trans hstep)]
    rcases hend with hrep | hst
    · exact ⟨t, steps_idle hrep.1 ht' n, hrep⟩
    · obtain ⟨t', hstep', hinv⟩ := h.engineStep_completes
      obtain rfl : t = t' := Host.Outcome.next.inj (hstep.symm.trans hstep')
      have hent := hinv.entered (by rw [hst])
      rw [hst] at hent
      exact ih hent ht' (Nat.le_of_lt_succ (hq.trans_le hn))

end

/-- Settles O54: the operation in OP stands before the phase in PHASE, and has at most five phases left, or three. -/
theorem operationsEnd : Obligations.OperationsEnd := fun _ h hb ht =>
  (h.runInv.entered hb).steps_reported ht (phasesLeft_le _ _)

end Sys2Proof.Machine
end
